-- ==== Sys2Proof/Word.lean ====
section
/-! DEFINITION. The word types of the block (00_scope.md R6, R7, R8). Bit 0 is the least significant bit; every value is
unsigned. -/

namespace Sys2Proof

/-- One byte: a packed RTC byte, an operand field of a command, an RTC bus address (00_scope.md R6, 20_memory.md R26). -/
abbrev Byte := BitVec 8

/-- A command word (30_encoding.md R35). -/
abbrev Word := BitVec 32

/-- A millisecond timestamp; its width is `TS_WIDTH` = 32 (00_scope.md R5). -/
abbrev Timestamp := BitVec 32

end Sys2Proof
end

