-- ==== Sys2Proof/Syntax.lean ====
section
/-! DEFINITION. The commands of the block, one constructor per row of spec/opcode_table.json (30_encoding.md R37, R38), and
the field layout of a command word (R35). -/

namespace Sys2Proof

/-- The three time fields: the selector of DEC (30_encoding.md R36) and the name of an RTC register (20_memory.md R21). -/
inductive Field where
  | hour
  | min
  | sec
  deriving DecidableEq, Repr

/-- The event sources of the debouncer, `src` = 0, 1, 2 (10_state.md R14). -/
inductive Source where
  | hourButton
  | minuteButton
  | sync
  deriving DecidableEq, Repr

/-- A command. Operands are the 8-bit fields `a`, `b`, `c` of the word (30_encoding.md R36). -/
inductive Instr where
  | decHour (c : Byte)
  | decMin (c : Byte)
  | decSec (c : Byte)
  | enc (c : Byte)
  | to12 (c : Byte)
  | hled (c : Byte)
  | mled (c : Byte)
  | brt (c : Byte)
  | debHour
  | debMin
  | debSync
  | inch
  | incm
  | btnh
  | btnm
  | sync (a b c : Byte)
  | refresh
  deriving DecidableEq, Repr

/-- The fields of a command word, most significant first (30_encoding.md R35). -/
structure CmdFields where
  op : BitVec 4
  rsv : BitVec 2
  sel : BitVec 2
  a : Byte
  b : Byte
  c : Byte
  deriving DecidableEq, Repr

/-- The fields each command stands for (30_encoding.md R37); an operand the command does not have is 0. -/
def Instr.fields : Instr → CmdFields
  | .decHour c => ⟨0x1, 0, 0, 0, 0, c⟩
  | .decMin c => ⟨0x1, 0, 1, 0, 0, c⟩
  | .decSec c => ⟨0x1, 0, 2, 0, 0, c⟩
  | .enc c => ⟨0x2, 0, 0, 0, 0, c⟩
  | .to12 c => ⟨0x3, 0, 0, 0, 0, c⟩
  | .hled c => ⟨0x4, 0, 0, 0, 0, c⟩
  | .mled c => ⟨0x5, 0, 0, 0, 0, c⟩
  | .brt c => ⟨0x6, 0, 0, 0, 0, c⟩
  | .debHour => ⟨0x7, 0, 0, 0, 0, 0⟩
  | .debMin => ⟨0x7, 0, 1, 0, 0, 0⟩
  | .debSync => ⟨0x7, 0, 2, 0, 0, 0⟩
  | .inch => ⟨0x8, 0, 0, 0, 0, 0⟩
  | .incm => ⟨0x9, 0, 0, 0, 0, 0⟩
  | .btnh => ⟨0xA, 0, 0, 0, 0, 0⟩
  | .btnm => ⟨0xB, 0, 0, 0, 0, 0⟩
  | .sync a b c => ⟨0xC, 0, 0, a, b, c⟩
  | .refresh => ⟨0xD, 0, 0, 0, 0, 0⟩

end Sys2Proof
end

