-- ==== Sys2Proof/WellFormed.lean ====
section
/-! DEFINITION. Well-formedness of a command's fields: the checks of 30_encoding.md R35 and R39, one name each. -/

namespace Sys2Proof

/-- `op` names an operation: 0x0, 0xE and 0xF are illegal (30_encoding.md R37, R39). -/
def CmdFields.opOk (f : CmdFields) : Bool := 1 ≤ f.op.toNat && f.op.toNat ≤ 13

/-- `rsv` is 0 (30_encoding.md R35). -/
def CmdFields.rsvOk (f : CmdFields) : Bool := f.rsv == 0

/-- `sel` is 0..2 for DEC and DEB and 0 for every other op (30_encoding.md R35, R36). -/
def CmdFields.selOk (f : CmdFields) : Bool :=
  if f.op == 0x1 || f.op == 0x7 then f.sel != 3 else f.sel == 0

/-- `a` is 0 for every op but SYNC (30_encoding.md R35). -/
def CmdFields.aOk (f : CmdFields) : Bool := f.op == 0xC || f.a == 0

/-- `b` is 0 for every op but SYNC (30_encoding.md R35). -/
def CmdFields.bOk (f : CmdFields) : Bool := f.op == 0xC || f.b == 0

/-- `c` is 0 for every op but DEC, ENC, TO12, HLED, MLED, BRT and SYNC (30_encoding.md R35). -/
def CmdFields.cOk (f : CmdFields) : Bool :=
  (1 ≤ f.op.toNat && f.op.toNat ≤ 6) || f.op == 0xC || f.c == 0

/-- The fields form a legal command (30_encoding.md R39). -/
def CmdFields.wellFormed (f : CmdFields) : Bool :=
  f.opOk && f.rsvOk && f.selOk && f.aOk && f.bOk && f.cOk

/-- A command is well formed when the fields it stands for pass every check. Operands are 8-bit by their type (R42: an
operand that does not fit its field is an assembly error, not a command). -/
abbrev Instr.WellFormed (i : Instr) : Prop := i.fields.wellFormed = true

end Sys2Proof
end

