-- ==== Sys2Proof/Decode.lean ====
section
/-! DEFINITION. The decoder (30_encoding.md R38, R39, R40), total over all 2^32 words, and after it the encoder (R35, R37). -/

namespace Sys2Proof

/-- Why a word is illegal: the cases of 30_encoding.md R39, in its order. Each of them raises IllegalCommand; the names are
the model's own (DESIGN CHOICE, log 13). -/
inductive IllegalWord where
  /-- `op` is 0x0, 0xE or 0xF. -/
  | opcode
  /-- `rsv` is not 0. -/
  | reserved
  /-- `sel` = 3 for DEC or DEB, or `sel` not 0 for another op. -/
  | selector
  /-- A field that must be 0 for the op is not 0. -/
  | unusedField
  deriving DecidableEq, Repr

/-- One row of the match and mask table (30_encoding.md R38), with the command it selects from the operand fields. -/
structure OpcodeRow where
  mnemonic : String
  pattern : Word
  mask : Word
  build : Byte → Byte → Byte → Instr

/-- The rows with a packed byte or plain value in `c` (30_encoding.md R38). -/
def operandRows : List OpcodeRow :=
  [ ⟨"DEC.HOUR", 0x10000000, 0xFFFFFF00, fun _ _ c => .decHour c⟩,
    ⟨"DEC.MIN", 0x11000000, 0xFFFFFF00, fun _ _ c => .decMin c⟩,
    ⟨"DEC.SEC", 0x12000000, 0xFFFFFF00, fun _ _ c => .decSec c⟩,
    ⟨"ENC", 0x20000000, 0xFFFFFF00, fun _ _ c => .enc c⟩,
    ⟨"TO12", 0x30000000, 0xFFFFFF00, fun _ _ c => .to12 c⟩,
    ⟨"HLED", 0x40000000, 0xFFFFFF00, fun _ _ c => .hled c⟩,
    ⟨"MLED", 0x50000000, 0xFFFFFF00, fun _ _ c => .mled c⟩,
    ⟨"BRT", 0x60000000, 0xFFFFFF00, fun _ _ c => .brt c⟩ ]

/-- The rows of the debouncer, the adjuster, the sync and the refresh (30_encoding.md R38). -/
def eventRows : List OpcodeRow :=
  [ ⟨"DEB.HOUR", 0x70000000, 0xFFFFFFFF, fun _ _ _ => .debHour⟩,
    ⟨"DEB.MIN", 0x71000000, 0xFFFFFFFF, fun _ _ _ => .debMin⟩,
    ⟨"DEB.SYNC", 0x72000000, 0xFFFFFFFF, fun _ _ _ => .debSync⟩,
    ⟨"INCH", 0x80000000, 0xFFFFFFFF, fun _ _ _ => .inch⟩,
    ⟨"INCM", 0x90000000, 0xFFFFFFFF, fun _ _ _ => .incm⟩,
    ⟨"BTNH", 0xA0000000, 0xFFFFFFFF, fun _ _ _ => .btnh⟩,
    ⟨"BTNM", 0xB0000000, 0xFFFFFFFF, fun _ _ _ => .btnm⟩,
    ⟨"SYNC", 0xC0000000, 0xFF000000, fun a b c => .sync a b c⟩,
    ⟨"REFRESH", 0xD0000000, 0xFFFFFFFF, fun _ _ _ => .refresh⟩ ]

/-- All 17 rows (30_encoding.md R38). -/
def opcodeTable : List OpcodeRow := operandRows ++ eventRows

/-- A word is a row's command exactly when `w & mask == match` (30_encoding.md R38). -/
def OpcodeRow.selects (r : OpcodeRow) (w : Word) : Bool := w &&& r.mask == r.pattern

/-- The fields of a word (30_encoding.md R35). -/
def fieldsOf (w : Word) : CmdFields :=
  ⟨w.extractLsb' 28 4, w.extractLsb' 26 2, w.extractLsb' 24 2, w.extractLsb' 16 8, w.extractLsb' 8 8, w.extractLsb' 0 8⟩

/-- The word with the given fields, most significant first (30_encoding.md R35). -/
def wordOf (f : CmdFields) : Word := f.op ++ f.rsv ++ f.sel ++ f.a ++ f.b ++ f.c

/-- The first check of 30_encoding.md R39 that illegal fields fail. -/
def illegalReason (f : CmdFields) : IllegalWord :=
  if !f.opOk then .opcode
  else if !f.rsvOk then .reserved
  else if !f.selOk then .selector
  else .unusedField

/-- The decoder of 30_encoding.md R40: the first row that selects the word, with the operands `a`, `b`, `c` of the word; no
row, an illegal word. -/
def decodeCmd (w : Word) : Except IllegalWord Instr :=
  match opcodeTable.find? (·.selects w) with
  | some r => .ok (r.build (w.extractLsb' 16 8) (w.extractLsb' 8 8) (w.extractLsb' 0 8))
  | none => .error (illegalReason (fieldsOf w))

/-- The host's question about one table row: the command the decoder reads from the `nbits` low bits of `w`. Every command is
one 32-bit word on the command port (30_encoding.md R41), so there is no byte order between words. -/
def decodeTableWord (nbits w : Nat) : Option Instr :=
  match decodeCmd (BitVec.ofNat 32 (w % 2 ^ nbits)) with
  | .ok i => some i
  | .error _ => none

/-- The command word of a command (30_encoding.md R35, R37). -/
def encode (i : Instr) : Word := wordOf i.fields

end Sys2Proof
end

