-- ==== Sys2Proof/Config.lean ====
section
/-! DEFINITION. The parameters of the block (00_scope.md R5). They are fixed for a given block and never changed by a command;
the model takes them as an argument, the field `params` of State (log 1). The OPEN ones have no value here: they are opaque. -/

namespace Sys2Proof

/-- `HOUR_WRAP`, 24 or 25 (00_scope.md R5, D9). -/
inductive HourWrap where
  | at24
  | at25
  deriving DecidableEq, Repr

/-- The number `HOUR_WRAP` stands for. -/
def HourWrap.value : HourWrap → Nat
  | .at24 => 24
  | .at25 => 25

/-- The parameters of a block (00_scope.md R5). `TS_WIDTH` is the width of `Timestamp`. -/
structure Params where
  /-- `DEBOUNCE_MS`. -/
  debounceMs : Nat
  /-- `REFRESH_PERIOD_MS`: a duty of the host; nothing in the block reads it (44_clockloop.md R81, log 15). -/
  refreshPeriodMs : Nat
  /-- `PWM_MAX`, 1..65535. -/
  pwmMax : BitVec 16
  hourWrap : HourWrap
  debounceShared : Bool
  syncHour12h : Bool
  /-- `SEC_HALT_WRITE`, 0 or 1. -/
  secHaltWrite : BitVec 1
  regHour : Byte
  regMin : Byte
  regSec : Byte
  deriving DecidableEq, Repr

/-- The bus address of an RTC register (20_memory.md R21). -/
def Params.addr (p : Params) : Field → Byte
  | .hour => p.regHour
  | .min => p.regMin
  | .sec => p.regSec

/-- The ranges 00_scope.md R5 gives: `PWM_MAX` at least 1, the three addresses pairwise distinct. The other ranges hold by
the fields' types. -/
def Params.wellFormed (p : Params) : Bool :=
  p.pwmMax != 0 && p.regHour != p.regMin && p.regHour != p.regSec && p.regMin != p.regSec

/-! The OPEN parameters (92_eei_decisions.md, "Open parameters"; log 1). -/

/-- Any 16-bit value, from which `PWM_MAX` comes. -/
opaque Config.anyPwm : BitVec 16

/-- `SEC_HALT_WRITE`: any bit (D20). -/
opaque Config.secHaltWrite : BitVec 1

/-- Any three bytes, from which the register addresses come. -/
opaque Config.anyRegHour : Byte

/-- Any byte, see `Config.anyRegHour`. -/
opaque Config.anyRegMin : Byte

/-- Any byte, see `Config.anyRegHour`. -/
opaque Config.anyRegSec : Byte

/-- `PWM_MAX`: any value in 1..65535 (D11, DESIGN CHOICE, log 2). -/
def Config.pwmMax : BitVec 16 := if Config.anyPwm = 0 then 1 else Config.anyPwm

/-- The three free address bytes are pairwise distinct. -/
def Config.regsDistinct : Bool :=
  Config.anyRegHour != Config.anyRegMin && Config.anyRegHour != Config.anyRegSec && Config.anyRegMin != Config.anyRegSec

/-- `REG_HOUR`: the three addresses are any pairwise distinct bytes (D19, DESIGN CHOICE, log 2). -/
def Config.regHour : Byte := if Config.regsDistinct then Config.anyRegHour else 0

/-- `REG_MIN`, see `Config.regHour`. -/
def Config.regMin : Byte := if Config.regsDistinct then Config.anyRegMin else 1

/-- `REG_SEC`, see `Config.regHour`. -/
def Config.regSec : Byte := if Config.regsDistinct then Config.anyRegSec else 2

/-- The parameters of this block: the values 00_scope.md R5 gives, the OPEN ones opaque. -/
def Config.params : Params where
  debounceMs := 200
  refreshPeriodMs := 1000
  pwmMax := Config.pwmMax
  hourWrap := .at24
  debounceShared := true
  syncHour12h := true
  secHaltWrite := Config.secHaltWrite
  regHour := Config.regHour
  regMin := Config.regMin
  regSec := Config.regSec

end Sys2Proof
end

