-- ==== Sys2Proof/Machine/State.lean ====
section
/-! DEFINITION. The state of the machine as plain data: the block's state (10_state.md R11), the RTC registers it reaches
(20_memory.md R21), the parameters it is built with (00_scope.md R5) and what the environment does next (log 4, log 6, log 7).
The reasons a step can stop, and the state after reset (10_state.md R20). -/

namespace Sys2Proof.Machine

/-- One debounce slot (10_state.md R13): `last_ts` and `last_valid`. -/
structure Slot where
  lastTs : Timestamp
  lastValid : Bool
  deriving DecidableEq, Repr

/-- The slots `0`, `1`, `2` (10_state.md R13). With `DEBOUNCE_SHARED` = true the block has slot 0 only and the other two stay
as reset left them (log 11). -/
structure Slots where
  slot0 : Slot
  slot1 : Slot
  slot2 : Slot
  deriving DecidableEq, Repr

/-- The bits of `status` that a command leaves behind (10_state.md R17); `BUSY` is `phase` and bits 7:5 are 0, see
`State.status`. -/
structure Flags where
  /-- `DOM_ERR`, sticky. -/
  domErr : Bool
  /-- `BUS_ERR`, sticky. -/
  busErr : Bool
  /-- `ILL_ERR`, sticky. -/
  illErr : Bool
  /-- `ACC`, the verdict of the last debounce. -/
  acc : Bool
  deriving DecidableEq, Repr

/-- A bus request as the ports `bus_we`, `bus_addr`, `bus_wdata` show it (10_state.md R19). -/
inductive BusReq where
  | read (addr : Byte)
  | write (addr data : Byte)
  deriving DecidableEq, Repr

/-- A completed bus transaction: the request, and whether it completed with `bus_err` = 1 (20_memory.md R22, R23). -/
structure BusTxn where
  req : BusReq
  failed : Bool
  deriving DecidableEq, Repr

/-- The control state (10_state.md R15): `IDLE`, or `EXEC(cmd, now, k)`. `got` holds the byte of each of the `k` completed
transactions, oldest first (the byte read, or the byte written), from which the pseudocode's variables are computed, and `req`
the request the bus ports hold until `bus_done` (none before the command's first request) (log 8). -/
inductive Phase where
  | idle
  | exec (cmd : Word) (now : Timestamp) (got : List Byte) (req : Option BusReq)
  deriving DecidableEq, Repr

/-- A command as the host presents it: the word and its timestamp (10_state.md R19). -/
structure HostCmd where
  cmd : Word
  now : Timestamp
  deriving DecidableEq, Repr

/-- What the environment of the block does next (log 4). -/
inductive EnvEvent where
  /-- `cmd_valid` = 1 at an idle block: it takes the presented command here, and the events after this one meet the command
  (10_state.md R19, log 17). -/
  | take
  /-- The RTC agent replaces a register with any byte (20_memory.md R24). -/
  | rtcStep (f : Field) (v : Byte)
  /-- The pending transaction completes with `bus_err` = 0 (R22, R23). -/
  | busDone
  /-- The pending transaction completes with `bus_err` = 1; a written register holds `left` afterwards, any byte (R23, I4). -/
  | busErr (left : Byte)
  /-- Nothing arrives during one step: at a pending transaction `bus_done` = 0, between commands `cmd_valid` = 0. -/
  | wait
  /-- `rst` = 1 for one step; the register of a write in flight holds `left` afterwards, any byte (R120, I5). -/
  | rst (left : Byte)
  deriving DecidableEq, Repr

/-- The RTC register bus's contents: address and byte pairs, addresses strictly rising, no entry equal to what an unlisted
address reads as. -/
abbrev Memory := List Host.Cell

/-- The machine's state. -/
structure State where
  /-- The parameters of the block (00_scope.md R5); no step changes them (log 1). -/
  params : Params
  /-- Control state (10_state.md R15). -/
  phase : Phase
  /-- Debounce slots (10_state.md R13). -/
  slots : Slots
  /-- Hour LED register (10_state.md R16). -/
  outHour : BitVec 4
  /-- Minute LED register (10_state.md R16). -/
  outMin : BitVec 6
  /-- Duty register (10_state.md R16). -/
  pwm : BitVec 16
  /-- Result register (10_state.md R18). -/
  result : BitVec 16
  /-- The stored bits of `status` (10_state.md R17). -/
  flags : Flags
  /-- The RTC agent's registers (20_memory.md R21). -/
  rtc : Memory
  /-- The model's record of completed bus transactions, oldest first (log 7). -/
  busLog : List BusTxn
  /-- The commands the host presents next, in order (70_reset_and_hazards.md R123, log 6). -/
  host : List HostCmd
  /-- What the environment does next; when it is empty every transaction completes at once without error (log 4). -/
  env : List EnvEvent
  deriving DecidableEq, Repr

/-- The reasons a step stops with a fault: none. An error of the block sets its sticky status bit, ends the command and leaves
the block ready for the next one (60_exceptions.md R100, R106), so nothing the spec describes stops the machine. -/
inductive Fault where
  deriving DecidableEq, Repr

/-- The reasons a step is refused. -/
inductive Refusal where
  /-- Raised by an arm of `exec` for an instruction without a meaning; no arm is in that case, so nothing raises it. Safe. -/
  | notModelled (mnemonic : String)
  deriving DecidableEq, Repr

/-- A slot that has accepted nothing since reset (10_state.md R20). -/
def Slot.reset : Slot := ⟨0, false⟩

/-- All slots after reset (10_state.md R20). -/
def Slots.reset : Slots := ⟨Slot.reset, Slot.reset, Slot.reset⟩

/-- `status` bits after reset: 0x00 (10_state.md R20). -/
def Flags.reset : Flags := ⟨false, false, false, false⟩

/-- The machine right after reset (10_state.md R20), for a block with the given parameters. The RTC registers are unknown to
the block; the model lists none (DESIGN CHOICE, log 3), and presents no command and no environment event (log 4, log 6). -/
def State.resetWith (p : Params) : State where
  params := p
  phase := .idle
  slots := Slots.reset
  outHour := 0
  outMin := 0
  pwm := 0
  result := 0
  flags := Flags.reset
  rtc := []
  busLog := []
  host := []
  env := []

/-- The machine right after reset (10_state.md R20), for this block's parameters (00_scope.md R5). -/
def State.reset : State := State.resetWith Config.params

end Sys2Proof.Machine
end

