-- ==== Sys2Proof/Machine/Flags.lean ====
section
/-! DEFINITION. The `status` register (10_state.md R17): setting a sticky bit, and the 8-bit view the host reads. -/

namespace Sys2Proof.Machine

/-- The errors of the block (60_exceptions.md R101, R102, R103). -/
inductive ErrorKind where
  /-- DomainError, code 0. -/
  | domain
  /-- BusError, code 1. -/
  | bus
  /-- IllegalCommand, code 2. -/
  | illegalCommand
  deriving DecidableEq, Repr

/-- Sets the sticky bit of an error; a bit once set stays set (10_state.md R17, 60_exceptions.md R106). -/
def Flags.withError (e : ErrorKind) (f : Flags) : Flags :=
  match e with
  | .domain => { f with domErr := true }
  | .bus => { f with busErr := true }
  | .illegalCommand => { f with illErr := true }

/-- `BUSY` (10_state.md R17): `phase` is `EXEC`. -/
def State.busy (s : State) : Bool :=
  match s.phase with
  | .idle => false
  | .exec _ _ _ _ => true

/-- The `status` port (10_state.md R17), bit 7 first: three hardwired zeros, `BUSY`, `ACC`, `ILL_ERR`, `BUS_ERR`, `DOM_ERR`. -/
def State.status (s : State) : BitVec 8 :=
  0#3 ++ BitVec.ofBool s.busy ++ BitVec.ofBool s.flags.acc ++ BitVec.ofBool s.flags.illErr ++ BitVec.ofBool s.flags.busErr
    ++ BitVec.ofBool s.flags.domErr

end Sys2Proof.Machine
end

