-- ==== Sys2Proof/Machine/Ops.lean ====
section
/-! DEFINITION. The named operations over the RTC registers and the block's registers, the end of a command, taking an error
(60_exceptions.md R100), reset (70_reset_and_hazards.md R120) and the output ports (10_state.md R19). -/

namespace Sys2Proof.Machine

/-- The outcome of a step or of a command's meaning. -/
abbrev Result := Host.Outcome State Fault Refusal

/-! ### Memory -/

/-- What an address that the memory does not list reads as (DESIGN CHOICE, log 3: the spec leaves the RTC's contents after
reset unknown, 10_state.md R20). -/
def Memory.unlisted : Byte := 0

/-- The byte at an address. -/
def Memory.read : Memory → Nat → Byte
  | [], _ => Memory.unlisted
  | (b, w) :: m, a => if b = a then w else Memory.read m a

/-- A list with the byte at an address in front of it, unless the byte is what an unlisted address reads as. -/
def Memory.consCell (a : Nat) (v : Byte) (m : Memory) : Memory :=
  if v = Memory.unlisted then m else (a, v) :: m

/-- Replaces the byte at an address, keeping the canonical form. -/
def Memory.write : Memory → Nat → Byte → Memory
  | [], a, v => Memory.consCell a v []
  | (b, w) :: m, a, v =>
    if b < a then (b, w) :: Memory.write m a v
    else if b = a then Memory.consCell a v m
    else Memory.consCell a v ((b, w) :: m)

/-- Addresses strictly rise from `lo` on, and no entry equals what an unlisted address reads as. -/
def Memory.canonicalFrom : Nat → Memory → Bool
  | _, [] => true
  | lo, (a, v) :: m => decide (lo ≤ a) && v != Memory.unlisted && Memory.canonicalFrom (a + 1) m

/-- The canonical form of a memory. -/
def Memory.wf (m : Memory) : Bool := Memory.canonicalFrom 0 m

/-- The value an RTC register holds (20_memory.md R21). -/
def State.rtcByte (s : State) (f : Field) : Byte := s.rtc.read (s.params.addr f).toNat

/-! ### Updates of one piece of state -/

def State.setPhase (s : State) (p : Phase) : State := { s with phase := p }

def State.setSlots (s : State) (x : Slots) : State := { s with slots := x }

def State.setFlags (s : State) (f : Flags) : State := { s with flags := f }

/-- `result <- v` (10_state.md R18). -/
def State.setResult (s : State) (v : BitVec 16) : State := { s with result := v }

/-- `out_hour`, `out_min` and `pwm` together (44_clockloop.md R80). -/
def State.setOutputs (s : State) (h : BitVec 4) (m : BitVec 6) (p : BitVec 16) : State :=
  { s with outHour := h, outMin := m, pwm := p }

/-- The RTC register `f` holds `v` (20_memory.md R23, R24). -/
def State.setRtc (s : State) (f : Field) (v : Byte) : State :=
  { s with rtc := s.rtc.write (s.params.addr f).toNat v }

def State.setEnv (s : State) (e : List EnvEvent) : State := { s with env := e }

def State.setHost (s : State) (h : List HostCmd) : State := { s with host := h }

/-- A transaction completed (log 7). -/
def State.logTxn (s : State) (t : BusTxn) : State := { s with busLog := s.busLog ++ [t] }

/-! ### The command in progress -/

/-- The word of the command in progress (10_state.md R15). -/
def State.cmdWord (s : State) : Word :=
  match s.phase with
  | .idle => 0
  | .exec cmd _ _ _ => cmd

/-- The timestamp sampled with the command in progress (10_state.md R15, R19). Outside `EXEC` there is none; the model reads 0,
which no step does (log 18). -/
def State.now (s : State) : Timestamp :=
  match s.phase with
  | .idle => 0
  | .exec _ now _ _ => now

/-- The bytes of the command's completed transactions (10_state.md R15, log 8). -/
def State.got (s : State) : List Byte :=
  match s.phase with
  | .idle => []
  | .exec _ _ got _ => got

/-- `k`, the number of the command's completed transactions (10_state.md R15). -/
def State.txnCount (s : State) : Nat := s.got.length

/-- The request the bus ports hold (10_state.md R19). -/
def State.pendingReq (s : State) : Option BusReq :=
  match s.phase with
  | .idle => none
  | .exec _ _ _ req => req

/-- `phase <- EXEC(cmd, now, 0)` (30_encoding.md R40). -/
def State.takeCommand (s : State) (c : HostCmd) : State := s.setPhase (.exec c.cmd c.now [] none)

/-- One more transaction of the command has completed, with byte `b` (10_state.md R15). -/
def State.passTxn (s : State) (b : Byte) : State :=
  match s.phase with
  | .idle => s
  | .exec cmd now got _ => s.setPhase (.exec cmd now (got ++ [b]) none)

/-- The command waits at a bus transaction: the ports hold the request (20_memory.md R22, R23). -/
def State.holdReq (s : State) (r : BusReq) : State := s.setPhase (.exec s.cmdWord s.now s.got (some r))

/-! ### The end of a command -/

/-- The pseudocode ends: `phase <- IDLE` (10_state.md R15). -/
def finish (s : State) : Result := .next (s.setPhase .idle)

/-- `raise E` (60_exceptions.md R100): the sticky bit of `E` is set, the command ends at this line, `phase <- IDLE`; everything
written by earlier lines stays. The error's `info` is stored nowhere. There is no return: the block takes the next command
(R106). -/
def raise (e : ErrorKind) (s : State) : Result := .next ((s.setFlags (s.flags.withError e)).setPhase .idle)

/-- The block's state after `rst` (70_reset_and_hazards.md R120, 10_state.md R20): every piece of its state takes its reset
value; the RTC, the parameters and the environment are not the block's and stay. -/
def State.resetBlock (s : State) : State :=
  ((((s.setPhase .idle).setSlots Slots.reset).setOutputs 0 0 0).setResult 0).setFlags Flags.reset

/-! ### Ports -/

/-- `rst` in this step (10_state.md R19). -/
def State.rstAsserted (s : State) : Bool :=
  match s.env with
  | .rst _ :: _ => true
  | _ => false

/-- `cmd_ready`: 1 exactly when `phase` = `IDLE` (10_state.md R19), and 0 while `rst` = 1 (70_reset_and_hazards.md R120). -/
def State.cmdReady (s : State) : Bool := !s.busy && !s.rstAsserted

/-- `bus_req` (10_state.md R19). -/
def State.busReq (s : State) : Bool := s.pendingReq.isSome

/-- `bus_we`, while a request is held (10_state.md R19). -/
def State.busWe (s : State) : Option Bool :=
  s.pendingReq.map fun r => match r with
    | .read _ => false
    | .write _ _ => true

/-- `bus_addr`, while a request is held (10_state.md R19). -/
def State.busAddr (s : State) : Option Byte :=
  s.pendingReq.map fun r => match r with
    | .read addr => addr
    | .write addr _ => addr

/-- `bus_wdata`, while a write request is held (10_state.md R19). -/
def State.busWdata (s : State) : Option Byte :=
  match s.pendingReq with
  | some (.write _ data) => some data
  | _ => none

/-- Hour LED at position `k`, 0..3: `out_hour[3-k]` (10_state.md R16). -/
def State.ledHour (s : State) (k : Fin 4) : Bool := s.outHour.getLsbD (3 - k.val)

/-- Minute LED at position `k`, 0..5: `out_min[5-k]` (10_state.md R16). -/
def State.ledMin (s : State) (k : Fin 6) : Bool := s.outMin.getLsbD (5 - k.val)

end Sys2Proof.Machine
end

