-- ==== Sys2Proof/Machine/Operands.lean ====
section
/-! DEFINITION. The operand forms of a command (30_encoding.md R36): a plain operand, a packed byte, an event source and its
slot. -/

namespace Sys2Proof.Machine

/-- A plain operand field: an unsigned binary integer 0..255, never packed decimal (30_encoding.md R36). -/
def plainOperand (x : Byte) : Nat := x.toNat

/-- The number of an event source, `src` (10_state.md R14). -/
def sourceNumber : Source → Nat
  | .hourButton => 0
  | .minuteButton => 1
  | .sync => 2

/-- The slot a source uses (10_state.md R14). -/
def slotNumber (p : Params) (src : Source) : Nat := if p.debounceShared then 0 else sourceNumber src

/-- The slot with a number 0..2. -/
def Slots.get (x : Slots) (n : Nat) : Slot :=
  if n = 0 then x.slot0 else if n = 1 then x.slot1 else x.slot2

/-- Replaces the slot with a number 0..2. -/
def Slots.put (x : Slots) (n : Nat) (v : Slot) : Slots :=
  if n = 0 then { x with slot0 := v } else if n = 1 then { x with slot1 := v } else { x with slot2 := v }

/-- The slot of a source (10_state.md R14). -/
def State.slotOf (s : State) (src : Source) : Slot := s.slots.get (slotNumber s.params src)

end Sys2Proof.Machine
end

