-- ==== Sys2Proof/Machine/Bus.lean ====
section
/-! DEFINITION. The bus primitives `MemRead` and `MemWrite` (20_memory.md R22, R23), against an environment that may change the
RTC, delay, fail or reset between any two transactions (R24, R25, 70_reset_and_hazards.md R120). -/

namespace Sys2Proof.Machine

/-- What a transaction does at a register: `MemRead` or `MemWrite` (00_scope.md R9). -/
inductive BusOp where
  | read
  | write (v : Byte)
  deriving DecidableEq, Repr

/-- The request of an operation at a register, with its bus address (10_state.md R19). -/
def busRequest (p : Params) (f : Field) : BusOp → BusReq
  | .read => .read (p.addr f)
  | .write v => .write (p.addr f) v

/-- The byte of a transaction: the one read, or the one written. -/
def State.busByte (s : State) (f : Field) : BusOp → Byte
  | .read => s.rtcByte f
  | .write v => v

/-- The effect of a transaction performed without error: a read changes nothing (20_memory.md R30), a write replaces the whole
byte (R23). -/
def State.busEffect (s : State) (f : Field) : BusOp → State
  | .read => s
  | .write v => s.setRtc f v

/-- A write that failed or was abandoned leaves any byte `left` in its register (20_memory.md R23, 70_reset_and_hazards.md R120);
a read changes nothing. -/
def State.busSpoil (s : State) (f : Field) (op : BusOp) (left : Byte) : State :=
  match op with
  | .read => s
  | .write _ => s.setRtc f left

/-- How a request ends in this step. -/
inductive BusOutcome where
  /-- Completed with `bus_err` = 0 and this byte. -/
  | done (b : Byte) (s : State)
  /-- Completed with `bus_err` = 1. -/
  | failed (s : State)
  /-- Not completed in this step. -/
  | pending (s : State)
  /-- Abandoned by reset. -/
  | aborted (s : State)

/-- The request completes now with `bus_err` = 0; `rest` is the environment from then on. -/
def completeTxn (f : Field) (op : BusOp) (rest : List EnvEvent) (s : State) : BusOutcome :=
  .done (s.busByte f op) (((s.busEffect f op).logTxn ⟨busRequest s.params f op, false⟩).setEnv rest)

/-- Plays the environment until the request completes, fails, is left waiting or is abandoned. A transaction is performed when
it completes (20_memory.md R22, R23, R31, log 14); an environment that says nothing more of it, because the script ends or
goes on with the taking of a later command, completes it at once (log 4, log 17). -/
def awaitBus (f : Field) (op : BusOp) : List EnvEvent → State → BusOutcome
  | [], s => completeTxn f op [] s
  | .take :: es, s => completeTxn f op (.take :: es) s
  | .rtcStep g v :: es, s => awaitBus f op es (s.setRtc g v)
  | .busDone :: es, s => completeTxn f op es s
  | .busErr left :: es, s =>
    .failed (((s.busSpoil f op left).logTxn ⟨busRequest s.params f op, true⟩).setEnv es)
  | .wait :: es, s => .pending (s.setEnv es)
  | .rst left :: es, s => .aborted (((s.busSpoil f op left).setEnv es).resetBlock)

/-- The command's transaction number `n` (from 0): already completed, its byte is the recorded one (log 8, log 16); otherwise
it is issued now. Its failure raises BusError (60_exceptions.md R102). -/
def busAccess (n : Nat) (f : Field) (op : BusOp) (s : State) (k : Byte → State → Result) : Result :=
  match s.got[n]? with
  | some b => k b s
  | none =>
    match awaitBus f op s.env s with
    | .done b t => k b (t.passTxn b)
    | .failed t => raise .bus t
    | .pending t => .next (t.holdReq (busRequest t.params f op))
    | .aborted t => .next t

/-- `MemRead` of a register as transaction `n` of the command (20_memory.md R22). -/
def memRead (n : Nat) (f : Field) (s : State) (k : Byte → State → Result) : Result := busAccess n f .read s k

/-- `MemWrite` of a register as transaction `n` of the command (20_memory.md R23). -/
def memWrite (n : Nat) (f : Field) (v : Byte) (s : State) (k : State → Result) : Result :=
  busAccess n f (.write v) s fun _ => k

end Sys2Proof.Machine
end

