-- ==== Sys2Proof/Machine/Codec.lean ====
section
/-! DEFINITION. CodecBCD (40_codec.md): decodeField, encodeField, and the commands DEC and ENC. -/

namespace Sys2Proof.Machine

/-- `decodeField(sel, p)` (40_codec.md R43): HOUR reads a 2-bit tens digit, MIN and SEC a 3-bit one; SEC masks the clock-halt
bit first. -/
def decodeField : Field → Byte → Nat
  | .hour, p => (p.extractLsb' 4 2).toNat * 10 + (p.extractLsb' 0 4).toNat
  | .min, p => (p.extractLsb' 4 3).toNat * 10 + (p.extractLsb' 0 4).toNat
  | .sec, p =>
    let q := p &&& 0x7F
    (q.extractLsb' 4 3).toNat * 10 + (p.extractLsb' 0 4).toNat

/-- `encodeField(v)` (40_codec.md R45); every caller checks `v` ≤ 59 first. -/
def encodeField (v : Nat) : Byte :=
  let tens := v / 10
  let ones := v % 10
  BitVec.ofNat 8 (tens <<< 4 ||| ones)

/-- `result <- zext_16(decodeField(sel, c))` (40_codec.md R46). -/
def decodeToResult (f : Field) (c : Byte) (s : State) : Result :=
  finish (s.setResult (BitVec.ofNat 16 (decodeField f c)))

/-- DEC.HOUR (40_codec.md R46). -/
def execDecHour (c : Byte) (s : State) : Result := decodeToResult .hour c s

/-- DEC.MIN (40_codec.md R46). -/
def execDecMin (c : Byte) (s : State) : Result := decodeToResult .min c s

/-- DEC.SEC (40_codec.md R46). -/
def execDecSec (c : Byte) (s : State) : Result := decodeToResult .sec c s

/-- ENC (40_codec.md R47). -/
def execEnc (c : Byte) (s : State) : Result :=
  let v := plainOperand c
  if 59 < v then raise .domain s
  else finish (s.setResult ((encodeField v).setWidth 16))

end Sys2Proof.Machine
end

