-- ==== Sys2Proof/Machine/Debounce.lean ====
section
/-! DEFINITION. The Debouncer (42_debounce.md): the acceptance rule, the indivisible test and record, and the command DEB. -/

namespace Sys2Proof.Machine

/-- `accepts(i, now)` (42_debounce.md R60): the slot has accepted nothing since reset, or the 32-bit modular difference is
strictly greater than `DEBOUNCE_MS`. -/
def accepts (p : Params) (slot : Slot) (now : Timestamp) : Bool :=
  !slot.lastValid || decide (p.debounceMs < (now - slot.lastTs).toNat)

/-- Records an accepted event in the slot of its source (42_debounce.md R62). -/
def State.recordAccepted (s : State) (src : Source) (now : Timestamp) : State :=
  s.setSlots (s.slots.put (slotNumber s.params src) ⟨now, true⟩)

/-- `status.ACC <- acc` (42_debounce.md R62). -/
def State.setAcc (s : State) (acc : Bool) : State := s.setFlags { s.flags with acc := acc }

/-- `debounce(src, now)` (42_debounce.md R62): the verdict, and the state with the event recorded if accepted and `ACC` set to
the verdict. One step, indivisible (R63). -/
def debounce (src : Source) (now : Timestamp) (s : State) : Bool × State :=
  if accepts s.params (s.slotOf src) now then (true, (s.recordAccepted src now).setAcc true)
  else (false, s.setAcc false)

/-- `if debounce(src, now): …` at the head of BTNH, BTNM and SYNC (43_adjust.md R74, R75, 45_sync.md R85). A command that is
waiting at a transaction was accepted when it began, and its event is recorded once (log 16). -/
def ifAccepted (src : Source) (s : State) (k : State → Result) : Result :=
  match s.pendingReq with
  | some _ => k s
  | none =>
    match debounce src s.now s with
    | (true, t) => k t
    | (false, t) => finish t

/-- `acc <- debounce(sel, now); result <- zext_16(acc)` (42_debounce.md R64). -/
def debounceToResult (src : Source) (s : State) : Result :=
  match debounce src s.now s with
  | (acc, t) => finish (t.setResult ((BitVec.ofBool acc).setWidth 16))

/-- DEB.HOUR (42_debounce.md R64). -/
def execDebHour (s : State) : Result := debounceToResult .hourButton s

/-- DEB.MIN (42_debounce.md R64). -/
def execDebMin (s : State) : Result := debounceToResult .minuteButton s

/-- DEB.SYNC (42_debounce.md R64). -/
def execDebSync (s : State) : Result := debounceToResult .sync s

end Sys2Proof.Machine
end

