-- ==== Sys2Proof/Machine/Adjust.lean ====
section
/-! DEFINITION. TimeAdjuster (43_adjust.md): the hour and minute increments and the commands INCH, INCM, BTNH, BTNM. -/

namespace Sys2Proof.Machine

/-- `incHour()` (43_adjust.md R70), its read and write being transactions `n` and `n + 1` of the command, then `k`. -/
def incHour (n : Nat) (s : State) (k : State → Result) : Result :=
  memRead n .hour s fun p s =>
    let h := decodeField .hour p
    if s.params.hourWrap.value ≤ h then raise .domain s
    else
      let h := h + 1
      let h := if h = s.params.hourWrap.value then 0 else h
      memWrite (n + 1) .hour (encodeField h) s k

/-- `incMinute()` (43_adjust.md R72): with a carry, read MIN, read HOUR, write HOUR, write MIN; without, read MIN, write MIN. -/
def incMinute (s : State) : Result :=
  memRead 0 .min s fun p s =>
    let m := decodeField .min p
    if 59 < m then raise .domain s
    else
      let m := m + 1
      if m = 60 then incHour 1 s fun s => memWrite 3 .min (encodeField 0) s finish
      else memWrite 1 .min (encodeField m) s finish

/-- INCH (43_adjust.md R71). -/
def execInch (s : State) : Result := incHour 0 s finish

/-- INCM (43_adjust.md R73). -/
def execIncm (s : State) : Result := incMinute s

/-- BTNH (43_adjust.md R74). -/
def execBtnh (s : State) : Result := ifAccepted .hourButton s fun s => incHour 0 s finish

/-- BTNM (43_adjust.md R75). -/
def execBtnm (s : State) : Result := ifAccepted .minuteButton s incMinute

end Sys2Proof.Machine
end

