-- ==== Sys2Proof/Machine/Display.lean ====
section
/-! DEFINITION. DisplayMapper (41_display.md): to12Hour, hourBank, minuteBank, brightness, and the commands TO12, HLED, MLED,
BRT. -/

namespace Sys2Proof.Machine

/-- `to12Hour(h)` (41_display.md R50). -/
def to12Hour (h : Nat) : Nat :=
  if 24 ≤ h then 0
  else if 12 < h then h - 12
  else h

/-- `hourBank(h)` (41_display.md R52). -/
def hourBank (h : Nat) : BitVec 4 := BitVec.ofNat 4 (to12Hour h)

/-- `minuteBank(m)` (41_display.md R54); every caller checks `m` ≤ 59 first. -/
def minuteBank (m : Nat) : BitVec 6 := BitVec.ofNat 6 m

/-- `brightness(s)` (41_display.md R56); every caller checks `s` ≤ 59 first. -/
def brightness (p : Params) (s : Nat) : BitVec 16 := BitVec.ofNat 16 ((2 * s * p.pwmMax.toNat + 59) / 118)

/-- TO12 (41_display.md R51). -/
def execTo12 (c : Byte) (s : State) : Result :=
  finish (s.setResult (BitVec.ofNat 16 (to12Hour (plainOperand c))))

/-- HLED (41_display.md R53). -/
def execHled (c : Byte) (s : State) : Result :=
  finish (s.setResult ((hourBank (plainOperand c)).setWidth 16))

/-- MLED (41_display.md R55). -/
def execMled (c : Byte) (s : State) : Result :=
  let m := plainOperand c
  if 59 < m then raise .domain s
  else finish (s.setResult ((minuteBank m).setWidth 16))

/-- BRT (41_display.md R57). -/
def execBrt (c : Byte) (s : State) : Result :=
  let v := plainOperand c
  if 59 < v then raise .domain s
  else finish (s.setResult (brightness s.params v))

end Sys2Proof.Machine
end

