-- ==== Sys2Proof/Machine/ClockLoop.lean ====
section
/-! DEFINITION. The display refresh (44_clockloop.md): the command REFRESH. -/

namespace Sys2Proof.Machine

/-- The lines of REFRESH after its three reads (44_clockloop.md R80): all three outputs change together or none does. -/
def showTime (ph pm ps : Byte) (s : State) : Result :=
  let h := decodeField .hour ph
  let m := decodeField .min pm
  let v := decodeField .sec ps
  if 59 < m then raise .domain s
  else if 59 < v then raise .domain s
  else finish (s.setOutputs (hourBank h) (minuteBank m) (brightness s.params v))

/-- REFRESH (44_clockloop.md R80). -/
def execRefresh (s : State) : Result :=
  memRead 0 .hour s fun ph s =>
    memRead 1 .min s fun pm s =>
      memRead 2 .sec s fun ps s =>
        showTime ph pm ps s

end Sys2Proof.Machine
end

