-- ==== Sys2Proof/Machine/Sync.lean ====
section
/-! DEFINITION. The external sync (45_sync.md): the command SYNC. -/

namespace Sys2Proof.Machine

/-- The byte SYNC writes to SEC: the packed seconds with the clock-halt bit forced to `SEC_HALT_WRITE` (45_sync.md R85). -/
def syncSecByte (p : Params) (c : Nat) : Byte := encodeField c ||| (p.secHaltWrite.setWidth 8 <<< 7)

/-- The checks on minutes and seconds and the three writes, with the hour value `hv` (45_sync.md R85). -/
def syncWrites (hv m v : Nat) (s : State) : Result :=
  if 59 < m then raise .domain s
  else if 59 < v then raise .domain s
  else
    memWrite 0 .hour (encodeField hv) s fun s =>
      memWrite 1 .min (encodeField m) s fun s =>
        memWrite 2 .sec (syncSecByte s.params v) s finish

/-- SYNC (45_sync.md R85). -/
def execSync (a b c : Byte) (s : State) : Result :=
  ifAccepted .sync s fun s =>
    if s.params.syncHour12h then syncWrites (to12Hour (plainOperand a)) (plainOperand b) (plainOperand c) s
    else if s.params.hourWrap.value ≤ plainOperand a then raise .domain s
    else syncWrites (plainOperand a) (plainOperand b) (plainOperand c) s

end Sys2Proof.Machine
end

