-- ==== Sys2Proof/Machine/Dispatch.lean ====
section
/-! DEFINITION. One arm per command (30_encoding.md R37, R40). -/

namespace Sys2Proof.Machine

def exec (i : Instr) (s : State) : Host.Outcome State Fault Refusal :=
  match i with
  | .decHour c => Sys2Proof.Machine.execDecHour c s
  | .decMin c => Sys2Proof.Machine.execDecMin c s
  | .decSec c => Sys2Proof.Machine.execDecSec c s
  | .enc c => Sys2Proof.Machine.execEnc c s
  | .to12 c => Sys2Proof.Machine.execTo12 c s
  | .hled c => Sys2Proof.Machine.execHled c s
  | .mled c => Sys2Proof.Machine.execMled c s
  | .brt c => Sys2Proof.Machine.execBrt c s
  | .debHour => Sys2Proof.Machine.execDebHour s
  | .debMin => Sys2Proof.Machine.execDebMin s
  | .debSync => Sys2Proof.Machine.execDebSync s
  | .inch => Sys2Proof.Machine.execInch s
  | .incm => Sys2Proof.Machine.execIncm s
  | .btnh => Sys2Proof.Machine.execBtnh s
  | .btnm => Sys2Proof.Machine.execBtnm s
  | .sync a b c => Sys2Proof.Machine.execSync a b c s
  | .refresh => Sys2Proof.Machine.execRefresh s

end Sys2Proof.Machine
end

