-- ==== Sys2Proof/Machine/Port.lean ====
section
/-! DEFINITION. The command port (10_state.md R19, 70_reset_and_hazards.md R123): what the next step is. -/

namespace Sys2Proof.Machine

/-- What the next step does. -/
inductive NextAction where
  /-- No command runs: the RTC steps, the block is reset, or nothing happens. -/
  | idleStep (s : State)
  /-- The block runs this command word in state `s`: one it takes now, or the one in progress. -/
  | command (w : Word) (s : State)

/-- The block takes the presented command, if there is one (10_state.md R19, 30_encoding.md R40). -/
def takePresented (s : State) : NextAction :=
  match s.host with
  | [] => .idleStep s
  | c :: rest => .command c.cmd ((s.takeCommand c).setHost rest)

/-- DESIGN CHOICE (log 17): the script says when an idle block takes the presented command (10_state.md R19). At `take` it takes
it, and the events after that one meet the command's transactions, the first one too, which may wait, fail or be reset
(93_implementation_defined.md I13, 70_reset_and_hazards.md R120). An RTC change, a `wait` or a reset at the head happens before
the command is taken. Where the script names neither, because it is empty or its head is a completion, the block takes the
command at once. A command in progress goes on, and a presented one waits (R123). -/
def nextAction (s : State) : NextAction :=
  match s.phase with
  | .exec cmd _ _ _ => .command cmd s
  | .idle =>
    match s.env with
    | .take :: es => takePresented (s.setEnv es)
    | .rtcStep f v :: es => .idleStep ((s.setRtc f v).setEnv es)
    | .wait :: es => .idleStep (s.setEnv es)
    | .rst _ :: es => .idleStep ((s.setEnv es).resetBlock)
    | _ => takePresented s

/-- The environment from its next bus completion on. -/
def skipToBus : List EnvEvent → List EnvEvent
  | .take :: es => skipToBus es
  | .rtcStep _ _ :: es => skipToBus es
  | .wait :: es => skipToBus es
  | .rst _ :: es => skipToBus es
  | es => es

/-- The host presents the word `w` next, with `now` = 0, to an idle block (log 6). -/
def State.presentWord (s : State) (w : Word) : State :=
  ((s.setPhase .idle).setEnv (skipToBus s.env)).setHost (⟨w, 0⟩ :: s.host)

end Sys2Proof.Machine
end

