-- ==== Sys2Proof/Machine/Step.lean ====
section
/-! DEFINITION. One step of the machine (10_state.md R15, 30_encoding.md R40). -/

namespace Sys2Proof.Machine

/-- One step: the environment between commands, or a command's run until it ends or waits for the bus. A word that is no
command raises IllegalCommand and does nothing else (30_encoding.md R39, R40, 60_exceptions.md R103). -/
def step (s : State) : Host.Outcome State Fault Refusal :=
  match nextAction s with
  | .idleStep t => .next t
  | .command w t =>
    match decodeCmd w with
    | .ok i => exec i t
    | .error _ => raise .illegalCommand t

/-- `s` with the command whose word is the `nbits` low bits of `w` presented to the block, so that the next step takes and runs
it. Commands come from the command port and never from a memory (20_memory.md R33, log 6). -/
def State.withFetchWord (s : State) (nbits w : Nat) : State := s.presentWord (BitVec.ofNat 32 (w % 2 ^ nbits))

end Sys2Proof.Machine
end

