-- ==== Sys2Proof/Safety.lean ====
section
/-! DEFINITION. The terms claims use: what the environment does during a command, what a fault-free run is (60_exceptions.md
R106), the bus request that is due at each point of a command (70_reset_and_hazards.md R129), and the invariant of the machine. -/

namespace Sys2Proof.Machine

/-! ### The environment -/

/-- The next `n` transactions complete at once without error and no RTC step or reset falls between them: either the script
says so, or it is empty (log 4). -/
def quietFor : Nat → List EnvEvent → Bool
  | 0, _ => true
  | _ + 1, [] => true
  | n + 1, .busDone :: es => quietFor n es
  | _ + 1, _ => false

/-- The RTC agent changes the register `f` nowhere in the script (20_memory.md R24). -/
def noRtcStepOf (f : Field) (env : List EnvEvent) : Bool :=
  env.all fun e => match e with
    | .rtcStep g _ => g != f
    | _ => true

/-- The RTC agent changes no register in the script: the premise "no RTC step happens during the command" (20_memory.md R24). -/
def noRtcStep (env : List EnvEvent) : Bool :=
  env.all fun e => match e with
    | .rtcStep _ _ => false
    | _ => true

/-- The script holds no reset. -/
def noReset (env : List EnvEvent) : Bool :=
  env.all fun e => match e with
    | .rst _ => false
    | _ => true

/-- The RTC agent's changes, in order (20_memory.md R24). -/
def State.rtcSteps (s : State) : List (Field × Byte) → State
  | [] => s
  | x :: xs => (s.setRtc x.1 x.2).rtcSteps xs

/-- The script in which the RTC agent makes the given changes, in order. -/
def stepEvents (xs : List (Field × Byte)) : List EnvEvent := xs.map fun x => .rtcStep x.1 x.2

/-- The environment lets an idle block take a command now: no RTC step, no pause and no reset comes first (log 17). -/
def takesCommand : List EnvEvent → Bool
  | .rtcStep _ _ :: _ => false
  | .wait :: _ => false
  | .rst _ :: _ => false
  | _ => true

/-- The script that is left when an idle block has taken a command (log 17). -/
def afterTake : List EnvEvent → List EnvEvent
  | .take :: es => es
  | es => es

/-- The block has just taken a command with timestamp `now`: `phase` = `EXEC(cmd, now, 0)` and nothing of it has run
(30_encoding.md R40). -/
abbrev State.JustTaken (s : State) (now : Timestamp) : Prop := ∃ cmd, s.phase = .exec cmd now [] none

/-- `status[2:0]` = 0: the run so far raised no error (60_exceptions.md R106). -/
abbrev State.FaultFree (s : State) : Prop := s.status.extractLsb' 0 3 = 0

/-! ### Runs of debounced events -/

/-- Debounces a list of events in order, each with its source and timestamp: the state at the end and the accepted events. -/
def debounceAll : List (Source × Timestamp) → State → State × List (Source × Timestamp)
  | [], s => (s, [])
  | e :: es, s =>
    match debounce e.1 e.2 s with
    | (true, t) => ((debounceAll es t).1, e :: (debounceAll es t).2)
    | (false, t) => debounceAll es t

/-- The host's duty on timestamps (42_debounce.md R61): they never decrease. -/
def monotoneTimes (es : List (Source × Timestamp)) : Prop := es.Pairwise fun x y => x.2.toNat ≤ y.2.toNat

/-! ### Bus transactions -/

/-- The hour `incHour` writes when it reads the byte `ph`, if that byte is in domain (43_adjust.md R70). -/
def nextHourByte (p : Params) (ph : Byte) : Option Byte :=
  if decodeField .hour ph < p.hourWrap.value then
    some (encodeField (if decodeField .hour ph + 1 = p.hourWrap.value then 0 else decodeField .hour ph + 1))
  else none

/-- The request a command's `incHour` makes when its own completed transactions had the bytes `got` (43_adjust.md R70). -/
def dueInHour (p : Params) : List Byte → Option BusReq
  | [] => some (.read p.regHour)
  | [ph] => (nextHourByte p ph).map (.write p.regHour)
  | _ => none

/-- The request `incMinute` makes when its completed transactions had the bytes `got` (43_adjust.md R72). -/
def dueInMinute (p : Params) : List Byte → Option BusReq
  | [] => some (.read p.regMin)
  | pm :: rest =>
    if decodeField .min pm < 59 then
      if rest = [] then some (.write p.regMin (encodeField (decodeField .min pm + 1))) else none
    else if decodeField .min pm = 59 then
      match rest with
      | [ph, _] => (nextHourByte p ph).map fun _ => .write p.regMin 0x00
      | _ => dueInHour p rest
    else none

/-- The request SYNC makes as its transaction number `k` (45_sync.md R85). -/
def dueInSync (p : Params) (a b c : Byte) (k : Nat) : Option BusReq :=
  if 59 < b.toNat ∨ 59 < c.toNat ∨ (p.syncHour12h = false ∧ p.hourWrap.value ≤ a.toNat) then none
  else if k = 0 then some (.write p.regHour (encodeField (if p.syncHour12h then to12Hour a.toNat else a.toNat)))
  else if k = 1 then some (.write p.regMin (encodeField b.toNat))
  else if k = 2 then some (.write p.regSec (syncSecByte p c.toNat))
  else none

/-- The request REFRESH makes as its transaction number `k` (44_clockloop.md R80). -/
def dueInRefresh (p : Params) (k : Nat) : Option BusReq :=
  if k = 0 then some (.read p.regHour)
  else if k = 1 then some (.read p.regMin)
  else if k = 2 then some (.read p.regSec)
  else none

/-- The request a command waits at when its `k` completed transactions had the bytes `got`: the order "Bus transactions, in
order" of its rule (43_adjust.md R71, R73, R74, R75, 44_clockloop.md R80, 45_sync.md R85). None: the command is over, or it
makes no transaction (20_memory.md R26). -/
def dueRequest (p : Params) (i : Instr) (got : List Byte) : Option BusReq :=
  match i with
  | .inch | .btnh => dueInHour p got
  | .incm | .btnm => dueInMinute p got
  | .sync a b c => dueInSync p a b c got.length
  | .refresh => dueInRefresh p got.length
  | .decHour _ | .decMin _ | .decSec _ | .enc _ | .to12 _ | .hled _ | .mled _ | .brt _ | .debHour | .debMin | .debSync => none

/-- The request's address is that of one of the three RTC registers (20_memory.md R26). -/
def BusReq.mapped (r : BusReq) (p : Params) : Bool :=
  match r with
  | .read a => a == p.regHour || a == p.regMin || a == p.regSec
  | .write a _ => a == p.regHour || a == p.regMin || a == p.regSec

/-! ### The invariant -/

/-- Only the addresses of the three RTC registers are listed (20_memory.md R26, R31). -/
def State.rtcMapped (s : State) : Bool :=
  s.rtc.all fun c => c.1 == s.params.regHour.toNat || c.1 == s.params.regMin.toNat || c.1 == s.params.regSec.toNat

/-- A slot that has accepted nothing holds timestamp 0 (10_state.md R20, 42_debounce.md R62). -/
def Slot.ok (x : Slot) : Bool := x.lastValid || x.lastTs == 0

/-- Every slot is ok, and with `DEBOUNCE_SHARED` = true only slot 0 is ever used (10_state.md R13, R14). -/
def State.slotsOk (s : State) : Bool :=
  s.slots.slot0.ok && s.slots.slot1.ok && s.slots.slot2.ok
    && (!s.params.debounceShared || (s.slots.slot1 == Slot.reset && s.slots.slot2 == Slot.reset))

/-- The outputs stay in the ranges their functions have: the hour bank at most 12 (41_display.md R52), the minute bank at most
59 (R54), the duty at most `PWM_MAX` (R56). -/
def State.outputsOk (s : State) : Bool :=
  decide (s.outHour.toNat ≤ 12) && decide (s.outMin.toNat ≤ 59) && decide (s.pwm.toNat ≤ s.params.pwmMax.toNat)

/-- Between steps the block is `IDLE`, or it is in `EXEC` of a legal command and the ports hold the request that is due after
its `k` completed transactions (10_state.md R15, 20_memory.md R22, R23, R25). -/
def State.phaseOk (s : State) : Bool :=
  match s.phase with
  | .idle => true
  | .exec cmd _ got req =>
    match decodeCmd cmd with
    | .ok i => req.isSome && req == dueRequest s.params i got
    | .error _ => false

/-- The invariant of the machine. -/
def State.inv (s : State) : Bool :=
  s.params.wellFormed && s.rtc.wf && s.rtcMapped && s.slotsOk && s.outputsOk && s.phaseOk

end Sys2Proof.Machine
end

