-- ==== Sys2Proof/Certificates/Slice0/Obligations.lean ====
section
/-! DEFINITION. The statements for the provers. Where a statement speaks of a command that runs, the state is one whose command
has just been taken (`State.JustTaken`), and "quiet" means that the transactions it makes complete at once without error and no
RTC step falls between them (`quietFor`). -/

open Sys2Proof Sys2Proof.Machine

/-! ### Encoding -/

/-- 30_encoding.md R35, R37, R40: the word of every command decodes to that command, with every operand. -/
def Obligations.DecodeOfEncodeIsTheCommand : Prop := ∀ i : Instr, i.WellFormed ∧ decodeCmd (encode i) = .ok i

/-- 30_encoding.md R35, R39, R40 (D3): a word that decodes to a command is that command's word: no bit is ignored. -/
def Obligations.DecodedWordIsTheEncoding : Prop := ∀ (w : Word) (i : Instr), decodeCmd w = .ok i → encode i = w

/-- 30_encoding.md R38: a word is a row's command exactly when `w & mask == match`, row by row. The rows are disjoint because
the decoder gives a word one command. -/
def Obligations.CommandExactlyWhenMaskMatches : Prop :=
  ∀ w : Word,
    let a := w.extractLsb' 16 8
    let b := w.extractLsb' 8 8
    let c := w.extractLsb' 0 8
    (decodeCmd w = .ok (.decHour c) ↔ w &&& 0xFFFFFF00 = 0x10000000) ∧
    (decodeCmd w = .ok (.decMin c) ↔ w &&& 0xFFFFFF00 = 0x11000000) ∧
    (decodeCmd w = .ok (.decSec c) ↔ w &&& 0xFFFFFF00 = 0x12000000) ∧
    (decodeCmd w = .ok (.enc c) ↔ w &&& 0xFFFFFF00 = 0x20000000) ∧
    (decodeCmd w = .ok (.to12 c) ↔ w &&& 0xFFFFFF00 = 0x30000000) ∧
    (decodeCmd w = .ok (.hled c) ↔ w &&& 0xFFFFFF00 = 0x40000000) ∧
    (decodeCmd w = .ok (.mled c) ↔ w &&& 0xFFFFFF00 = 0x50000000) ∧
    (decodeCmd w = .ok (.brt c) ↔ w &&& 0xFFFFFF00 = 0x60000000) ∧
    (decodeCmd w = .ok .debHour ↔ w &&& 0xFFFFFFFF = 0x70000000) ∧
    (decodeCmd w = .ok .debMin ↔ w &&& 0xFFFFFFFF = 0x71000000) ∧
    (decodeCmd w = .ok .debSync ↔ w &&& 0xFFFFFFFF = 0x72000000) ∧
    (decodeCmd w = .ok .inch ↔ w &&& 0xFFFFFFFF = 0x80000000) ∧
    (decodeCmd w = .ok .incm ↔ w &&& 0xFFFFFFFF = 0x90000000) ∧
    (decodeCmd w = .ok .btnh ↔ w &&& 0xFFFFFFFF = 0xA0000000) ∧
    (decodeCmd w = .ok .btnm ↔ w &&& 0xFFFFFFFF = 0xB0000000) ∧
    (decodeCmd w = .ok (.sync a b c) ↔ w &&& 0xFF000000 = 0xC0000000) ∧
    (decodeCmd w = .ok .refresh ↔ w &&& 0xFFFFFFFF = 0xD0000000)

/-- 30_encoding.md R35, R39: the illegal words are exactly those the rule lists. -/
def Obligations.IllegalWordsAreTheListedOnes : Prop :=
  ∀ w : Word,
    let op := w.extractLsb' 28 4
    let rsv := w.extractLsb' 26 2
    let sel := w.extractLsb' 24 2
    let a := w.extractLsb' 16 8
    let b := w.extractLsb' 8 8
    let c := w.extractLsb' 0 8
    (∃ e, decodeCmd w = .error e) ↔
      (op = 0x0 ∨ op = 0xE ∨ op = 0xF) ∨ rsv ≠ 0 ∨ ((op = 0x1 ∨ op = 0x7) ∧ sel = 3) ∨
        (op ≠ 0x1 ∧ op ≠ 0x7 ∧ sel ≠ 0) ∨ (op ≠ 0xC ∧ (a ≠ 0 ∨ b ≠ 0)) ∨
        (op ∈ [0x7, 0x8, 0x9, 0xA, 0xB, 0xD] ∧ c ≠ 0)

/-- 30_encoding.md R38: words written out from the table decode to the commands they stand for. 30_encoding.md R39: two words it
lists as illegal are no command; that the decoder names the reasons `opcode` and `selector` is the model's choice (log 13). -/
def Obligations.SampleWordsDecode : Prop :=
  decodeCmd 0x120000D9 = .ok (.decSec 0xD9) ∧ decodeCmd 0x5000002D = .ok (.mled 45) ∧ decodeCmd 0x71000000 = .ok .debMin ∧
    decodeCmd 0xB0000000 = .ok .btnm ∧ decodeCmd 0xC00D2D1E = .ok (.sync 13 45 30) ∧ decodeCmd 0xD0000000 = .ok .refresh ∧
    decodeCmd 0x00000000 = .error .opcode ∧ decodeCmd 0x13000000 = .error .selector

/-! ### Steps -/

/-- A step runs the decoded command. From the spec: an idle block takes the presented command with `phase` = `EXEC(cmd, now, 0)`
and runs that command's pseudocode (30_encoding.md R40, 10_state.md R15, R19). The model's choice: the step is the command's
whole `exec`, where the spec's steps are finer (70_reset_and_hazards.md R129; log 5); when the script lets the block take it
(log 17); and a command that waited goes on in the next step as `exec` of the same command on the waiting state (log 16). -/
def Obligations.StepRunsTheDecodedCommand : Prop :=
  (∀ (s : State) (c : HostCmd) (rest : List HostCmd) (i : Instr),
    s.phase = .idle → s.host = c :: rest → takesCommand s.env = true → decodeCmd c.cmd = .ok i →
      step s = exec i { s with phase := .exec c.cmd c.now [] none, host := rest, env := afterTake s.env }) ∧
  (∀ (s : State) (cmd : Word) (now : Timestamp) (got : List Byte) (req : Option BusReq) (i : Instr),
    s.phase = .exec cmd now got req → decodeCmd cmd = .ok i → step s = exec i s)

/-- The model's command port (log 6): the word of any command, presented by `withFetchWord`, is what the next step runs, with
`now` = 0. -/
def Obligations.PresentedWordRunsNext : Prop :=
  ∀ (s : State) (i : Instr), step (s.withFetchWord 32 (encode i).toNat) =
    exec i { s with phase := .exec (encode i) 0 [] none, env := skipToBus s.env }

/-- 60_exceptions.md R103, 30_encoding.md R39: a word that is no command sets `ILL_ERR`; apart from that the block is idle as
before, and the word has left the port (when the block takes it is the model's script form, log 17). -/
def Obligations.IllegalCommandOnlySetsIllErr : Prop :=
  ∀ (s : State) (c : HostCmd) (rest : List HostCmd) (e : IllegalWord),
    s.phase = .idle → s.host = c :: rest → takesCommand s.env = true → decodeCmd c.cmd = .error e →
      step s = .next { s with flags := { s.flags with illErr := true }, host := rest, env := afterTake s.env }

/-- 20_memory.md R24, 70_reset_and_hazards.md R121, 60_exceptions.md R114, in the model's script form (log 4, log 17): between
commands an RTC step changes its register only, a pause changes nothing, and with nothing presented the block keeps its state. -/
def Obligations.IdleStepsFollowTheEnvironment : Prop :=
  ∀ s : State, s.phase = .idle →
    (∀ f v es, s.env = .rtcStep f v :: es →
      step s = .next { s with rtc := s.rtc.write (s.params.addr f).toNat v, env := es }) ∧
    (∀ es, s.env = .wait :: es → step s = .next { s with env := es }) ∧
    (takesCommand s.env = true → s.host = [] → step s = .next { s with env := afterTake s.env })

/-- 60_exceptions.md R100, R106: nothing stops the machine: every step, of every command and every illegal word, in every
state, answers a next state. -/
def Obligations.EveryStepAnswersANextState : Prop := ∀ s : State, ∃ t, step s = .next t

/-- 70_reset_and_hazards.md R123: while a command is in progress, a presented command waits: the next step takes none. -/
def Obligations.PresentedCommandsWaitWhileBusy : Prop :=
  ∀ s t : State, s.busy = true → step s = .next t → t.host = s.host

/-- 10_state.md R15, R63 of 42_debounce.md (log 16): where a command's transactions had to wait makes no difference. If `i`,
just taken, stops at a `wait` of the script, the step that goes on from there ends as `i` does with that `wait` left out. -/
def Obligations.WaitingDoesNotChangeTheOutcome : Prop :=
  ∀ (s t : State) (i : Instr) (cmd : Word) (now : Timestamp) (before after : List EnvEvent),
    s.phase = .exec cmd now [] none → decodeCmd cmd = .ok i → s.env = before ++ .wait :: after →
      exec i s = .next t → t.busy = true → t.env = after → step t = exec i { s with env := before ++ after }

/-! ### Reset and the invariant -/

/-- 10_state.md R20, 70_reset_and_hazards.md R121: the values after reset, for every block. -/
def Obligations.ResetValues : Prop :=
  ∀ p : Params,
    let s := State.resetWith p
    s.phase = .idle ∧ (∀ n, s.slots.get n = ⟨0, false⟩) ∧ s.outHour = 0 ∧ s.outMin = 0 ∧ s.pwm = 0 ∧ s.result = 0 ∧
      s.status = 0x00 ∧ s.cmdReady = true ∧ (∀ src now, accepts p (s.slotOf src) now = true)

/-- 10_state.md R20, 70_reset_and_hazards.md R120, 93_implementation_defined.md I5: `rst` gives every piece of the block's state its
reset value, whether the block is idle or in the middle of a command, takes no command (`cmd_ready` = 0), and never writes the
RTC: only the register of a write in flight is left with any byte. The model's choice: `rst` is an event of the script that
falls between commands or at a pending transaction (log 10), and the record `busLog` stays through a reset (log 7). -/
def Obligations.RstResetsTheBlock : Prop :=
  ∀ (s : State) (left : Byte) (es : List EnvEvent), s.inv = true → s.env = .rst left :: es →
    s.cmdReady = false ∧
    ∃ t, step s = .next t ∧ t.phase = .idle ∧ t.slots = ⟨⟨0, false⟩, ⟨0, false⟩, ⟨0, false⟩⟩ ∧ t.outHour = 0 ∧ t.outMin = 0 ∧
      t.pwm = 0 ∧ t.result = 0 ∧ t.status = 0x00 ∧ t.params = s.params ∧ t.host = s.host ∧ t.busLog = s.busLog ∧ t.env = es ∧
      (∀ x : Nat, (∀ a d, s.pendingReq = some (.write a d) → x ≠ a.toNat) → t.rtc.read x = s.rtc.read x) ∧
      (∀ a d, s.pendingReq = some (.write a d) → t.rtc.read a.toNat = left)

/-- The invariant `State.inv` holds right after reset, for this block and for every block whose parameters are in range
(00_scope.md R5, 10_state.md R20). That the RTC lists nothing is the model's choice (log 3). -/
def Obligations.InvariantHoldsAtReset : Prop :=
  State.reset.inv = true ∧ ∀ p : Params, p.wellFormed = true → (State.resetWith p).inv = true

/-- Every step keeps `State.inv`: the memory's canonical form over the three RTC addresses, untouched slots at their reset value,
`out_hour` at most 12, `out_min` at most 59, `pwm` at most `PWM_MAX`, and in `EXEC` a legal command whose due request the ports
hold (10_state.md R13, R15, 20_memory.md R25, R26, 41_display.md R52, R54, R56). -/
def Obligations.EveryStepKeepsTheInvariant : Prop := ∀ s t : State, s.inv = true → step s = .next t → t.inv = true

/-- 00_scope.md R5: the parameters are never changed, by a command or by anything else. -/
def Obligations.ParametersNeverChange : Prop := ∀ s t : State, step s = .next t → t.params = s.params

/-- 20_memory.md R26: every transaction of every step is at the address of HOUR, MIN or SEC. The transactions are read off the
model's own record `busLog`; that it only grows, also through a reset, is the model's choice (log 7). -/
def Obligations.OnlyTheThreeRegistersAreAddressed : Prop :=
  ∀ s t : State, step s = .next t → ∃ txns, t.busLog = s.busLog ++ txns ∧ ∀ x ∈ txns, x.req.mapped s.params = true

/-! ### Status, outputs, result -/

/-- 10_state.md R16, R17, R19, 20_memory.md R22, R23, 70_reset_and_hazards.md R120: the ports as views of the registers. `cmd_ready`
is 1 exactly when the block is `IDLE` and `rst` is not the environment's next event. The bus ports show the held request, a read
with `bus_we` = 0 and its address, a write with `bus_we` = 1, its address and its byte; `bus_req` is 0 without one. In every state
that the invariant allows, `bus_req` is 1 exactly while a command is in progress, the request is the one its pseudocode has come
to (`dueRequest`), and the ports hold it through every step in which no transaction completes. Between steps the block is in
`EXEC` only at a pending transaction, which is the model's step size (log 5). -/
def Obligations.PortsShowTheRegisters : Prop :=
  ∀ s : State,
    (s.status.getLsbD 0 = s.flags.domErr ∧ s.status.getLsbD 1 = s.flags.busErr ∧ s.status.getLsbD 2 = s.flags.illErr ∧
      s.status.getLsbD 3 = s.flags.acc ∧ s.status.getLsbD 4 = s.busy ∧ s.status.extractLsb' 5 3 = 0) ∧
    (s.busy = false ↔ s.phase = .idle) ∧
    (s.ledHour 0 = s.outHour.getLsbD 3 ∧ s.ledHour 1 = s.outHour.getLsbD 2 ∧ s.ledHour 2 = s.outHour.getLsbD 1 ∧
      s.ledHour 3 = s.outHour.getLsbD 0) ∧
    (s.ledMin 0 = s.outMin.getLsbD 5 ∧ s.ledMin 1 = s.outMin.getLsbD 4 ∧ s.ledMin 2 = s.outMin.getLsbD 3 ∧
      s.ledMin 3 = s.outMin.getLsbD 2 ∧ s.ledMin 4 = s.outMin.getLsbD 1 ∧ s.ledMin 5 = s.outMin.getLsbD 0) ∧
    (s.cmdReady = true ↔ s.phase = .idle ∧ ∀ left es, s.env ≠ .rst left :: es) ∧
    (∀ a, s.pendingReq = some (.read a) → s.busReq = true ∧ s.busWe = some false ∧ s.busAddr = some a) ∧
    (∀ a d, s.pendingReq = some (.write a d) →
      s.busReq = true ∧ s.busWe = some true ∧ s.busAddr = some a ∧ s.busWdata = some d) ∧
    (s.pendingReq = none → s.busReq = false) ∧
    (s.inv = true →
      s.busReq = s.busy ∧
      (∀ cmd now got req i, s.phase = .exec cmd now got req → decodeCmd cmd = .ok i →
        s.pendingReq = dueRequest s.params i got) ∧
      (∀ t, s.busy = true → step s = .next t → t.busy = true → t.txnCount = s.txnCount →
        t.busReq = true ∧ t.busWe = s.busWe ∧ t.busAddr = s.busAddr ∧ t.busWdata = s.busWdata))

/-- 10_state.md R17, 60_exceptions.md R106: without a reset, a sticky bit that is set stays set in every step. -/
def Obligations.StickyErrorsAccumulate : Prop :=
  ∀ s t : State, noReset s.env = true → step s = .next t →
    (s.flags.domErr = true → t.flags.domErr = true) ∧ (s.flags.busErr = true → t.flags.busErr = true) ∧
      (s.flags.illErr = true → t.flags.illErr = true)

/-- 10_state.md R16: only REFRESH writes the output registers; every other command keeps them, unless reset comes. -/
def Obligations.OnlyRefreshWritesOutputs : Prop :=
  ∀ (i : Instr) (s t : State), i ≠ .refresh → noReset s.env = true → exec i s = .next t →
    t.outHour = s.outHour ∧ t.outMin = s.outMin ∧ t.pwm = s.pwm

/-- 10_state.md R18: INCH, INCM, BTNH, BTNM, SYNC and REFRESH leave `result` unchanged, and so does an ENC, MLED or BRT that
raises, unless reset comes. -/
def Obligations.ResultKeptByOtherCommands : Prop :=
  (∀ i ∈ [Instr.inch, .incm, .btnh, .btnm, .refresh], ∀ s t : State, noReset s.env = true → exec i s = .next t →
    t.result = s.result) ∧
  (∀ (a b c : Byte) (s t : State), noReset s.env = true → exec (.sync a b c) s = .next t → t.result = s.result) ∧
  (∀ c : Byte, 59 < c.toNat → ∀ i ∈ [Instr.enc c, .mled c, .brt c], ∀ s t : State, exec i s = .next t → t.result = s.result)

/-- 20_memory.md R26, 60_exceptions.md R100: the commands that make no transaction change `result`, `phase` and `DOM_ERR`, and
DEB `ACC` and the slot of its source; everything else stays, the environment's script too. -/
def Obligations.PureCommandFrame : Prop :=
  (∀ c : Byte, ∀ i ∈ [Instr.decHour c, .decMin c, .decSec c, .enc c, .to12 c, .hled c, .mled c, .brt c], ∀ s t : State,
    exec i s = .next t →
      t.params = s.params ∧ t.phase = .idle ∧ t.slots = s.slots ∧ t.outHour = s.outHour ∧ t.outMin = s.outMin ∧
      t.pwm = s.pwm ∧ t.flags.busErr = s.flags.busErr ∧ t.flags.illErr = s.flags.illErr ∧ t.flags.acc = s.flags.acc ∧
      (∀ x, t.rtc.read x = s.rtc.read x) ∧ t.busLog = s.busLog ∧ t.host = s.host ∧ t.env = s.env) ∧
  (∀ x ∈ [(Instr.debHour, Source.hourButton), (.debMin, .minuteButton), (.debSync, .sync)], ∀ s t : State,
    exec x.1 s = .next t →
      t.params = s.params ∧ t.phase = .idle ∧ (∀ n, n < 3 → n ≠ slotNumber s.params x.2 → t.slots.get n = s.slots.get n) ∧
      t.outHour = s.outHour ∧ t.outMin = s.outMin ∧ t.pwm = s.pwm ∧ t.flags.domErr = s.flags.domErr ∧
      t.flags.busErr = s.flags.busErr ∧ t.flags.illErr = s.flags.illErr ∧
      (∀ a, t.rtc.read a = s.rtc.read a) ∧ t.busLog = s.busLog ∧ t.host = s.host ∧ t.env = s.env)

/-! ### CodecBCD -/

/-- 40_codec.md R46, R43: DEC writes tens times 10 plus ones, with a 2-bit tens digit for HOUR and a 3-bit one for MIN and SEC,
and ends; every packed byte decodes. -/
def Obligations.DecWritesTheDecodedField : Prop :=
  ∀ (c : Byte) (s : State),
    exec (.decHour c) s = .next { s with result := BitVec.ofNat 16 (c.toNat / 16 % 4 * 10 + c.toNat % 16), phase := .idle } ∧
    exec (.decMin c) s = .next { s with result := BitVec.ofNat 16 (c.toNat / 16 % 8 * 10 + c.toNat % 16), phase := .idle } ∧
    exec (.decSec c) s = .next { s with result := BitVec.ofNat 16 (c.toNat % 128 / 16 * 10 + c.toNat % 16), phase := .idle }

/-- 40_codec.md R47, R45: ENC writes the packed byte of a value up to 59; above, it raises DomainError and keeps `result`. -/
def Obligations.EncPacksOrRaises : Prop :=
  ∀ (c : Byte) (s : State),
    (c.toNat ≤ 59 → exec (.enc c) s =
      .next { s with result := BitVec.ofNat 16 (c.toNat / 10 * 16 + c.toNat % 10), phase := .idle }) ∧
    (59 < c.toNat → exec (.enc c) s = .next { s with flags := { s.flags with domErr := true }, phase := .idle })

/-- 40_codec.md R45: encodeField packs tens and ones; bit 7 is always 0, and bits 7:6 are for every hour value. -/
def Obligations.EncodeFieldPacksTensAndOnes : Prop :=
  ∀ v : Nat, v ≤ 59 →
    (encodeField v).toNat / 16 = v / 10 ∧ (encodeField v).toNat % 16 = v % 10 ∧ (encodeField v).getLsbD 7 = false ∧
      (v ≤ 24 → (encodeField v).extractLsb' 6 2 = 0)

/-- 40_codec.md R48: the round trip, and that its converse holds only for canonical bytes in domain. -/
def Obligations.PackedRoundTrip : Prop :=
  (∀ w : HourWrap, ∀ v : Nat, v < w.value → decodeField .hour (encodeField v) = v) ∧
  (∀ v : Nat, v ≤ 59 → decodeField .min (encodeField v) = v ∧ decodeField .sec (encodeField v) = v) ∧
  (∀ p : Byte, decodeField .hour p ≤ 24 →
    (encodeField (decodeField .hour p) = p ↔ p.toNat % 16 ≤ 9 ∧ p.toNat / 64 = 0)) ∧
  (∀ p : Byte, decodeField .min p ≤ 59 →
    (encodeField (decodeField .min p) = p ↔ p.toNat % 16 ≤ 9 ∧ p.toNat / 128 = 0)) ∧
  (∀ p : Byte, decodeField .sec p ≤ 59 →
    (encodeField (decodeField .sec p) = p ↔ p.toNat % 16 ≤ 9 ∧ p.toNat / 128 = 0))

/-- 40_codec.md R49: MIN and SEC decode every byte alike. -/
def Obligations.MinAndSecDecodeAlike : Prop := ∀ p : Byte, decodeField .min p = decodeField .sec p

/-- 40_codec.md R44: the ranges of decodeField, and that a value out of domain comes only from a malformed byte. -/
def Obligations.DecodedRangeAndDomain : Prop :=
  ∀ p : Byte,
    decodeField .hour p ≤ 45 ∧ decodeField .min p ≤ 85 ∧ decodeField .sec p ≤ 85 ∧
    (23 < decodeField .hour p → 9 < p.toNat % 16 ∨ p.toNat / 16 % 4 = 3 ∨ (p.toNat / 16 % 4 = 2 ∧ 4 ≤ p.toNat % 16)) ∧
    (59 < decodeField .min p → 9 < p.toNat % 16 ∨ 6 ≤ p.toNat / 16 % 8) ∧
    (59 < decodeField .sec p → 9 < p.toNat % 16 ∨ 6 ≤ p.toNat / 16 % 8)

/-! ### DisplayMapper -/

/-- 41_display.md R50 to R53: TO12 and HLED write the 12-hour value: 0 from 24 on, 12 less above 12, the hour itself otherwise. -/
def Obligations.HourCommandsWriteTwelveHourValue : Prop :=
  ∀ (c : Byte) (s : State), ∀ i ∈ [Instr.to12 c, .hled c], exec i s = .next { s with
    result := if 24 ≤ c.toNat then 0 else if 12 < c.toNat then c.setWidth 16 - 12 else c.setWidth 16, phase := .idle }

/-- 41_display.md R54, R55: MLED writes a minute up to 59 as it is; above, it raises DomainError and keeps `result`. -/
def Obligations.MledWritesMinuteOrRaises : Prop :=
  ∀ (c : Byte) (s : State),
    (c.toNat ≤ 59 → exec (.mled c) s = .next { s with result := c.setWidth 16, phase := .idle }) ∧
    (59 < c.toNat → exec (.mled c) s = .next { s with flags := { s.flags with domErr := true }, phase := .idle })

/-- 41_display.md R56, R57: BRT writes the duty of a second up to 59, for every `PWM_MAX`; above, it raises DomainError and
keeps `result`. -/
def Obligations.BrtWritesDutyOrRaises : Prop :=
  ∀ (c : Byte) (s : State),
    (c.toNat ≤ 59 → exec (.brt c) s = .next { s with
      result := BitVec.ofNat 16 ((2 * c.toNat * s.params.pwmMax.toNat + 59) / 118), phase := .idle }) ∧
    (59 < c.toNat → exec (.brt c) s = .next { s with flags := { s.flags with domErr := true }, phase := .idle })

/-- 41_display.md R56: brightness is the integer nearest to `s * PWM_MAX / 59`, it is never halfway between two, and it is at most
`PWM_MAX`. -/
def Obligations.BrightnessIsTheRoundedQuotient : Prop :=
  ∀ (p : Params) (v : Nat), v ≤ 59 →
    let b := (brightness p v).toNat
    b = (2 * v * p.pwmMax.toNat + 59) / 118 ∧ 2 * (59 * b) < 2 * (v * p.pwmMax.toNat) + 59 ∧
      2 * (v * p.pwmMax.toNat) < 2 * (59 * b) + 59 ∧ b ≤ p.pwmMax.toNat

/-- 41_display.md R58: the laws of brightness. -/
def Obligations.BrightnessLaws : Prop :=
  ∀ p : Params,
    (brightness p 0).toNat = 0 ∧ brightness p 59 = p.pwmMax ∧
    (∀ v, v ≤ 58 → (brightness p v).toNat ≤ (brightness p (v + 1)).toNat) ∧
    (59 ≤ p.pwmMax.toNat → ∀ v, v ≤ 58 → (brightness p v).toNat < (brightness p (v + 1)).toNat)

/-! ### Debouncer -/

/-- 42_debounce.md R60, for this block (`DEBOUNCE_MS` = 200) and for every block: an event is accepted exactly when its slot has
accepted nothing since reset or the 32-bit modular difference from the last accepted event is strictly greater than
`DEBOUNCE_MS`. That `last_valid` = 0 means "nothing accepted since reset" is `RstResetsTheBlock` and the record of an
accepted event, `DebJudgesAndRecords`. -/
def Obligations.EventAcceptedExactlyWhen : Prop :=
  Config.params.debounceMs = 200 ∧
  ∀ (src : Source) (now : Timestamp) (s : State),
    let n := if s.params.debounceShared then 0 else match src with
      | .hourButton => 0
      | .minuteButton => 1
      | .sync => 2
    (debounce src now s).1 = true ↔
      (s.slots.get n).lastValid = false ∨ s.params.debounceMs < (now.toNat + 2 ^ 32 - (s.slots.get n).lastTs.toNat) % 2 ^ 32

/-- 42_debounce.md R60, R62, R64: DEB of each source accepts exactly when its slot is empty or the modular difference exceeds
`DEBOUNCE_MS`; then it records the event in the slot and writes 1 to `result` and `ACC`; otherwise it writes 0 to both and
nothing else. -/
def Obligations.DebJudgesAndRecords : Prop :=
  ∀ x ∈ [(Instr.debHour, Source.hourButton, 0), (.debMin, .minuteButton, 1), (.debSync, .sync, 2)],
    ∀ (s : State) (now : Timestamp), s.JustTaken now →
      let n := if s.params.debounceShared then 0 else x.2.2
      let slot := s.slots.get n
      let far := s.params.debounceMs < (now - slot.lastTs).toNat
      slotNumber s.params x.2.1 = n ∧
      (slot.lastValid = false ∨ far → exec x.1 s = .next { s with
        slots := s.slots.put n ⟨now, true⟩, flags := { s.flags with acc := true }, result := 1, phase := .idle }) ∧
      (slot.lastValid = true ∧ ¬ far → exec x.1 s = .next { s with
        flags := { s.flags with acc := false }, result := 0, phase := .idle })

/-- 42_debounce.md R65 (c): of events whose timestamps never decrease, any two accepted ones of one slot are more than
`DEBOUNCE_MS` apart, from every state. -/
def Obligations.AcceptedEventsAreSpaced : Prop :=
  ∀ (es : List (Source × Timestamp)) (s : State), monotoneTimes es →
    (debounceAll es s).2.Pairwise fun x y => slotNumber s.params x.1 = slotNumber s.params y.1 →
      x.2.toNat + s.params.debounceMs < y.2.toNat

/-- 42_debounce.md R65 (a): a dropped event changes no slot, so it never extends the window: every later verdict is as if it
had not come. -/
def Obligations.DroppedEventExtendsNoWindow : Prop :=
  ∀ (src : Source) (now : Timestamp) (es : List (Source × Timestamp)) (s : State), (debounce src now s).1 = false →
    (debounceAll ((src, now) :: es) s).2 = (debounceAll es s).2

/-- 42_debounce.md R65 (b), 10_state.md R14: with a shared slot an accepted event of any source closes the window for every
source; with a slot per source it changes no other source's slot or verdict. -/
def Obligations.SharedSlotClosesEveryWindow : Prop :=
  ∀ (src other : Source) (now later : Timestamp) (s t : State), debounce src now s = (true, t) →
    (s.params.debounceShared = true → (later - now).toNat ≤ s.params.debounceMs → (debounce other later t).1 = false) ∧
    (s.params.debounceShared = false → other ≠ src →
      t.slotOf other = s.slotOf other ∧ (debounce other later t).1 = (debounce other later s).1)

/-- 42_debounce.md R65 (d), 10_state.md R13: when no slot holds a later timestamp than the event's (the host's duty, R61), no
`last_ts` decreases. -/
def Obligations.LastTimestampNeverDecreases : Prop :=
  ∀ (src : Source) (now : Timestamp) (s : State), (∀ n, (s.slots.get n).lastTs.toNat ≤ now.toNat) →
    ∀ n, n < 3 → (s.slots.get n).lastTs.toNat ≤ ((debounce src now s).2.slots.get n).lastTs.toNat ∧
      ((debounce src now s).2.slots.get n).lastTs.toNat ≤ now.toNat

/-! ### TimeAdjuster -/

/-- 43_adjust.md R70, R71 (quiet): INCH on an hour in domain reads HOUR, writes the next hour, wrapping to 0 at `HOUR_WRAP`, and
ends; on any other it raises DomainError after the read and writes nothing. -/
def Obligations.InchIncrementsTheHour : Prop :=
  ∀ (s : State) (now : Timestamp), s.JustTaken now →
    let h := decodeField .hour (s.rtcByte .hour)
    let next := encodeField (if h + 1 = s.params.hourWrap.value then 0 else h + 1)
    (h < s.params.hourWrap.value → quietFor 2 s.env = true → exec .inch s = .next { s with
      rtc := s.rtc.write s.params.regHour.toNat next, env := s.env.drop 2, phase := .idle,
      busLog := s.busLog ++ [⟨.read s.params.regHour, false⟩, ⟨.write s.params.regHour next, false⟩] }) ∧
    (s.params.hourWrap.value ≤ h → quietFor 1 s.env = true → exec .inch s = .next { s with
      flags := { s.flags with domErr := true }, env := s.env.drop 1, phase := .idle,
      busLog := s.busLog ++ [⟨.read s.params.regHour, false⟩] })

/-- 43_adjust.md R72, R73 (quiet): INCM on a minute below 59 reads and writes MIN and touches HOUR not at all; on a minute above
59 it raises DomainError after the read and writes nothing. -/
def Obligations.IncmWithoutCarry : Prop :=
  ∀ (s : State) (now : Timestamp), s.JustTaken now →
    let m := decodeField .min (s.rtcByte .min)
    (m < 59 → quietFor 2 s.env = true → exec .incm s = .next { s with
      rtc := s.rtc.write s.params.regMin.toNat (encodeField (m + 1)), env := s.env.drop 2, phase := .idle,
      busLog := s.busLog ++ [⟨.read s.params.regMin, false⟩, ⟨.write s.params.regMin (encodeField (m + 1)), false⟩] }) ∧
    (59 < m → quietFor 1 s.env = true → exec .incm s = .next { s with
      flags := { s.flags with domErr := true }, env := s.env.drop 1, phase := .idle,
      busLog := s.busLog ++ [⟨.read s.params.regMin, false⟩] })

/-- 43_adjust.md R72, R73, R76 (a) (quiet): INCM on minute 59 increments the hour exactly once, in the order read MIN, read HOUR,
write HOUR, write MIN; with the hour out of domain it raises DomainError in the carry and writes neither register. -/
def Obligations.IncmCarriesIntoTheHour : Prop :=
  ∀ (s : State) (now : Timestamp), s.JustTaken now → decodeField .min (s.rtcByte .min) = 59 →
    let h := decodeField .hour (s.rtcByte .hour)
    let next := encodeField (if h + 1 = s.params.hourWrap.value then 0 else h + 1)
    (h < s.params.hourWrap.value → quietFor 4 s.env = true → exec .incm s = .next { s with
      rtc := (s.rtc.write s.params.regHour.toNat next).write s.params.regMin.toNat 0x00, env := s.env.drop 4, phase := .idle,
      busLog := s.busLog ++ [⟨.read s.params.regMin, false⟩, ⟨.read s.params.regHour, false⟩,
        ⟨.write s.params.regHour next, false⟩, ⟨.write s.params.regMin 0x00, false⟩] }) ∧
    (s.params.hourWrap.value ≤ h → quietFor 2 s.env = true → exec .incm s = .next { s with
      flags := { s.flags with domErr := true }, env := s.env.drop 2, phase := .idle,
      busLog := s.busLog ++ [⟨.read s.params.regMin, false⟩, ⟨.read s.params.regHour, false⟩] })

/-- 43_adjust.md R74 (quiet): BTNH whose event is accepted records it and increments the hour; if the hour is out of domain it
raises DomainError and the window is closed all the same; a dropped event does nothing but `ACC` <- 0. -/
def Obligations.BtnhIncrementsWhenAccepted : Prop :=
  ∀ (s : State) (now : Timestamp), s.JustTaken now →
    let n := slotNumber s.params .hourButton
    let h := decodeField .hour (s.rtcByte .hour)
    let next := encodeField (if h + 1 = s.params.hourWrap.value then 0 else h + 1)
    (accepts s.params (s.slotOf .hourButton) now = true → h < s.params.hourWrap.value → quietFor 2 s.env = true →
      exec .btnh s = .next { s with
        slots := s.slots.put n ⟨now, true⟩, flags := { s.flags with acc := true },
        rtc := s.rtc.write s.params.regHour.toNat next, env := s.env.drop 2, phase := .idle,
        busLog := s.busLog ++ [⟨.read s.params.regHour, false⟩, ⟨.write s.params.regHour next, false⟩] }) ∧
    (accepts s.params (s.slotOf .hourButton) now = true → s.params.hourWrap.value ≤ h → quietFor 1 s.env = true →
      exec .btnh s = .next { s with
        slots := s.slots.put n ⟨now, true⟩, flags := { s.flags with acc := true, domErr := true }, env := s.env.drop 1,
        phase := .idle, busLog := s.busLog ++ [⟨.read s.params.regHour, false⟩] }) ∧
    (accepts s.params (s.slotOf .hourButton) now = false →
      exec .btnh s = .next { s with flags := { s.flags with acc := false }, phase := .idle })

/-- 43_adjust.md R73, R75, 60_exceptions.md R105 (quiet): BTNM whose event is accepted records it and increments the minute, with
the carry at 59. With the minute out of domain, or the hour in the carry, it raises DomainError and writes neither register, and
the window is closed all the same. A dropped event does nothing but `ACC` <- 0. -/
def Obligations.BtnmIncrementsWhenAccepted : Prop :=
  ∀ (s : State) (now : Timestamp), s.JustTaken now →
    let n := slotNumber s.params .minuteButton
    let m := decodeField .min (s.rtcByte .min)
    let h := decodeField .hour (s.rtcByte .hour)
    let next := encodeField (if h + 1 = s.params.hourWrap.value then 0 else h + 1)
    (accepts s.params (s.slotOf .minuteButton) now = true → m < 59 → quietFor 2 s.env = true →
      exec .btnm s = .next { s with
        slots := s.slots.put n ⟨now, true⟩, flags := { s.flags with acc := true },
        rtc := s.rtc.write s.params.regMin.toNat (encodeField (m + 1)), env := s.env.drop 2, phase := .idle,
        busLog := s.busLog ++ [⟨.read s.params.regMin, false⟩, ⟨.write s.params.regMin (encodeField (m + 1)), false⟩] }) ∧
    (accepts s.params (s.slotOf .minuteButton) now = true → m = 59 → h < s.params.hourWrap.value → quietFor 4 s.env = true →
      exec .btnm s = .next { s with
        slots := s.slots.put n ⟨now, true⟩, flags := { s.flags with acc := true },
        rtc := (s.rtc.write s.params.regHour.toNat next).write s.params.regMin.toNat 0x00, env := s.env.drop 4, phase := .idle,
        busLog := s.busLog ++ [⟨.read s.params.regMin, false⟩, ⟨.read s.params.regHour, false⟩,
          ⟨.write s.params.regHour next, false⟩, ⟨.write s.params.regMin 0x00, false⟩] }) ∧
    (accepts s.params (s.slotOf .minuteButton) now = true → m = 59 → s.params.hourWrap.value ≤ h → quietFor 2 s.env = true →
      exec .btnm s = .next { s with
        slots := s.slots.put n ⟨now, true⟩, flags := { s.flags with acc := true, domErr := true }, env := s.env.drop 2,
        phase := .idle, busLog := s.busLog ++ [⟨.read s.params.regMin, false⟩, ⟨.read s.params.regHour, false⟩] }) ∧
    (accepts s.params (s.slotOf .minuteButton) now = true → 59 < m → quietFor 1 s.env = true →
      exec .btnm s = .next { s with
        slots := s.slots.put n ⟨now, true⟩, flags := { s.flags with acc := true, domErr := true }, env := s.env.drop 1,
        phase := .idle, busLog := s.busLog ++ [⟨.read s.params.regMin, false⟩] }) ∧
    (accepts s.params (s.slotOf .minuteButton) now = false →
      exec .btnm s = .next { s with flags := { s.flags with acc := false }, phase := .idle })

/-- The frame of the adjusting commands, whatever the bus does short of a reset, with a still RTC (43_adjust.md R71 to R76,
45_sync.md R87): INCH and BTNH store at most to HOUR, INCM and BTNM at most to MIN and HOUR, and to MIN alone when the minute
read is not 59. The slots and `ACC` change only for BTNH and BTNM, and of the slots only the one of their source. -/
def Obligations.AdjustFrame : Prop :=
  ∀ i ∈ [Instr.inch, .incm, .btnh, .btnm], ∀ (s t : State) (now : Timestamp), s.JustTaken now → noReset s.env = true →
    noRtcStep s.env = true → exec i s = .next t →
      t.params = s.params ∧ t.outHour = s.outHour ∧ t.outMin = s.outMin ∧ t.pwm = s.pwm ∧ t.result = s.result ∧
      t.flags.illErr = s.flags.illErr ∧ t.host = s.host ∧
      (i = .inch ∨ i = .incm → t.slots = s.slots ∧ t.flags.acc = s.flags.acc) ∧
      (i = .btnh → ∀ n, n < 3 → n ≠ slotNumber s.params .hourButton → t.slots.get n = s.slots.get n) ∧
      (i = .btnm → ∀ n, n < 3 → n ≠ slotNumber s.params .minuteButton → t.slots.get n = s.slots.get n) ∧
      (i = .inch ∨ i = .btnh → ∀ x, x ≠ s.params.regHour.toNat → t.rtc.read x = s.rtc.read x) ∧
      (i = .incm ∨ i = .btnm → ∀ x, x ≠ s.params.regMin.toNat →
        (x ≠ s.params.regHour.toNat ∨ decodeField .min (s.rtcByte .min) ≠ 59) → t.rtc.read x = s.rtc.read x)

/-- 43_adjust.md R71, R73, R74, R75, 20_memory.md R22, R23, 60_exceptions.md R102, R105: every bus failure of the four adjusting
commands. A failed read raises BusError with nothing more written; a failed write leaves any byte in its register; what was
written before stays, and no later transaction is issued. For BTNH and BTNM the accepted event stays recorded, so the window
stays closed. `slots` and `acc` are those after the gate: INCH and INCM have none. -/
def Obligations.AdjustBusFailure : Prop :=
  ∀ (s : State) (now : Timestamp) (left : Byte) (es : List EnvEvent) (slots : Slots) (acc : Bool), s.JustTaken now →
    let m := decodeField .min (s.rtcByte .min)
    let h := decodeField .hour (s.rtcByte .hour)
    let next := encodeField (if h + 1 = s.params.hourWrap.value then 0 else h + 1)
    let hour := s.params.regHour
    let min := s.params.regMin
    let failed (rtc : Memory) (txns : List BusTxn) : State := { s with
      slots := slots, flags := { s.flags with acc := acc, busErr := true }, rtc := rtc, env := es, phase := .idle,
      busLog := s.busLog ++ txns }
    (∀ i : Instr, (i = .inch ∧ slots = s.slots ∧ acc = s.flags.acc) ∨
        (i = .btnh ∧ accepts s.params (s.slotOf .hourButton) now = true ∧
          slots = s.slots.put (slotNumber s.params .hourButton) ⟨now, true⟩ ∧ acc = true) →
      (s.env = .busErr left :: es → exec i s = .next (failed s.rtc [⟨.read hour, true⟩])) ∧
      (h < s.params.hourWrap.value → s.env = .busDone :: .busErr left :: es →
        exec i s = .next (failed (s.rtc.write hour.toNat left) [⟨.read hour, false⟩, ⟨.write hour next, true⟩]))) ∧
    (∀ i : Instr, (i = .incm ∧ slots = s.slots ∧ acc = s.flags.acc) ∨
        (i = .btnm ∧ accepts s.params (s.slotOf .minuteButton) now = true ∧
          slots = s.slots.put (slotNumber s.params .minuteButton) ⟨now, true⟩ ∧ acc = true) →
      (s.env = .busErr left :: es → exec i s = .next (failed s.rtc [⟨.read min, true⟩])) ∧
      (m < 59 → s.env = .busDone :: .busErr left :: es →
        exec i s = .next (failed (s.rtc.write min.toNat left) [⟨.read min, false⟩, ⟨.write min (encodeField (m + 1)), true⟩])) ∧
      (m = 59 → s.env = .busDone :: .busErr left :: es →
        exec i s = .next (failed s.rtc [⟨.read min, false⟩, ⟨.read hour, true⟩])) ∧
      (m = 59 → h < s.params.hourWrap.value → s.env = .busDone :: .busDone :: .busErr left :: es →
        exec i s = .next (failed (s.rtc.write hour.toNat left)
          [⟨.read min, false⟩, ⟨.read hour, false⟩, ⟨.write hour next, true⟩])) ∧
      (m = 59 → h < s.params.hourWrap.value → s.env = .busDone :: .busDone :: .busDone :: .busErr left :: es →
        exec i s = .next (failed ((s.rtc.write hour.toNat next).write min.toNat left)
          [⟨.read min, false⟩, ⟨.read hour, false⟩, ⟨.write hour next, false⟩, ⟨.write min 0x00, true⟩])))

/-- 70_reset_and_hazards.md R124, 20_memory.md R24: whatever the RTC does before each read and between a read and the write of the
same register, INCH, INCM with and without a carry, and BTNH and BTNM with an accepted event leave in the register the increment
of the byte that was read; the RTC's changes in between are overwritten. In a carry the hour stays what was written unless the
RTC changes it before MIN is written. -/
def Obligations.UpdateOverwritesRtcChanges : Prop :=
  ∀ (s : State) (now : Timestamp) (xs ys : List (Field × Byte)) (env : List EnvEvent), s.rtc.wf = true → s.JustTaken now →
    s.env = stepEvents xs ++ .busDone :: (stepEvents ys ++ .busDone :: env) →
      let wrap := s.params.hourWrap.value
      let after (h : Nat) := if h + 1 = wrap then 0 else h + 1
      let h := decodeField .hour ((s.rtcSteps xs).rtcByte .hour)
      let m := decodeField .min ((s.rtcSteps xs).rtcByte .min)
      let hc := decodeField .hour (((s.rtcSteps xs).rtcSteps ys).rtcByte .hour)
      (∀ i : Instr, i = .inch ∨ (i = .btnh ∧ accepts s.params (s.slotOf .hourButton) now = true) → h < wrap →
        ∃ t, exec i s = .next t ∧ t.phase = .idle ∧ t.env = env ∧
          t.flags = { s.flags with acc := if i = .btnh then true else s.flags.acc } ∧ t.rtcByte .hour = encodeField (after h)) ∧
      (∀ i : Instr, i = .incm ∨ (i = .btnm ∧ accepts s.params (s.slotOf .minuteButton) now = true) →
        (m < 59 → ∃ t, exec i s = .next t ∧ t.phase = .idle ∧ t.env = env ∧
          t.flags = { s.flags with acc := if i = .btnm then true else s.flags.acc } ∧ t.rtcByte .min = encodeField (m + 1)) ∧
        (m = 59 → hc < wrap → ∀ (zs ws : List (Field × Byte)) (es : List EnvEvent),
          env = stepEvents zs ++ .busDone :: (stepEvents ws ++ .busDone :: es) →
            ∃ t, exec i s = .next t ∧ t.phase = .idle ∧ t.env = es ∧
              t.flags = { s.flags with acc := if i = .btnm then true else s.flags.acc } ∧ t.rtcByte .min = 0x00 ∧
              (s.params.wellFormed = true → (∀ w ∈ ws, w.1 ≠ .hour) → t.rtcByte .hour = encodeField (after hc))))

/-- 70_reset_and_hazards.md R125: when INCM with a carry waits before its last write, the RTC holds the new hour with the old
minute 59, the block is busy and the ports hold the write of 0 to MIN; the next quiet step finishes the command. -/
def Obligations.CarryIsVisibleBetweenItsWrites : Prop :=
  ∀ (s : State) (cmd : Word) (now : Timestamp) (es : List EnvEvent), s.params.wellFormed = true → s.rtc.wf = true →
    s.phase = .exec cmd now [] none → decodeCmd cmd = .ok .incm → decodeField .min (s.rtcByte .min) = 59 →
    decodeField .hour (s.rtcByte .hour) < s.params.hourWrap.value →
    s.env = .busDone :: .busDone :: .busDone :: .wait :: es → quietFor 1 es = true →
      let h := decodeField .hour (s.rtcByte .hour)
      let next := encodeField (if h + 1 = s.params.hourWrap.value then 0 else h + 1)
      ∃ t u, exec .incm s = .next t ∧ t.rtcByte .hour = next ∧ t.rtcByte .min = s.rtcByte .min ∧ t.status.getLsbD 4 = true ∧
        t.txnCount = 3 ∧ t.pendingReq = some (.write s.params.regMin 0x00) ∧
        step t = .next u ∧ u.rtcByte .hour = next ∧ u.rtcByte .min = 0x00 ∧ u.status.getLsbD 4 = false ∧ u.flags = s.flags

/-! ### ClockLoop -/

/-- 44_clockloop.md R80 (quiet): REFRESH reads HOUR, MIN and SEC; with minute and second in domain it updates the three outputs
together (an hour out of domain shows as 0); otherwise it raises DomainError and no output changes. -/
def Obligations.RefreshShowsTheTime : Prop :=
  ∀ (s : State) (now : Timestamp), s.JustTaken now → quietFor 3 s.env = true →
    let h := decodeField .hour (s.rtcByte .hour)
    let m := decodeField .min (s.rtcByte .min)
    let v := decodeField .sec (s.rtcByte .sec)
    let log := s.busLog ++ [⟨.read s.params.regHour, false⟩, ⟨.read s.params.regMin, false⟩, ⟨.read s.params.regSec, false⟩]
    (m ≤ 59 ∧ v ≤ 59 → exec .refresh s = .next { s with
      outHour := BitVec.ofNat 4 (if 24 ≤ h then 0 else if 12 < h then h - 12 else h), outMin := BitVec.ofNat 6 m,
      pwm := BitVec.ofNat 16 ((2 * v * s.params.pwmMax.toNat + 59) / 118), env := s.env.drop 3, phase := .idle,
      busLog := log }) ∧
    (59 < m ∨ 59 < v → exec .refresh s = .next { s with
      flags := { s.flags with domErr := true }, env := s.env.drop 3, phase := .idle, busLog := log })

/-- 44_clockloop.md R80, 60_exceptions.md R105: a read of REFRESH that fails raises BusError, whatever the bytes read before it;
no later read is issued and nothing else changes. -/
def Obligations.RefreshBusFailureKeepsOutputs : Prop :=
  ∀ (s : State) (now : Timestamp) (left : Byte) (es : List EnvEvent) (k : Nat), s.JustTaken now → k < 3 →
    s.env = List.replicate k .busDone ++ .busErr left :: es → exec .refresh s = .next { s with
      flags := { s.flags with busErr := true }, env := es, phase := .idle,
      busLog := s.busLog ++
        (([⟨.read s.params.regHour, false⟩, ⟨.read s.params.regMin, false⟩] : List BusTxn).take k ++
          [⟨.read (s.params.addr (if k = 0 then .hour else if k = 1 then .min else .sec)), true⟩]) }

/-- 70_reset_and_hazards.md R126, 20_memory.md R24: with RTC steps between its reads REFRESH shows the bytes as each read found
them, so the time shown may mix two times. -/
def Obligations.RefreshMayTear : Prop :=
  ∀ (s : State) (now : Timestamp) (xs ys zs : List (Field × Byte)) (es : List EnvEvent), s.JustTaken now →
    s.env = stepEvents xs ++ .busDone :: (stepEvents ys ++ .busDone :: (stepEvents zs ++ .busDone :: es)) →
      let s1 := s.rtcSteps xs
      let s2 := s1.rtcSteps ys
      let s3 := s2.rtcSteps zs
      decodeField .min (s2.rtcByte .min) ≤ 59 → decodeField .sec (s3.rtcByte .sec) ≤ 59 →
        ∃ t, exec .refresh s = .next t ∧ t.outHour = hourBank (decodeField .hour (s1.rtcByte .hour)) ∧
          t.outMin = minuteBank (decodeField .min (s2.rtcByte .min)) ∧
          t.pwm = brightness s.params (decodeField .sec (s3.rtcByte .sec)) ∧ t.rtc = s3.rtc ∧ t.flags = s.flags ∧
          t.phase = .idle ∧ t.env = es

/-- 44_clockloop.md R82: the outputs after a REFRESH that completes without error depend only on the three bytes it reads and on
`PWM_MAX`: two blocks that agree on these, and on nothing else, show the same. -/
def Obligations.RefreshDependsOnTheBytesRead : Prop :=
  ∀ (s1 s2 t1 t2 : State) (n1 n2 : Timestamp), s1.JustTaken n1 → s2.JustTaken n2 → quietFor 3 s1.env = true →
    quietFor 3 s2.env = true → (∀ f, s1.rtcByte f = s2.rtcByte f) → s1.params.pwmMax = s2.params.pwmMax →
    exec .refresh s1 = .next t1 → exec .refresh s2 = .next t2 →
    decodeField .min (s1.rtcByte .min) ≤ 59 → decodeField .sec (s1.rtcByte .sec) ≤ 59 →
      t1.outHour = t2.outHour ∧ t1.outMin = t2.outMin ∧ t1.pwm = t2.pwm

/-- The frame of REFRESH, whatever the bus does short of a reset, with a still RTC (44_clockloop.md R80): every byte of the RTC,
the slots, `result`, `ACC` and `ILL_ERR` stay. -/
def Obligations.RefreshFrame : Prop :=
  ∀ (s t : State), noReset s.env = true → noRtcStep s.env = true → exec .refresh s = .next t →
    t.params = s.params ∧ t.slots = s.slots ∧ t.result = s.result ∧ t.flags.acc = s.flags.acc ∧
    t.flags.illErr = s.flags.illErr ∧ t.host = s.host ∧ (∀ x, t.rtc.read x = s.rtc.read x)

/-! ### ExternalSync -/

/-- 45_sync.md R85 (quiet): an accepted SYNC with operands in range writes HOUR, MIN and SEC in that order, the hour through
to12Hour or, with `SYNC_HOUR_12H` = false, as it is, and the seconds with the clock-halt bit `SEC_HALT_WRITE`. -/
def Obligations.SyncWritesTheTime : Prop :=
  ∀ (a b c : Byte) (s : State) (now : Timestamp), s.JustTaken now → quietFor 3 s.env = true →
    accepts s.params (s.slotOf .sync) now = true → b.toNat ≤ 59 → c.toNat ≤ 59 →
    (s.params.syncHour12h = true ∨ a.toNat < s.params.hourWrap.value) →
      let h := a.toNat
      let hv := if s.params.syncHour12h then (if 24 ≤ h then 0 else if 12 < h then h - 12 else h) else h
      let hb := BitVec.ofNat 8 (hv / 10 * 16 + hv % 10)
      let mb := BitVec.ofNat 8 (b.toNat / 10 * 16 + b.toNat % 10)
      let sb := BitVec.ofNat 8 (s.params.secHaltWrite.toNat * 128 + c.toNat / 10 * 16 + c.toNat % 10)
      exec (.sync a b c) s = .next { s with
        slots := s.slots.put (slotNumber s.params .sync) ⟨now, true⟩, flags := { s.flags with acc := true },
        rtc := ((s.rtc.write s.params.regHour.toNat hb).write s.params.regMin.toNat mb).write s.params.regSec.toNat sb,
        env := s.env.drop 3, phase := .idle,
        busLog := s.busLog ++ [⟨.write s.params.regHour hb, false⟩, ⟨.write s.params.regMin mb, false⟩,
          ⟨.write s.params.regSec sb, false⟩] }

/-- 45_sync.md R85: a dropped SYNC does nothing but `ACC` <- 0; an accepted one with an operand out of range raises DomainError
before any write, and its event is recorded all the same. -/
def Obligations.SyncDroppedOrOutOfRange : Prop :=
  ∀ (a b c : Byte) (s : State) (now : Timestamp), s.JustTaken now →
    (accepts s.params (s.slotOf .sync) now = false →
      exec (.sync a b c) s = .next { s with flags := { s.flags with acc := false }, phase := .idle }) ∧
    (accepts s.params (s.slotOf .sync) now = true →
      59 < b.toNat ∨ 59 < c.toNat ∨ (s.params.syncHour12h = false ∧ s.params.hourWrap.value ≤ a.toNat) →
        exec (.sync a b c) s = .next { s with
          slots := s.slots.put (slotNumber s.params .sync) ⟨now, true⟩,
          flags := { s.flags with acc := true, domErr := true }, phase := .idle })

/-- 45_sync.md R85, 20_memory.md R23, 60_exceptions.md R100, R102, R105: an accepted SYNC in range whose write number `k` fails,
after `k` writes that completed at once, raises BusError. The failed register holds any byte, the registers before it stay
written, those after it stay unwritten and their writes are not issued, and the event stays recorded with `ACC` = 1. -/
def Obligations.SyncBusFailure : Prop :=
  ∀ (a b c : Byte) (s : State) (now : Timestamp) (left : Byte) (es : List EnvEvent), s.JustTaken now →
    accepts s.params (s.slotOf .sync) now = true → b.toNat ≤ 59 → c.toNat ≤ 59 →
    (s.params.syncHour12h = true ∨ a.toNat < s.params.hourWrap.value) →
      let h := a.toNat
      let hv := if s.params.syncHour12h then (if 24 ≤ h then 0 else if 12 < h then h - 12 else h) else h
      let hb := BitVec.ofNat 8 (hv / 10 * 16 + hv % 10)
      let mb := BitVec.ofNat 8 (b.toNat / 10 * 16 + b.toNat % 10)
      let sb := BitVec.ofNat 8 (s.params.secHaltWrite.toNat * 128 + c.toNat / 10 * 16 + c.toNat % 10)
      let hour := s.params.regHour
      let min := s.params.regMin
      let sec := s.params.regSec
      let failed (rtc : Memory) (txns : List BusTxn) : State := { s with
        slots := s.slots.put (slotNumber s.params .sync) ⟨now, true⟩, flags := { s.flags with acc := true, busErr := true },
        rtc := rtc, env := es, phase := .idle, busLog := s.busLog ++ txns }
      (s.env = .busErr left :: es →
        exec (.sync a b c) s = .next (failed (s.rtc.write hour.toNat left) [⟨.write hour hb, true⟩])) ∧
      (s.env = .busDone :: .busErr left :: es →
        exec (.sync a b c) s = .next (failed ((s.rtc.write hour.toNat hb).write min.toNat left)
          [⟨.write hour hb, false⟩, ⟨.write min mb, true⟩])) ∧
      (s.env = .busDone :: .busDone :: .busErr left :: es →
        exec (.sync a b c) s = .next (failed (((s.rtc.write hour.toNat hb).write min.toNat mb).write sec.toNat left)
          [⟨.write hour hb, false⟩, ⟨.write min mb, false⟩, ⟨.write sec sb, true⟩]))

/-- The frame of SYNC, whatever the bus does short of a reset, with a still RTC (45_sync.md R85): it stores at most to HOUR, MIN
and SEC, records in the slot of its source only, and keeps `result`, the outputs and `ILL_ERR`. -/
def Obligations.SyncFrame : Prop :=
  ∀ (a b c : Byte) (s t : State), noReset s.env = true → noRtcStep s.env = true → exec (.sync a b c) s = .next t →
    t.params = s.params ∧ (∀ n, n < 3 → n ≠ slotNumber s.params .sync → t.slots.get n = s.slots.get n) ∧
    t.outHour = s.outHour ∧ t.outMin = s.outMin ∧ t.pwm = s.pwm ∧ t.result = s.result ∧
    t.flags.illErr = s.flags.illErr ∧ t.host = s.host ∧
    (∀ x, x ≠ s.params.regHour.toNat → x ≠ s.params.regMin.toNat → x ≠ s.params.regSec.toNat →
      t.rtc.read x = s.rtc.read x)

/-- 45_sync.md R85, R86, 44_clockloop.md R80, 70_reset_and_hazards.md R128: with the 12-hour store, a SYNC and then a REFRESH, both
quiet, show the time source's time: the hour through to12Hour, the minute, and the brightness of the second, whatever the
clock-halt bit. -/
def Obligations.RefreshAfterSyncShowsItsTime : Prop :=
  ∀ (s : State) (a b c : Byte) (n1 n2 : Timestamp) (rest : List HostCmd), s.inv = true → s.phase = .idle → s.env = [] →
    s.host = ⟨encode (.sync a b c), n1⟩ :: ⟨encode .refresh, n2⟩ :: rest → s.params.syncHour12h = true →
    accepts s.params (s.slotOf .sync) n1 = true → b.toNat ≤ 59 → c.toNat ≤ 59 →
      ∃ t u, step s = .next t ∧ step t = .next u ∧ u.outHour = hourBank a.toNat ∧ u.outMin = minuteBank b.toNat ∧
        u.pwm = brightness s.params c.toNat ∧ u.phase = .idle ∧ u.host = rest ∧ u.rtcByte .min = encodeField b.toNat ∧
        u.rtcByte .hour = encodeField (to12Hour a.toNat) ∧ (u.rtcByte .sec).extractLsb' 7 1 = s.params.secHaltWrite

/-- 45_sync.md R87: SYNC is the only command that writes SEC: every other command, whatever the bus does, leaves SEC as it was,
as long as the RTC itself does not change it; and a quiet SYNC that makes its three writes leaves `SEC_HALT_WRITE` in bit 7. -/
def Obligations.OnlySyncWritesSec : Prop :=
  (∀ (i : Instr) (s t : State), s.params.wellFormed = true → (∀ a b c, i ≠ .sync a b c) →
    noRtcStepOf .sec s.env = true → exec i s = .next t → t.rtcByte .sec = s.rtcByte .sec) ∧
  (∀ (a b c : Byte) (s t : State) (now : Timestamp), s.rtc.wf = true → s.JustTaken now → quietFor 3 s.env = true →
    exec (.sync a b c) s = .next t → t.busLog.length = s.busLog.length + 3 →
      (t.rtcByte .sec).extractLsb' 7 1 = s.params.secHaltWrite)
end

