-- ==== Sys2Proof/Laws/Memory.lean ====
section
/-! SUPPORT. The memory: every operation keeps the canonical form; what a read gives after a write. -/

namespace Sys2Proof.Machine

theorem Memory.canonicalFrom_mono {lo hi : Nat} (h : lo ≤ hi) {m : Memory} (hm : Memory.canonicalFrom hi m = true) :
    Memory.canonicalFrom lo m = true := by
  cases m with
  | nil => rfl
  | cons c m =>
    simp [Memory.canonicalFrom] at hm ⊢
    exact ⟨⟨by omega, hm.1.2⟩, hm.2⟩

theorem Memory.canonicalFrom_consCell {lo a : Nat} (v : Byte) (h : lo ≤ a) {m : Memory}
    (hm : Memory.canonicalFrom (a + 1) m = true) : Memory.canonicalFrom lo (Memory.consCell a v m) = true := by
  unfold Memory.consCell
  split
  · exact Memory.canonicalFrom_mono (by omega) hm
  · next hv => simp [Memory.canonicalFrom, h, hv, hm]

theorem Memory.write_canonicalFrom {lo : Nat} {m : Memory} (hm : Memory.canonicalFrom lo m = true) {a : Nat} (v : Byte)
    (ha : lo ≤ a) : Memory.canonicalFrom lo (m.write a v) = true := by
  induction m generalizing lo with
  | nil => exact Memory.canonicalFrom_consCell v ha rfl
  | cons c m ih =>
    obtain ⟨b, w⟩ := c
    simp [Memory.canonicalFrom] at hm
    obtain ⟨⟨hb, hw⟩, hrest⟩ := hm
    unfold Memory.write
    split
    · next hlt => simp [Memory.canonicalFrom, hb, hw, ih hrest (by omega)]
    · split
      · next hab => exact Memory.canonicalFrom_consCell v ha (hab ▸ hrest)
      · next h1 h2 =>
        refine Memory.canonicalFrom_consCell v ha ?_
        simp [Memory.canonicalFrom, hw, hrest]; omega

/-- A write keeps the canonical form. -/
theorem Memory.write_wf {m : Memory} (hm : m.wf = true) (a : Nat) (v : Byte) : Memory.wf (m.write a v) = true :=
  Memory.write_canonicalFrom hm v (Nat.zero_le a)

theorem Memory.read_of_canonicalFrom {lo a : Nat} {m : Memory} (hm : Memory.canonicalFrom lo m = true) (h : a < lo) :
    m.read a = Memory.unlisted := by
  induction m generalizing lo with
  | nil => rfl
  | cons c m ih =>
    obtain ⟨b, w⟩ := c
    simp [Memory.canonicalFrom] at hm
    have hne : b ≠ a := by omega
    simp [Memory.read, hne, ih hm.2 (by omega)]

theorem Memory.read_consCell (a x : Nat) (v : Byte) {m : Memory} (hm : Memory.canonicalFrom (a + 1) m = true) :
    (Memory.consCell a v m).read x = if x = a then v else m.read x := by
  unfold Memory.consCell
  split
  · next hv =>
    split
    · next hx => rw [hv, hx]; exact Memory.read_of_canonicalFrom hm (by omega)
    · rfl
  · by_cases hx : x = a
    · simp [Memory.read, hx]
    · simp [Memory.read, hx, Ne.symm hx]

theorem Memory.read_write_from {lo : Nat} {m : Memory} (hm : Memory.canonicalFrom lo m = true) (a x : Nat) (v : Byte) :
    (m.write a v).read x = if x = a then v else m.read x := by
  induction m generalizing lo with
  | nil => exact Memory.read_consCell a x v rfl
  | cons c m ih =>
    obtain ⟨b, w⟩ := c
    simp [Memory.canonicalFrom] at hm
    obtain ⟨⟨hb, hw⟩, hrest⟩ := hm
    unfold Memory.write
    split
    · next hlt =>
      by_cases hx : b = x
      · have : x ≠ a := by omega
        simp [Memory.read, hx, this]
      · simp [Memory.read, hx, ih hrest]
    · split
      · next hab =>
        subst hab
        rw [Memory.read_consCell b x v hrest]
        by_cases hx : x = b
        · simp [hx]
        · have : b ≠ x := fun h => hx h.symm
          simp [Memory.read, hx, this]
      · next h1 h2 =>
        refine Memory.read_consCell a x v ?_
        simp [Memory.canonicalFrom, hw, hrest]; omega

/-- A read after a write: the byte written at its address, what was there before at every other one. -/
theorem Memory.read_write {m : Memory} (hm : m.wf = true) (a x : Nat) (v : Byte) :
    (m.write a v).read x = if x = a then v else m.read x :=
  Memory.read_write_from hm a x v

theorem Memory.read_consCell_other {a x : Nat} (h : x ≠ a) (v : Byte) (m : Memory) :
    (Memory.consCell a v m).read x = m.read x := by
  unfold Memory.consCell
  split
  · rfl
  · simp [Memory.read, Ne.symm h]

/-- A write leaves every other address as it was, in canonical form or not. -/
theorem Memory.read_write_other {a x : Nat} (h : x ≠ a) (m : Memory) (v : Byte) : (m.write a v).read x = m.read x := by
  induction m with
  | nil => exact Memory.read_consCell_other h v []
  | cons c m ih =>
    obtain ⟨b, w⟩ := c
    unfold Memory.write
    split
    · by_cases hx : b = x <;> simp [Memory.read, hx, ih]
    · split
      · next hab =>
        rw [Memory.read_consCell_other h]
        have : b ≠ x := fun e => h (by omega)
        simp [Memory.read, this]
      · exact Memory.read_consCell_other h v _

theorem Memory.mem_consCell {a : Nat} {v : Byte} {m : Memory} {c : Host.Cell} (h : c ∈ Memory.consCell a v m) :
    c ∈ m ∨ c.1 = a := by
  unfold Memory.consCell at h
  split at h
  · exact .inl h
  · simp at h
    rcases h with h | h
    · exact .inr (by rw [h])
    · exact .inl h

/-- An entry after a write was there before or is at the written address. -/
theorem Memory.mem_write {a : Nat} {v : Byte} {m : Memory} {c : Host.Cell} (h : c ∈ m.write a v) : c ∈ m ∨ c.1 = a := by
  induction m with
  | nil => exact Memory.mem_consCell h
  | cons d m ih =>
    obtain ⟨b, w⟩ := d
    unfold Memory.write at h
    split at h
    · simp at h
      rcases h with h | h
      · simp [h]
      · rcases ih h with h | h <;> simp [h]
    · split at h
      · rcases Memory.mem_consCell h with h | h <;> simp [h]
      · rcases Memory.mem_consCell h with h | h
        · exact .inl h
        · exact .inr h

/-! ### RTC registers -/

theorem Params.addr_ne {p : Params} (hp : p.wellFormed = true) {f g : Field} (h : f ≠ g) :
    (p.addr f).toNat ≠ (p.addr g).toNat := by
  simp [Params.wellFormed] at hp
  obtain ⟨⟨⟨_, h1⟩, h2⟩, h3⟩ := hp
  have k1 := fun e => h1 (BitVec.eq_of_toNat_eq e)
  have k2 := fun e => h2 (BitVec.eq_of_toNat_eq e)
  have k3 := fun e => h3 (BitVec.eq_of_toNat_eq e)
  cases f <;> cases g <;> simp only [Params.addr, ne_eq] <;> first | exact absurd rfl h | assumption | (intro e; first | exact k1 e.symm | exact k2 e.symm | exact k3 e.symm)

/-- A register read after a register write (20_memory.md R31). -/
theorem State.rtcByte_setRtc {s : State} (hp : s.params.wellFormed = true) (hm : s.rtc.wf = true) (f g : Field) (v : Byte) :
    (s.setRtc f v).rtcByte g = if g = f then v else s.rtcByte g := by
  unfold State.rtcByte State.setRtc
  simp only [Memory.read_write hm]
  by_cases h : g = f
  · simp [h]
  · simp [h, Params.addr_ne hp h]

end Sys2Proof.Machine
end

