-- ==== Sys2Proof/Laws/State.lean ====
section
/-! SUPPORT. One lemma per field per update of State (all by rfl), and what the accessors of a command in progress read after
an update. -/

namespace Sys2Proof.Machine

/-! ### `State.setPhase` -/

@[simp] theorem State.setPhase_params (s : State) (p : Phase) : (s.setPhase p).params = s.params := rfl
@[simp] theorem State.setPhase_phase (s : State) (p : Phase) : (s.setPhase p).phase = p := rfl
@[simp] theorem State.setPhase_slots (s : State) (p : Phase) : (s.setPhase p).slots = s.slots := rfl
@[simp] theorem State.setPhase_outHour (s : State) (p : Phase) : (s.setPhase p).outHour = s.outHour := rfl
@[simp] theorem State.setPhase_outMin (s : State) (p : Phase) : (s.setPhase p).outMin = s.outMin := rfl
@[simp] theorem State.setPhase_pwm (s : State) (p : Phase) : (s.setPhase p).pwm = s.pwm := rfl
@[simp] theorem State.setPhase_result (s : State) (p : Phase) : (s.setPhase p).result = s.result := rfl
@[simp] theorem State.setPhase_flags (s : State) (p : Phase) : (s.setPhase p).flags = s.flags := rfl
@[simp] theorem State.setPhase_rtc (s : State) (p : Phase) : (s.setPhase p).rtc = s.rtc := rfl
@[simp] theorem State.setPhase_busLog (s : State) (p : Phase) : (s.setPhase p).busLog = s.busLog := rfl
@[simp] theorem State.setPhase_host (s : State) (p : Phase) : (s.setPhase p).host = s.host := rfl
@[simp] theorem State.setPhase_env (s : State) (p : Phase) : (s.setPhase p).env = s.env := rfl

/-! ### `State.setSlots` -/

@[simp] theorem State.setSlots_params (s : State) (x : Slots) : (s.setSlots x).params = s.params := rfl
@[simp] theorem State.setSlots_phase (s : State) (x : Slots) : (s.setSlots x).phase = s.phase := rfl
@[simp] theorem State.setSlots_slots (s : State) (x : Slots) : (s.setSlots x).slots = x := rfl
@[simp] theorem State.setSlots_outHour (s : State) (x : Slots) : (s.setSlots x).outHour = s.outHour := rfl
@[simp] theorem State.setSlots_outMin (s : State) (x : Slots) : (s.setSlots x).outMin = s.outMin := rfl
@[simp] theorem State.setSlots_pwm (s : State) (x : Slots) : (s.setSlots x).pwm = s.pwm := rfl
@[simp] theorem State.setSlots_result (s : State) (x : Slots) : (s.setSlots x).result = s.result := rfl
@[simp] theorem State.setSlots_flags (s : State) (x : Slots) : (s.setSlots x).flags = s.flags := rfl
@[simp] theorem State.setSlots_rtc (s : State) (x : Slots) : (s.setSlots x).rtc = s.rtc := rfl
@[simp] theorem State.setSlots_busLog (s : State) (x : Slots) : (s.setSlots x).busLog = s.busLog := rfl
@[simp] theorem State.setSlots_host (s : State) (x : Slots) : (s.setSlots x).host = s.host := rfl
@[simp] theorem State.setSlots_env (s : State) (x : Slots) : (s.setSlots x).env = s.env := rfl

/-! ### `State.setFlags` -/

@[simp] theorem State.setFlags_params (s : State) (f : Flags) : (s.setFlags f).params = s.params := rfl
@[simp] theorem State.setFlags_phase (s : State) (f : Flags) : (s.setFlags f).phase = s.phase := rfl
@[simp] theorem State.setFlags_slots (s : State) (f : Flags) : (s.setFlags f).slots = s.slots := rfl
@[simp] theorem State.setFlags_outHour (s : State) (f : Flags) : (s.setFlags f).outHour = s.outHour := rfl
@[simp] theorem State.setFlags_outMin (s : State) (f : Flags) : (s.setFlags f).outMin = s.outMin := rfl
@[simp] theorem State.setFlags_pwm (s : State) (f : Flags) : (s.setFlags f).pwm = s.pwm := rfl
@[simp] theorem State.setFlags_result (s : State) (f : Flags) : (s.setFlags f).result = s.result := rfl
@[simp] theorem State.setFlags_flags (s : State) (f : Flags) : (s.setFlags f).flags = f := rfl
@[simp] theorem State.setFlags_rtc (s : State) (f : Flags) : (s.setFlags f).rtc = s.rtc := rfl
@[simp] theorem State.setFlags_busLog (s : State) (f : Flags) : (s.setFlags f).busLog = s.busLog := rfl
@[simp] theorem State.setFlags_host (s : State) (f : Flags) : (s.setFlags f).host = s.host := rfl
@[simp] theorem State.setFlags_env (s : State) (f : Flags) : (s.setFlags f).env = s.env := rfl

/-! ### `State.setResult` -/

@[simp] theorem State.setResult_params (s : State) (v : BitVec 16) : (s.setResult v).params = s.params := rfl
@[simp] theorem State.setResult_phase (s : State) (v : BitVec 16) : (s.setResult v).phase = s.phase := rfl
@[simp] theorem State.setResult_slots (s : State) (v : BitVec 16) : (s.setResult v).slots = s.slots := rfl
@[simp] theorem State.setResult_outHour (s : State) (v : BitVec 16) : (s.setResult v).outHour = s.outHour := rfl
@[simp] theorem State.setResult_outMin (s : State) (v : BitVec 16) : (s.setResult v).outMin = s.outMin := rfl
@[simp] theorem State.setResult_pwm (s : State) (v : BitVec 16) : (s.setResult v).pwm = s.pwm := rfl
@[simp] theorem State.setResult_result (s : State) (v : BitVec 16) : (s.setResult v).result = v := rfl
@[simp] theorem State.setResult_flags (s : State) (v : BitVec 16) : (s.setResult v).flags = s.flags := rfl
@[simp] theorem State.setResult_rtc (s : State) (v : BitVec 16) : (s.setResult v).rtc = s.rtc := rfl
@[simp] theorem State.setResult_busLog (s : State) (v : BitVec 16) : (s.setResult v).busLog = s.busLog := rfl
@[simp] theorem State.setResult_host (s : State) (v : BitVec 16) : (s.setResult v).host = s.host := rfl
@[simp] theorem State.setResult_env (s : State) (v : BitVec 16) : (s.setResult v).env = s.env := rfl

/-! ### `State.setOutputs` -/

@[simp] theorem State.setOutputs_params (s : State) (h : BitVec 4) (m : BitVec 6) (p : BitVec 16) : (s.setOutputs h m p).params = s.params := rfl
@[simp] theorem State.setOutputs_phase (s : State) (h : BitVec 4) (m : BitVec 6) (p : BitVec 16) : (s.setOutputs h m p).phase = s.phase := rfl
@[simp] theorem State.setOutputs_slots (s : State) (h : BitVec 4) (m : BitVec 6) (p : BitVec 16) : (s.setOutputs h m p).slots = s.slots := rfl
@[simp] theorem State.setOutputs_outHour (s : State) (h : BitVec 4) (m : BitVec 6) (p : BitVec 16) : (s.setOutputs h m p).outHour = h := rfl
@[simp] theorem State.setOutputs_outMin (s : State) (h : BitVec 4) (m : BitVec 6) (p : BitVec 16) : (s.setOutputs h m p).outMin = m := rfl
@[simp] theorem State.setOutputs_pwm (s : State) (h : BitVec 4) (m : BitVec 6) (p : BitVec 16) : (s.setOutputs h m p).pwm = p := rfl
@[simp] theorem State.setOutputs_result (s : State) (h : BitVec 4) (m : BitVec 6) (p : BitVec 16) : (s.setOutputs h m p).result = s.result := rfl
@[simp] theorem State.setOutputs_flags (s : State) (h : BitVec 4) (m : BitVec 6) (p : BitVec 16) : (s.setOutputs h m p).flags = s.flags := rfl
@[simp] theorem State.setOutputs_rtc (s : State) (h : BitVec 4) (m : BitVec 6) (p : BitVec 16) : (s.setOutputs h m p).rtc = s.rtc := rfl
@[simp] theorem State.setOutputs_busLog (s : State) (h : BitVec 4) (m : BitVec 6) (p : BitVec 16) : (s.setOutputs h m p).busLog = s.busLog := rfl
@[simp] theorem State.setOutputs_host (s : State) (h : BitVec 4) (m : BitVec 6) (p : BitVec 16) : (s.setOutputs h m p).host = s.host := rfl
@[simp] theorem State.setOutputs_env (s : State) (h : BitVec 4) (m : BitVec 6) (p : BitVec 16) : (s.setOutputs h m p).env = s.env := rfl

/-! ### `State.setRtc` -/

@[simp] theorem State.setRtc_params (s : State) (f : Field) (v : Byte) : (s.setRtc f v).params = s.params := rfl
@[simp] theorem State.setRtc_phase (s : State) (f : Field) (v : Byte) : (s.setRtc f v).phase = s.phase := rfl
@[simp] theorem State.setRtc_slots (s : State) (f : Field) (v : Byte) : (s.setRtc f v).slots = s.slots := rfl
@[simp] theorem State.setRtc_outHour (s : State) (f : Field) (v : Byte) : (s.setRtc f v).outHour = s.outHour := rfl
@[simp] theorem State.setRtc_outMin (s : State) (f : Field) (v : Byte) : (s.setRtc f v).outMin = s.outMin := rfl
@[simp] theorem State.setRtc_pwm (s : State) (f : Field) (v : Byte) : (s.setRtc f v).pwm = s.pwm := rfl
@[simp] theorem State.setRtc_result (s : State) (f : Field) (v : Byte) : (s.setRtc f v).result = s.result := rfl
@[simp] theorem State.setRtc_flags (s : State) (f : Field) (v : Byte) : (s.setRtc f v).flags = s.flags := rfl
@[simp] theorem State.setRtc_rtc (s : State) (f : Field) (v : Byte) : (s.setRtc f v).rtc = s.rtc.write (s.params.addr f).toNat v := rfl
@[simp] theorem State.setRtc_busLog (s : State) (f : Field) (v : Byte) : (s.setRtc f v).busLog = s.busLog := rfl
@[simp] theorem State.setRtc_host (s : State) (f : Field) (v : Byte) : (s.setRtc f v).host = s.host := rfl
@[simp] theorem State.setRtc_env (s : State) (f : Field) (v : Byte) : (s.setRtc f v).env = s.env := rfl

/-! ### `State.setEnv` -/

@[simp] theorem State.setEnv_params (s : State) (e : List EnvEvent) : (s.setEnv e).params = s.params := rfl
@[simp] theorem State.setEnv_phase (s : State) (e : List EnvEvent) : (s.setEnv e).phase = s.phase := rfl
@[simp] theorem State.setEnv_slots (s : State) (e : List EnvEvent) : (s.setEnv e).slots = s.slots := rfl
@[simp] theorem State.setEnv_outHour (s : State) (e : List EnvEvent) : (s.setEnv e).outHour = s.outHour := rfl
@[simp] theorem State.setEnv_outMin (s : State) (e : List EnvEvent) : (s.setEnv e).outMin = s.outMin := rfl
@[simp] theorem State.setEnv_pwm (s : State) (e : List EnvEvent) : (s.setEnv e).pwm = s.pwm := rfl
@[simp] theorem State.setEnv_result (s : State) (e : List EnvEvent) : (s.setEnv e).result = s.result := rfl
@[simp] theorem State.setEnv_flags (s : State) (e : List EnvEvent) : (s.setEnv e).flags = s.flags := rfl
@[simp] theorem State.setEnv_rtc (s : State) (e : List EnvEvent) : (s.setEnv e).rtc = s.rtc := rfl
@[simp] theorem State.setEnv_busLog (s : State) (e : List EnvEvent) : (s.setEnv e).busLog = s.busLog := rfl
@[simp] theorem State.setEnv_host (s : State) (e : List EnvEvent) : (s.setEnv e).host = s.host := rfl
@[simp] theorem State.setEnv_env (s : State) (e : List EnvEvent) : (s.setEnv e).env = e := rfl

/-! ### `State.setHost` -/

@[simp] theorem State.setHost_params (s : State) (h : List HostCmd) : (s.setHost h).params = s.params := rfl
@[simp] theorem State.setHost_phase (s : State) (h : List HostCmd) : (s.setHost h).phase = s.phase := rfl
@[simp] theorem State.setHost_slots (s : State) (h : List HostCmd) : (s.setHost h).slots = s.slots := rfl
@[simp] theorem State.setHost_outHour (s : State) (h : List HostCmd) : (s.setHost h).outHour = s.outHour := rfl
@[simp] theorem State.setHost_outMin (s : State) (h : List HostCmd) : (s.setHost h).outMin = s.outMin := rfl
@[simp] theorem State.setHost_pwm (s : State) (h : List HostCmd) : (s.setHost h).pwm = s.pwm := rfl
@[simp] theorem State.setHost_result (s : State) (h : List HostCmd) : (s.setHost h).result = s.result := rfl
@[simp] theorem State.setHost_flags (s : State) (h : List HostCmd) : (s.setHost h).flags = s.flags := rfl
@[simp] theorem State.setHost_rtc (s : State) (h : List HostCmd) : (s.setHost h).rtc = s.rtc := rfl
@[simp] theorem State.setHost_busLog (s : State) (h : List HostCmd) : (s.setHost h).busLog = s.busLog := rfl
@[simp] theorem State.setHost_host (s : State) (h : List HostCmd) : (s.setHost h).host = h := rfl
@[simp] theorem State.setHost_env (s : State) (h : List HostCmd) : (s.setHost h).env = s.env := rfl

/-! ### `State.logTxn` -/

@[simp] theorem State.logTxn_params (s : State) (t : BusTxn) : (s.logTxn t).params = s.params := rfl
@[simp] theorem State.logTxn_phase (s : State) (t : BusTxn) : (s.logTxn t).phase = s.phase := rfl
@[simp] theorem State.logTxn_slots (s : State) (t : BusTxn) : (s.logTxn t).slots = s.slots := rfl
@[simp] theorem State.logTxn_outHour (s : State) (t : BusTxn) : (s.logTxn t).outHour = s.outHour := rfl
@[simp] theorem State.logTxn_outMin (s : State) (t : BusTxn) : (s.logTxn t).outMin = s.outMin := rfl
@[simp] theorem State.logTxn_pwm (s : State) (t : BusTxn) : (s.logTxn t).pwm = s.pwm := rfl
@[simp] theorem State.logTxn_result (s : State) (t : BusTxn) : (s.logTxn t).result = s.result := rfl
@[simp] theorem State.logTxn_flags (s : State) (t : BusTxn) : (s.logTxn t).flags = s.flags := rfl
@[simp] theorem State.logTxn_rtc (s : State) (t : BusTxn) : (s.logTxn t).rtc = s.rtc := rfl
@[simp] theorem State.logTxn_busLog (s : State) (t : BusTxn) : (s.logTxn t).busLog = s.busLog ++ [t] := rfl
@[simp] theorem State.logTxn_host (s : State) (t : BusTxn) : (s.logTxn t).host = s.host := rfl
@[simp] theorem State.logTxn_env (s : State) (t : BusTxn) : (s.logTxn t).env = s.env := rfl

/-! ### `State.setAcc` -/

@[simp] theorem State.setAcc_params (s : State) (b : Bool) : (s.setAcc b).params = s.params := rfl
@[simp] theorem State.setAcc_phase (s : State) (b : Bool) : (s.setAcc b).phase = s.phase := rfl
@[simp] theorem State.setAcc_slots (s : State) (b : Bool) : (s.setAcc b).slots = s.slots := rfl
@[simp] theorem State.setAcc_outHour (s : State) (b : Bool) : (s.setAcc b).outHour = s.outHour := rfl
@[simp] theorem State.setAcc_outMin (s : State) (b : Bool) : (s.setAcc b).outMin = s.outMin := rfl
@[simp] theorem State.setAcc_pwm (s : State) (b : Bool) : (s.setAcc b).pwm = s.pwm := rfl
@[simp] theorem State.setAcc_result (s : State) (b : Bool) : (s.setAcc b).result = s.result := rfl
@[simp] theorem State.setAcc_flags (s : State) (b : Bool) : (s.setAcc b).flags = { s.flags with acc := b } := rfl
@[simp] theorem State.setAcc_rtc (s : State) (b : Bool) : (s.setAcc b).rtc = s.rtc := rfl
@[simp] theorem State.setAcc_busLog (s : State) (b : Bool) : (s.setAcc b).busLog = s.busLog := rfl
@[simp] theorem State.setAcc_host (s : State) (b : Bool) : (s.setAcc b).host = s.host := rfl
@[simp] theorem State.setAcc_env (s : State) (b : Bool) : (s.setAcc b).env = s.env := rfl

/-! ### `State.recordAccepted` -/

@[simp] theorem State.recordAccepted_params (s : State) (src : Source) (n : Timestamp) : (s.recordAccepted src n).params = s.params := rfl
@[simp] theorem State.recordAccepted_phase (s : State) (src : Source) (n : Timestamp) : (s.recordAccepted src n).phase = s.phase := rfl
@[simp] theorem State.recordAccepted_slots (s : State) (src : Source) (n : Timestamp) : (s.recordAccepted src n).slots = s.slots.put (slotNumber s.params src) ⟨n, true⟩ := rfl
@[simp] theorem State.recordAccepted_outHour (s : State) (src : Source) (n : Timestamp) : (s.recordAccepted src n).outHour = s.outHour := rfl
@[simp] theorem State.recordAccepted_outMin (s : State) (src : Source) (n : Timestamp) : (s.recordAccepted src n).outMin = s.outMin := rfl
@[simp] theorem State.recordAccepted_pwm (s : State) (src : Source) (n : Timestamp) : (s.recordAccepted src n).pwm = s.pwm := rfl
@[simp] theorem State.recordAccepted_result (s : State) (src : Source) (n : Timestamp) : (s.recordAccepted src n).result = s.result := rfl
@[simp] theorem State.recordAccepted_flags (s : State) (src : Source) (n : Timestamp) : (s.recordAccepted src n).flags = s.flags := rfl
@[simp] theorem State.recordAccepted_rtc (s : State) (src : Source) (n : Timestamp) : (s.recordAccepted src n).rtc = s.rtc := rfl
@[simp] theorem State.recordAccepted_busLog (s : State) (src : Source) (n : Timestamp) : (s.recordAccepted src n).busLog = s.busLog := rfl
@[simp] theorem State.recordAccepted_host (s : State) (src : Source) (n : Timestamp) : (s.recordAccepted src n).host = s.host := rfl
@[simp] theorem State.recordAccepted_env (s : State) (src : Source) (n : Timestamp) : (s.recordAccepted src n).env = s.env := rfl

/-! ### `State.takeCommand` -/

@[simp] theorem State.takeCommand_params (s : State) (c : HostCmd) : (s.takeCommand c).params = s.params := rfl
@[simp] theorem State.takeCommand_phase (s : State) (c : HostCmd) : (s.takeCommand c).phase = .exec c.cmd c.now [] none := rfl
@[simp] theorem State.takeCommand_slots (s : State) (c : HostCmd) : (s.takeCommand c).slots = s.slots := rfl
@[simp] theorem State.takeCommand_outHour (s : State) (c : HostCmd) : (s.takeCommand c).outHour = s.outHour := rfl
@[simp] theorem State.takeCommand_outMin (s : State) (c : HostCmd) : (s.takeCommand c).outMin = s.outMin := rfl
@[simp] theorem State.takeCommand_pwm (s : State) (c : HostCmd) : (s.takeCommand c).pwm = s.pwm := rfl
@[simp] theorem State.takeCommand_result (s : State) (c : HostCmd) : (s.takeCommand c).result = s.result := rfl
@[simp] theorem State.takeCommand_flags (s : State) (c : HostCmd) : (s.takeCommand c).flags = s.flags := rfl
@[simp] theorem State.takeCommand_rtc (s : State) (c : HostCmd) : (s.takeCommand c).rtc = s.rtc := rfl
@[simp] theorem State.takeCommand_busLog (s : State) (c : HostCmd) : (s.takeCommand c).busLog = s.busLog := rfl
@[simp] theorem State.takeCommand_host (s : State) (c : HostCmd) : (s.takeCommand c).host = s.host := rfl
@[simp] theorem State.takeCommand_env (s : State) (c : HostCmd) : (s.takeCommand c).env = s.env := rfl

/-! ### `State.holdReq` -/

@[simp] theorem State.holdReq_params (s : State) (r : BusReq) : (s.holdReq r).params = s.params := rfl
@[simp] theorem State.holdReq_phase (s : State) (r : BusReq) : (s.holdReq r).phase = .exec s.cmdWord s.now s.got (some r) := rfl
@[simp] theorem State.holdReq_slots (s : State) (r : BusReq) : (s.holdReq r).slots = s.slots := rfl
@[simp] theorem State.holdReq_outHour (s : State) (r : BusReq) : (s.holdReq r).outHour = s.outHour := rfl
@[simp] theorem State.holdReq_outMin (s : State) (r : BusReq) : (s.holdReq r).outMin = s.outMin := rfl
@[simp] theorem State.holdReq_pwm (s : State) (r : BusReq) : (s.holdReq r).pwm = s.pwm := rfl
@[simp] theorem State.holdReq_result (s : State) (r : BusReq) : (s.holdReq r).result = s.result := rfl
@[simp] theorem State.holdReq_flags (s : State) (r : BusReq) : (s.holdReq r).flags = s.flags := rfl
@[simp] theorem State.holdReq_rtc (s : State) (r : BusReq) : (s.holdReq r).rtc = s.rtc := rfl
@[simp] theorem State.holdReq_busLog (s : State) (r : BusReq) : (s.holdReq r).busLog = s.busLog := rfl
@[simp] theorem State.holdReq_host (s : State) (r : BusReq) : (s.holdReq r).host = s.host := rfl
@[simp] theorem State.holdReq_env (s : State) (r : BusReq) : (s.holdReq r).env = s.env := rfl

/-! ### `State.resetBlock` -/

@[simp] theorem State.resetBlock_params (s : State) : (s.resetBlock).params = s.params := rfl
@[simp] theorem State.resetBlock_phase (s : State) : (s.resetBlock).phase = .idle := rfl
@[simp] theorem State.resetBlock_slots (s : State) : (s.resetBlock).slots = Slots.reset := rfl
@[simp] theorem State.resetBlock_outHour (s : State) : (s.resetBlock).outHour = 0 := rfl
@[simp] theorem State.resetBlock_outMin (s : State) : (s.resetBlock).outMin = 0 := rfl
@[simp] theorem State.resetBlock_pwm (s : State) : (s.resetBlock).pwm = 0 := rfl
@[simp] theorem State.resetBlock_result (s : State) : (s.resetBlock).result = 0 := rfl
@[simp] theorem State.resetBlock_flags (s : State) : (s.resetBlock).flags = Flags.reset := rfl
@[simp] theorem State.resetBlock_rtc (s : State) : (s.resetBlock).rtc = s.rtc := rfl
@[simp] theorem State.resetBlock_busLog (s : State) : (s.resetBlock).busLog = s.busLog := rfl
@[simp] theorem State.resetBlock_host (s : State) : (s.resetBlock).host = s.host := rfl
@[simp] theorem State.resetBlock_env (s : State) : (s.resetBlock).env = s.env := rfl

/-! ### `State.passTxn` -/

@[simp] theorem State.passTxn_params (s : State) (b : Byte) : (s.passTxn b).params = s.params := by
  cases h : s.phase <;> simp [State.passTxn, h]
@[simp] theorem State.passTxn_slots (s : State) (b : Byte) : (s.passTxn b).slots = s.slots := by
  cases h : s.phase <;> simp [State.passTxn, h]
@[simp] theorem State.passTxn_outHour (s : State) (b : Byte) : (s.passTxn b).outHour = s.outHour := by
  cases h : s.phase <;> simp [State.passTxn, h]
@[simp] theorem State.passTxn_outMin (s : State) (b : Byte) : (s.passTxn b).outMin = s.outMin := by
  cases h : s.phase <;> simp [State.passTxn, h]
@[simp] theorem State.passTxn_pwm (s : State) (b : Byte) : (s.passTxn b).pwm = s.pwm := by
  cases h : s.phase <;> simp [State.passTxn, h]
@[simp] theorem State.passTxn_result (s : State) (b : Byte) : (s.passTxn b).result = s.result := by
  cases h : s.phase <;> simp [State.passTxn, h]
@[simp] theorem State.passTxn_flags (s : State) (b : Byte) : (s.passTxn b).flags = s.flags := by
  cases h : s.phase <;> simp [State.passTxn, h]
@[simp] theorem State.passTxn_rtc (s : State) (b : Byte) : (s.passTxn b).rtc = s.rtc := by
  cases h : s.phase <;> simp [State.passTxn, h]
@[simp] theorem State.passTxn_busLog (s : State) (b : Byte) : (s.passTxn b).busLog = s.busLog := by
  cases h : s.phase <;> simp [State.passTxn, h]
@[simp] theorem State.passTxn_host (s : State) (b : Byte) : (s.passTxn b).host = s.host := by
  cases h : s.phase <;> simp [State.passTxn, h]
@[simp] theorem State.passTxn_env (s : State) (b : Byte) : (s.passTxn b).env = s.env := by
  cases h : s.phase <;> simp [State.passTxn, h]

theorem State.passTxn_phase (s : State) (b : Byte) (cmd : Word) (now : Timestamp) (got : List Byte) (req : Option BusReq)
    (h : s.phase = .exec cmd now got req) : (s.passTxn b).phase = .exec cmd now (got ++ [b]) none := by
  simp [State.passTxn, h]

@[simp] theorem State.passTxn_idle (s : State) (b : Byte) (h : s.phase = .idle) : s.passTxn b = s := by
  simp [State.passTxn, h]

/-! ### Accessors of the command in progress -/

theorem State.got_exec (s : State) (cmd : Word) (now : Timestamp) (got : List Byte) (req : Option BusReq)
    (h : s.phase = .exec cmd now got req) : s.got = got := by simp [State.got, h]

theorem State.now_exec (s : State) (cmd : Word) (now : Timestamp) (got : List Byte) (req : Option BusReq)
    (h : s.phase = .exec cmd now got req) : s.now = now := by simp [State.now, h]

theorem State.cmdWord_exec (s : State) (cmd : Word) (now : Timestamp) (got : List Byte) (req : Option BusReq)
    (h : s.phase = .exec cmd now got req) : s.cmdWord = cmd := by simp [State.cmdWord, h]

theorem State.pendingReq_exec (s : State) (cmd : Word) (now : Timestamp) (got : List Byte) (req : Option BusReq)
    (h : s.phase = .exec cmd now got req) : s.pendingReq = req := by simp [State.pendingReq, h]

/-- The accessors read `phase` and nothing else. -/
theorem State.accessors_congr (s t : State) (h : t.phase = s.phase) :
    t.got = s.got ∧ t.now = s.now ∧ t.cmdWord = s.cmdWord ∧ t.pendingReq = s.pendingReq ∧ t.busy = s.busy := by
  simp [State.got, State.now, State.cmdWord, State.pendingReq, State.busy, h]

/-! ### `State.busEffect` and `State.busSpoil` -/

@[simp] theorem State.busEffect_params (s : State) (f : Field) (op : BusOp) : (s.busEffect f op).params = s.params := by
  cases op <;> rfl
@[simp] theorem State.busEffect_phase (s : State) (f : Field) (op : BusOp) : (s.busEffect f op).phase = s.phase := by
  cases op <;> rfl
@[simp] theorem State.busEffect_slots (s : State) (f : Field) (op : BusOp) : (s.busEffect f op).slots = s.slots := by
  cases op <;> rfl
@[simp] theorem State.busEffect_outHour (s : State) (f : Field) (op : BusOp) : (s.busEffect f op).outHour = s.outHour := by
  cases op <;> rfl
@[simp] theorem State.busEffect_outMin (s : State) (f : Field) (op : BusOp) : (s.busEffect f op).outMin = s.outMin := by
  cases op <;> rfl
@[simp] theorem State.busEffect_pwm (s : State) (f : Field) (op : BusOp) : (s.busEffect f op).pwm = s.pwm := by
  cases op <;> rfl
@[simp] theorem State.busEffect_result (s : State) (f : Field) (op : BusOp) : (s.busEffect f op).result = s.result := by
  cases op <;> rfl
@[simp] theorem State.busEffect_flags (s : State) (f : Field) (op : BusOp) : (s.busEffect f op).flags = s.flags := by
  cases op <;> rfl
@[simp] theorem State.busEffect_busLog (s : State) (f : Field) (op : BusOp) : (s.busEffect f op).busLog = s.busLog := by
  cases op <;> rfl
@[simp] theorem State.busEffect_host (s : State) (f : Field) (op : BusOp) : (s.busEffect f op).host = s.host := by
  cases op <;> rfl
@[simp] theorem State.busEffect_env (s : State) (f : Field) (op : BusOp) : (s.busEffect f op).env = s.env := by
  cases op <;> rfl
@[simp] theorem State.busSpoil_params (s : State) (f : Field) (op : BusOp) (v : Byte) : (s.busSpoil f op v).params = s.params := by
  cases op <;> rfl
@[simp] theorem State.busSpoil_phase (s : State) (f : Field) (op : BusOp) (v : Byte) : (s.busSpoil f op v).phase = s.phase := by
  cases op <;> rfl
@[simp] theorem State.busSpoil_slots (s : State) (f : Field) (op : BusOp) (v : Byte) : (s.busSpoil f op v).slots = s.slots := by
  cases op <;> rfl
@[simp] theorem State.busSpoil_outHour (s : State) (f : Field) (op : BusOp) (v : Byte) : (s.busSpoil f op v).outHour = s.outHour := by
  cases op <;> rfl
@[simp] theorem State.busSpoil_outMin (s : State) (f : Field) (op : BusOp) (v : Byte) : (s.busSpoil f op v).outMin = s.outMin := by
  cases op <;> rfl
@[simp] theorem State.busSpoil_pwm (s : State) (f : Field) (op : BusOp) (v : Byte) : (s.busSpoil f op v).pwm = s.pwm := by
  cases op <;> rfl
@[simp] theorem State.busSpoil_result (s : State) (f : Field) (op : BusOp) (v : Byte) : (s.busSpoil f op v).result = s.result := by
  cases op <;> rfl
@[simp] theorem State.busSpoil_flags (s : State) (f : Field) (op : BusOp) (v : Byte) : (s.busSpoil f op v).flags = s.flags := by
  cases op <;> rfl
@[simp] theorem State.busSpoil_busLog (s : State) (f : Field) (op : BusOp) (v : Byte) : (s.busSpoil f op v).busLog = s.busLog := by
  cases op <;> rfl
@[simp] theorem State.busSpoil_host (s : State) (f : Field) (op : BusOp) (v : Byte) : (s.busSpoil f op v).host = s.host := by
  cases op <;> rfl
@[simp] theorem State.busSpoil_env (s : State) (f : Field) (op : BusOp) (v : Byte) : (s.busSpoil f op v).env = s.env := by
  cases op <;> rfl

@[simp] theorem State.busEffect_read (s : State) (f : Field) : s.busEffect f .read = s := rfl

@[simp] theorem State.busEffect_write (s : State) (f : Field) (v : Byte) : s.busEffect f (.write v) = s.setRtc f v := rfl

@[simp] theorem State.busSpoil_read (s : State) (f : Field) (v : Byte) : s.busSpoil f .read v = s := rfl

@[simp] theorem State.busSpoil_write (s : State) (f : Field) (w v : Byte) : s.busSpoil f (.write w) v = s.setRtc f v := rfl

end Sys2Proof.Machine
end

