-- ==== Sys2Proof/Laws/Bus.lean ====
section
/-! SUPPORT. What a bus transaction can do: one lemma for `awaitBus`, one for `busAccess`, and their quiet cases. -/

namespace Sys2Proof.Machine

/-! ### RTC steps -/

@[simp] theorem State.rtcSteps_nil (s : State) : s.rtcSteps [] = s := rfl

@[simp] theorem State.rtcSteps_cons (s : State) (x : Field × Byte) (xs : List (Field × Byte)) :
    s.rtcSteps (x :: xs) = (s.setRtc x.1 x.2).rtcSteps xs := rfl

@[simp] theorem State.rtcSteps_params (s : State) (xs : List (Field × Byte)) : (s.rtcSteps xs).params = s.params := by
  induction xs generalizing s with
  | nil => rfl
  | cons x xs ih => simp [ih]

@[simp] theorem State.rtcSteps_phase (s : State) (xs : List (Field × Byte)) : (s.rtcSteps xs).phase = s.phase := by
  induction xs generalizing s with
  | nil => rfl
  | cons x xs ih => simp [ih]

@[simp] theorem State.rtcSteps_slots (s : State) (xs : List (Field × Byte)) : (s.rtcSteps xs).slots = s.slots := by
  induction xs generalizing s with
  | nil => rfl
  | cons x xs ih => simp [ih]

@[simp] theorem State.rtcSteps_outHour (s : State) (xs : List (Field × Byte)) : (s.rtcSteps xs).outHour = s.outHour := by
  induction xs generalizing s with
  | nil => rfl
  | cons x xs ih => simp [ih]

@[simp] theorem State.rtcSteps_outMin (s : State) (xs : List (Field × Byte)) : (s.rtcSteps xs).outMin = s.outMin := by
  induction xs generalizing s with
  | nil => rfl
  | cons x xs ih => simp [ih]

@[simp] theorem State.rtcSteps_pwm (s : State) (xs : List (Field × Byte)) : (s.rtcSteps xs).pwm = s.pwm := by
  induction xs generalizing s with
  | nil => rfl
  | cons x xs ih => simp [ih]

@[simp] theorem State.rtcSteps_result (s : State) (xs : List (Field × Byte)) : (s.rtcSteps xs).result = s.result := by
  induction xs generalizing s with
  | nil => rfl
  | cons x xs ih => simp [ih]

@[simp] theorem State.rtcSteps_flags (s : State) (xs : List (Field × Byte)) : (s.rtcSteps xs).flags = s.flags := by
  induction xs generalizing s with
  | nil => rfl
  | cons x xs ih => simp [ih]

@[simp] theorem State.rtcSteps_busLog (s : State) (xs : List (Field × Byte)) : (s.rtcSteps xs).busLog = s.busLog := by
  induction xs generalizing s with
  | nil => rfl
  | cons x xs ih => simp [ih]

@[simp] theorem State.rtcSteps_host (s : State) (xs : List (Field × Byte)) : (s.rtcSteps xs).host = s.host := by
  induction xs generalizing s with
  | nil => rfl
  | cons x xs ih => simp [ih]

@[simp] theorem State.rtcSteps_env (s : State) (xs : List (Field × Byte)) : (s.rtcSteps xs).env = s.env := by
  induction xs generalizing s with
  | nil => rfl
  | cons x xs ih => simp [ih]

@[simp] theorem stepEvents_nil : stepEvents [] = [] := rfl

@[simp] theorem stepEvents_cons (x : Field × Byte) (xs : List (Field × Byte)) :
    stepEvents (x :: xs) = .rtcStep x.1 x.2 :: stepEvents xs := rfl

/-- RTC steps at the head of the script happen before anything else. -/
theorem awaitBus_stepEvents (f : Field) (op : BusOp) (xs : List (Field × Byte)) (es : List EnvEvent) (s : State) :
    awaitBus f op (stepEvents xs ++ es) s = awaitBus f op es (s.rtcSteps xs) := by
  induction xs generalizing s with
  | nil => rfl
  | cons x xs ih => exact ih (s.setRtc x.1 x.2)

/-- The script says nothing more of the command in progress (log 17). -/
def scriptOver (tail : List EnvEvent) : Prop := tail = [] ∨ ∃ es, tail = .take :: es

/-- Everything a request can meet: some RTC steps, and then nothing more of this command, a completion, a failure, a wait or a
reset. -/
theorem awaitBus_cases (f : Field) (op : BusOp) (env : List EnvEvent) (s : State) :
    ∃ xs tail, env = stepEvents xs ++ tail ∧
      ((scriptOver tail ∧ awaitBus f op env s = completeTxn f op tail (s.rtcSteps xs)) ∨
       (∃ es, tail = .busDone :: es ∧ awaitBus f op env s = completeTxn f op es (s.rtcSteps xs)) ∨
       (∃ left es, tail = .busErr left :: es ∧ awaitBus f op env s =
          .failed ((((s.rtcSteps xs).busSpoil f op left).logTxn ⟨busRequest s.params f op, true⟩).setEnv es)) ∨
       (∃ es, tail = .wait :: es ∧ awaitBus f op env s = .pending ((s.rtcSteps xs).setEnv es)) ∨
       (∃ left es, tail = .rst left :: es ∧ awaitBus f op env s =
          .aborted ((((s.rtcSteps xs).busSpoil f op left).setEnv es).resetBlock))) := by
  induction env generalizing s with
  | nil => exact ⟨[], [], rfl, .inl ⟨.inl rfl, rfl⟩⟩
  | cons e es ih =>
    cases e with
    | take => exact ⟨[], _, rfl, .inl ⟨.inr ⟨es, rfl⟩, rfl⟩⟩
    | rtcStep g v =>
      obtain ⟨xs, tail, rfl, h⟩ := ih (s.setRtc g v)
      refine ⟨(g, v) :: xs, tail, rfl, ?_⟩
      simpa only [State.rtcSteps_cons, stepEvents_cons, List.cons_append, awaitBus, State.setRtc_params] using h
    | busDone => exact ⟨[], _, rfl, .inr (.inl ⟨es, rfl, rfl⟩)⟩
    | busErr left => exact ⟨[], _, rfl, .inr (.inr (.inl ⟨left, es, rfl, rfl⟩))⟩
    | wait => exact ⟨[], _, rfl, .inr (.inr (.inr (.inl ⟨es, rfl, rfl⟩)))⟩
    | rst left => exact ⟨[], _, rfl, .inr (.inr (.inr (.inr ⟨left, es, rfl, rfl⟩)))⟩

/-- The state in which the command goes on after transaction `op` at `f` completed with `rest` of the script left. -/
def State.afterTxn (s : State) (f : Field) (op : BusOp) (rest : List EnvEvent) : State :=
  (((s.busEffect f op).logTxn ⟨busRequest s.params f op, false⟩).setEnv rest).passTxn (s.busByte f op)

/-- Everything transaction `n` of a command can do. -/
theorem busAccess_cases {n : Nat} {f : Field} {op : BusOp} {s t : State} {k : Byte → State → Result}
    (h : busAccess n f op s k = .next t) :
    (∃ b, s.got[n]? = some b ∧ k b s = .next t) ∨
    (s.got[n]? = none ∧ ∃ xs tail, s.env = stepEvents xs ++ tail ∧
      ((scriptOver tail ∧ k ((s.rtcSteps xs).busByte f op) ((s.rtcSteps xs).afterTxn f op tail) = .next t) ∨
       (∃ es, tail = .busDone :: es ∧ k ((s.rtcSteps xs).busByte f op) ((s.rtcSteps xs).afterTxn f op es) = .next t) ∨
       (∃ left es, tail = .busErr left :: es ∧ raise .bus
          ((((s.rtcSteps xs).busSpoil f op left).logTxn ⟨busRequest s.params f op, true⟩).setEnv es) = .next t) ∨
       (∃ es, tail = .wait :: es ∧ t = ((s.rtcSteps xs).setEnv es).holdReq (busRequest s.params f op)) ∨
       (∃ left es, tail = .rst left :: es ∧ t = (((s.rtcSteps xs).busSpoil f op left).setEnv es).resetBlock))) := by
  unfold busAccess at h
  split at h
  · next b hb => exact .inl ⟨b, hb, h⟩
  · next hn =>
    refine .inr ⟨hn, ?_⟩
    obtain ⟨xs, tail, he, hc⟩ := awaitBus_cases f op s.env s
    refine ⟨xs, tail, he, ?_⟩
    rcases hc with ⟨ht, hc⟩ | ⟨es, ht, hc⟩ | ⟨left, es, ht, hc⟩ | ⟨es, ht, hc⟩ | ⟨left, es, ht, hc⟩ <;> rw [hc] at h
    · exact .inl ⟨ht, h⟩
    · exact .inr (.inl ⟨es, ht, h⟩)
    · exact .inr (.inr (.inl ⟨left, es, ht, h⟩))
    · refine .inr (.inr (.inr (.inl ⟨es, ht, ?_⟩)))
      simpa [eq_comm] using h
    · refine .inr (.inr (.inr (.inr ⟨left, es, ht, ?_⟩)))
      simpa [eq_comm] using h

/-! ### A quiet environment -/

theorem quietFor_drop {n : Nat} {env : List EnvEvent} (h : quietFor (n + 1) env = true) : quietFor n (env.drop 1) = true := by
  cases env with
  | nil => cases n <;> rfl
  | cons e es => cases e <;> simp_all [quietFor]

theorem awaitBus_quiet {n : Nat} {env : List EnvEvent} (h : quietFor (n + 1) env = true) (f : Field) (op : BusOp) (s : State) :
    awaitBus f op env s = completeTxn f op (env.drop 1) s := by
  cases env with
  | nil => rfl
  | cons e es => cases e <;> simp_all [quietFor, awaitBus]

/-- A transaction that is issued now and that the environment completes at once. -/
theorem busAccess_quiet {m n : Nat} {f : Field} {op : BusOp} {s : State} {k : Byte → State → Result}
    (hn : s.got[n]? = none) (hq : quietFor (m + 1) s.env = true) :
    busAccess n f op s k = k (s.busByte f op) (s.afterTxn f op (s.env.drop 1)) := by
  unfold busAccess
  rw [hn, awaitBus_quiet hq]
  rfl

/-! ### After a transaction -/

@[simp] theorem State.afterTxn_params (s : State) (f : Field) (op : BusOp) (es : List EnvEvent) :
    (s.afterTxn f op es).params = s.params := by simp [State.afterTxn]

@[simp] theorem State.afterTxn_slots (s : State) (f : Field) (op : BusOp) (es : List EnvEvent) :
    (s.afterTxn f op es).slots = s.slots := by simp [State.afterTxn]

@[simp] theorem State.afterTxn_outHour (s : State) (f : Field) (op : BusOp) (es : List EnvEvent) :
    (s.afterTxn f op es).outHour = s.outHour := by simp [State.afterTxn]

@[simp] theorem State.afterTxn_outMin (s : State) (f : Field) (op : BusOp) (es : List EnvEvent) :
    (s.afterTxn f op es).outMin = s.outMin := by simp [State.afterTxn]

@[simp] theorem State.afterTxn_pwm (s : State) (f : Field) (op : BusOp) (es : List EnvEvent) :
    (s.afterTxn f op es).pwm = s.pwm := by simp [State.afterTxn]

@[simp] theorem State.afterTxn_result (s : State) (f : Field) (op : BusOp) (es : List EnvEvent) :
    (s.afterTxn f op es).result = s.result := by simp [State.afterTxn]

@[simp] theorem State.afterTxn_flags (s : State) (f : Field) (op : BusOp) (es : List EnvEvent) :
    (s.afterTxn f op es).flags = s.flags := by simp [State.afterTxn]

@[simp] theorem State.afterTxn_host (s : State) (f : Field) (op : BusOp) (es : List EnvEvent) :
    (s.afterTxn f op es).host = s.host := by simp [State.afterTxn]

@[simp] theorem State.afterTxn_env (s : State) (f : Field) (op : BusOp) (es : List EnvEvent) :
    (s.afterTxn f op es).env = es := by simp [State.afterTxn]

@[simp] theorem State.afterTxn_busLog (s : State) (f : Field) (op : BusOp) (es : List EnvEvent) :
    (s.afterTxn f op es).busLog = s.busLog ++ [⟨busRequest s.params f op, false⟩] := by simp [State.afterTxn]

@[simp] theorem State.afterTxn_rtc (s : State) (f : Field) (op : BusOp) (es : List EnvEvent) :
    (s.afterTxn f op es).rtc = (s.busEffect f op).rtc := by simp [State.afterTxn]

theorem State.afterTxn_phase {s : State} {cmd : Word} {now : Timestamp} {got : List Byte} {req : Option BusReq}
    (h : s.phase = .exec cmd now got req) (f : Field) (op : BusOp) (es : List EnvEvent) :
    (s.afterTxn f op es).phase = .exec cmd now (got ++ [s.busByte f op]) none := by
  unfold State.afterTxn
  exact State.passTxn_phase _ _ cmd now got req (by simpa using h)

theorem State.afterTxn_got {s : State} {cmd : Word} {now : Timestamp} {got : List Byte} {req : Option BusReq}
    (h : s.phase = .exec cmd now got req) (f : Field) (op : BusOp) (es : List EnvEvent) :
    (s.afterTxn f op es).got = got ++ [s.busByte f op] :=
  State.got_exec _ _ _ _ _ (State.afterTxn_phase h f op es)

/-- A read leaves every register as it was (20_memory.md R30). -/
@[simp] theorem State.afterTxn_read_rtcByte (s : State) (f g : Field) (es : List EnvEvent) :
    (s.afterTxn f .read es).rtcByte g = s.rtcByte g := by
  simp [State.rtcByte]

/-- A quiet `MemRead`, issued as the command's next transaction. -/
theorem memRead_quiet {m n : Nat} {f : Field} {s : State} {k : Byte → State → Result} {cmd : Word} {now : Timestamp}
    {got : List Byte} {req : Option BusReq} (h : s.phase = .exec cmd now got req) (hl : got.length = n)
    (hq : quietFor (m + 1) s.env = true) :
    memRead n f s k = k (s.rtcByte f) (s.afterTxn f .read (s.env.drop 1)) := by
  unfold memRead
  exact busAccess_quiet (by rw [State.got_exec _ _ _ _ _ h]; simp [← hl]) hq

/-- A quiet `MemWrite`, issued as the command's next transaction. -/
theorem memWrite_quiet {m n : Nat} {f : Field} {v : Byte} {s : State} {k : State → Result} {cmd : Word} {now : Timestamp}
    {got : List Byte} {req : Option BusReq} (h : s.phase = .exec cmd now got req) (hl : got.length = n)
    (hq : quietFor (m + 1) s.env = true) :
    memWrite n f v s k = k (s.afterTxn f (.write v) (s.env.drop 1)) := by
  unfold memWrite
  rw [busAccess_quiet (by rw [State.got_exec _ _ _ _ _ h]; simp [← hl]) hq]

/-! ### The end of a command -/

@[simp] theorem finish_next (s t : State) : finish s = .next t ↔ t = s.setPhase .idle := by
  simp [finish, eq_comm]

@[simp] theorem raise_next (e : ErrorKind) (s t : State) :
    raise e s = .next t ↔ t = (s.setFlags (s.flags.withError e)).setPhase .idle := by
  simp [raise, eq_comm]

/-- A meaning never faults and never is refused when what follows its transactions does not. -/
theorem busAccess_total (n : Nat) (f : Field) (op : BusOp) (s : State) (k : Byte → State → Result)
    (h : ∀ b t, ∃ u, k b t = .next u) : ∃ u, busAccess n f op s k = .next u := by
  unfold busAccess
  split
  · exact h _ _
  · split
    · exact h _ _
    · exact ⟨_, rfl⟩
    · exact ⟨_, rfl⟩
    · exact ⟨_, rfl⟩

end Sys2Proof.Machine
end

