-- ==== Sys2Proof/Laws/Codec.lean ====
section
/-! SUPPORT. The ranges of the codec and display functions (40_codec.md R44, 41_display.md R50, R52, R54, R56), and the debouncer's
one case split. -/

namespace Sys2Proof.Machine

theorem decodeField_hour_le (p : Byte) : decodeField .hour p ≤ 45 := by
  have h1 := (p.extractLsb' 4 2).isLt
  have h2 := (p.extractLsb' 0 4).isLt
  simp only [decodeField]; omega

theorem decodeField_le (f : Field) (p : Byte) : decodeField f p ≤ 85 := by
  cases f with
  | hour => exact Nat.le_trans (decodeField_hour_le p) (by omega)
  | min =>
    have h1 := (p.extractLsb' 4 3).isLt
    have h2 := (p.extractLsb' 0 4).isLt
    simp only [decodeField]; omega
  | sec =>
    have h1 := ((p &&& 0x7F).extractLsb' 4 3).isLt
    have h2 := (p.extractLsb' 0 4).isLt
    simp only [decodeField]; omega

theorem to12Hour_le (h : Nat) : to12Hour h ≤ 12 := by
  unfold to12Hour; split
  · omega
  · split <;> omega

theorem hourBank_toNat (h : Nat) : (hourBank h).toNat = to12Hour h := by
  have := to12Hour_le h
  simp [hourBank]; omega

theorem minuteBank_toNat {m : Nat} (h : m ≤ 59) : (minuteBank m).toNat = m := by
  simp [minuteBank]; omega

theorem brightness_num_le (p : Params) {s : Nat} (h : s ≤ 59) :
    (2 * s * p.pwmMax.toNat + 59) / 118 ≤ p.pwmMax.toNat := by
  have h1 : s * p.pwmMax.toNat ≤ 59 * p.pwmMax.toNat := Nat.mul_le_mul_right _ h
  rw [Nat.mul_assoc]; omega

/-- The value of a brightness whose second is in range: nothing is cut off by the 16 bits (41_display.md R56). -/
theorem brightness_toNat (p : Params) {s : Nat} (h : s ≤ 59) :
    (brightness p s).toNat = (2 * s * p.pwmMax.toNat + 59) / 118 := by
  have := brightness_num_le p h
  have := p.pwmMax.isLt
  simp only [brightness, BitVec.toNat_ofNat]; omega

theorem brightness_le (p : Params) {s : Nat} (h : s ≤ 59) : (brightness p s).toNat ≤ p.pwmMax.toNat :=
  brightness_toNat p h ▸ brightness_num_le p h

theorem HourWrap.value_le (w : HourWrap) : w.value ≤ 25 := by cases w <;> decide

/-! ### Debouncer -/

theorem debounce_accepted {src : Source} {now : Timestamp} {s : State} (h : accepts s.params (s.slotOf src) now = true) :
    debounce src now s = (true, (s.recordAccepted src now).setAcc true) := by
  simp [debounce, h]

theorem debounce_dropped {src : Source} {now : Timestamp} {s : State} (h : accepts s.params (s.slotOf src) now = false) :
    debounce src now s = (false, s.setAcc false) := by
  simp [debounce, h]

theorem slotNumber_lt (p : Params) (src : Source) : slotNumber p src < 3 := by
  unfold slotNumber; split
  · omega
  · cases src <;> decide

theorem Slots.get_put {n : Nat} (h : n < 3) (x : Slots) (m : Nat) (v : Slot) (hm : m < 3) :
    (x.put n v).get m = if m = n then v else x.get m := by
  obtain rfl | rfl | rfl : n = 0 ∨ n = 1 ∨ n = 2 := by omega
  all_goals obtain rfl | rfl | rfl : m = 0 ∨ m = 1 ∨ m = 2 := by omega
  all_goals simp [Slots.get, Slots.put]

/-- What BTNH, BTNM and SYNC do at their gate, when they begin. -/
theorem ifAccepted_begin {src : Source} {s : State} {k : State → Result} (h : s.pendingReq = none) :
    ifAccepted src s k =
      if accepts s.params (s.slotOf src) s.now then k ((s.recordAccepted src s.now).setAcc true)
      else finish (s.setAcc false) := by
  unfold ifAccepted
  rw [h]
  by_cases ha : accepts s.params (s.slotOf src) s.now = true <;> simp [debounce, ha]

/-- A command that waits at a transaction passes its gate. -/
theorem ifAccepted_resumed {src : Source} {s : State} {k : State → Result} {r : BusReq} (h : s.pendingReq = some r) :
    ifAccepted src s k = k s := by
  unfold ifAccepted
  rw [h]

end Sys2Proof.Machine
end

