-- ==== Sys2Proof/Laws/Adjust.lean ====
section
/-! SUPPORT. What `incHour` does when its transactions are quiet (43_adjust.md R70). -/

namespace Sys2Proof.Machine

/-- The hour after `h`, wrapping at `HOUR_WRAP` (43_adjust.md R70). -/
def hourAfter (p : Params) (h : Nat) : Nat := if h + 1 = p.hourWrap.value then 0 else h + 1

theorem incHour_quiet {n m : Nat} {s : State} {k : State → Result} {cmd : Word} {now : Timestamp} {got : List Byte}
    {req : Option BusReq} (h : s.phase = .exec cmd now got req) (hl : got.length = n)
    (hd : decodeField .hour (s.rtcByte .hour) < s.params.hourWrap.value) (hq : quietFor (m + 2) s.env = true) :
    incHour n s k =
      k ((s.afterTxn .hour .read (s.env.drop 1)).afterTxn .hour
        (.write (encodeField (hourAfter s.params (decodeField .hour (s.rtcByte .hour))))) (s.env.drop 2)) := by
  unfold incHour
  rw [memRead_quiet h hl hq]
  simp only [State.afterTxn_params, Nat.not_le.mpr hd, if_false]
  rw [memWrite_quiet (State.afterTxn_phase h _ _ _) (by simp [hl]) (m := m) (by simpa using quietFor_drop hq)]
  simp [hourAfter]

theorem incHour_outOfDomain {n m : Nat} {s : State} {k : State → Result} {cmd : Word} {now : Timestamp} {got : List Byte}
    {req : Option BusReq} (h : s.phase = .exec cmd now got req) (hl : got.length = n)
    (hd : s.params.hourWrap.value ≤ decodeField .hour (s.rtcByte .hour)) (hq : quietFor (m + 1) s.env = true) :
    incHour n s k = raise .domain (s.afterTxn .hour .read (s.env.drop 1)) := by
  unfold incHour
  rw [memRead_quiet h hl hq]
  simp [hd]

theorem quietFor_drop_two {n : Nat} {env : List EnvEvent} (h : quietFor (n + 2) env = true) :
    quietFor n (env.drop 2) = true := by
  have := quietFor_drop (quietFor_drop h)
  rwa [List.drop_drop] at this

/-- `incMinute` without a carry, quiet. -/
theorem incMinute_noCarry {m : Nat} {s : State} {cmd : Word} {now : Timestamp} {req : Option BusReq}
    (h : s.phase = .exec cmd now [] req) (hd : decodeField .min (s.rtcByte .min) < 59)
    (hq : quietFor (m + 2) s.env = true) :
    incMinute s = finish ((s.afterTxn .min .read (s.env.drop 1)).afterTxn .min
      (.write (encodeField (decodeField .min (s.rtcByte .min) + 1))) (s.env.drop 2)) := by
  unfold incMinute
  rw [memRead_quiet (n := 0) h rfl hq]
  have h1 : ¬ 59 < decodeField .min (s.rtcByte .min) := by omega
  have h2 : ¬ decodeField .min (s.rtcByte .min) + 1 = 60 := by omega
  simp only [h1, h2, if_false]
  rw [memWrite_quiet (n := 1) (State.afterTxn_phase h _ _ _) rfl (m := m) (by simpa using quietFor_drop hq)]
  simp

/-- `incMinute` on a minute out of domain, quiet. -/
theorem incMinute_outOfDomain {m : Nat} {s : State} {cmd : Word} {now : Timestamp} {req : Option BusReq}
    (h : s.phase = .exec cmd now [] req) (hd : 59 < decodeField .min (s.rtcByte .min))
    (hq : quietFor (m + 1) s.env = true) :
    incMinute s = raise .domain (s.afterTxn .min .read (s.env.drop 1)) := by
  unfold incMinute
  rw [memRead_quiet (n := 0) h rfl hq]
  simp [hd]

/-- `incMinute` with a carry whose hour is in domain, quiet. -/
theorem incMinute_carry {m : Nat} {s : State} {cmd : Word} {now : Timestamp} {req : Option BusReq}
    (h : s.phase = .exec cmd now [] req) (hm : decodeField .min (s.rtcByte .min) = 59)
    (hd : decodeField .hour (s.rtcByte .hour) < s.params.hourWrap.value) (hq : quietFor (m + 4) s.env = true) :
    incMinute s = finish ((((s.afterTxn .min .read (s.env.drop 1)).afterTxn .hour .read (s.env.drop 2)).afterTxn .hour
      (.write (encodeField (hourAfter s.params (decodeField .hour (s.rtcByte .hour))))) (s.env.drop 3)).afterTxn .min
      (.write (encodeField 0)) (s.env.drop 4)) := by
  unfold incMinute
  rw [memRead_quiet (n := 0) (m := m + 3) h rfl hq]
  simp only [hm, Nat.lt_irrefl, if_false, if_true]
  have p1 := State.afterTxn_phase h .min .read (s.env.drop 1)
  rw [incHour_quiet (n := 1) (m := m + 1) p1 rfl (by simpa using hd) (by simpa using quietFor_drop hq)]
  rw [memWrite_quiet (n := 3) (m := m) (State.afterTxn_phase (State.afterTxn_phase p1 _ _ _) _ _ _) rfl
    (by simpa using quietFor_drop_two (quietFor_drop hq))]
  simp

/-- `incMinute` with a carry whose hour is out of domain, quiet. -/
theorem incMinute_carry_outOfDomain {m : Nat} {s : State} {cmd : Word} {now : Timestamp} {req : Option BusReq}
    (h : s.phase = .exec cmd now [] req) (hm : decodeField .min (s.rtcByte .min) = 59)
    (hd : s.params.hourWrap.value ≤ decodeField .hour (s.rtcByte .hour)) (hq : quietFor (m + 2) s.env = true) :
    incMinute s = raise .domain ((s.afterTxn .min .read (s.env.drop 1)).afterTxn .hour .read (s.env.drop 2)) := by
  unfold incMinute
  rw [memRead_quiet (n := 0) (m := m + 1) h rfl hq]
  simp only [hm, Nat.lt_irrefl, if_false, if_true]
  have p1 := State.afterTxn_phase h .min .read (s.env.drop 1)
  rw [incHour_outOfDomain (n := 1) (m := m) p1 rfl (by simpa using hd) (by simpa using quietFor_drop hq)]
  simp

end Sys2Proof.Machine
end

