-- ==== Sys2Proof/Laws/PerInstr.lean ====
section
/-! SUPPORT. A fact about every command as syntax, one lemma per constructor of Instr: its fields pass every check of
30_encoding.md R39, and its word has exactly those fields (R35). -/

namespace Sys2Proof.Laws

/-- The bits of a word, field by field. -/
theorem wordOf_getLsbD (f : CmdFields) (k : Nat) : (wordOf f).getLsbD k =
    if k < 8 then f.c.getLsbD k else if k - 8 < 8 then f.b.getLsbD (k - 8)
    else if k - 8 - 8 < 8 then f.a.getLsbD (k - 8 - 8) else if k - 8 - 8 - 8 < 2 then f.sel.getLsbD (k - 8 - 8 - 8)
    else if k - 8 - 8 - 8 - 2 < 2 then f.rsv.getLsbD (k - 8 - 8 - 8 - 2) else f.op.getLsbD (k - 8 - 8 - 8 - 2 - 2) := by
  have h : BitVec.getLsbD (w := 4 + 2 + 2 + 8 + 8 + 8) (f.op ++ f.rsv ++ f.sel ++ f.a ++ f.b ++ f.c) k =
      (wordOf f).getLsbD k := rfl
  rw [← h]
  simp only [BitVec.getLsbD_append]

/-- The fields of the word with given fields are those fields (30_encoding.md R35). -/
theorem fieldsOf_wordOf (f : CmdFields) : fieldsOf (wordOf f) = f := by
  obtain ⟨op, rsv, sel, a, b, c⟩ := f
  simp only [fieldsOf, CmdFields.mk.injEq]
  refine ⟨?_, ?_, ?_, ?_, ?_, ?_⟩ <;> apply BitVec.eq_of_getLsbD_eq <;> intro k hk <;>
    simp only [BitVec.getLsbD_extractLsb', wordOf_getLsbD] <;> interval_cases k <;> simp

namespace EncodedFields

/-- The command's fields are well formed and are what its word holds. -/
def Statement (i : Instr) : Prop := i.WellFormed ∧ fieldsOf (encode i) = i.fields

theorem of_wellFormed {i : Instr} (h : i.WellFormed) : Statement i := ⟨h, fieldsOf_wordOf i.fields⟩

theorem decHour (c : Byte) : Statement (.decHour c) := of_wellFormed rfl
theorem decMin (c : Byte) : Statement (.decMin c) := of_wellFormed rfl
theorem decSec (c : Byte) : Statement (.decSec c) := of_wellFormed rfl
theorem enc (c : Byte) : Statement (.enc c) := of_wellFormed rfl
theorem to12 (c : Byte) : Statement (.to12 c) := of_wellFormed rfl
theorem hled (c : Byte) : Statement (.hled c) := of_wellFormed rfl
theorem mled (c : Byte) : Statement (.mled c) := of_wellFormed rfl
theorem brt (c : Byte) : Statement (.brt c) := of_wellFormed rfl
theorem debHour : Statement .debHour := of_wellFormed rfl
theorem debMin : Statement .debMin := of_wellFormed rfl
theorem debSync : Statement .debSync := of_wellFormed rfl
theorem inch : Statement .inch := of_wellFormed rfl
theorem incm : Statement .incm := of_wellFormed rfl
theorem btnh : Statement .btnh := of_wellFormed rfl
theorem btnm : Statement .btnm := of_wellFormed rfl
theorem sync (a b c : Byte) : Statement (.sync a b c) := of_wellFormed rfl
theorem refresh : Statement .refresh := of_wellFormed rfl

end EncodedFields

end Sys2Proof.Laws
end

