-- ==== Sys2Proof/Laws/Decode.lean ====
section
/-! SUPPORT. The decoder said once: which row a word selects (30_encoding.md R38), and the fields of a masked word (R35). -/

namespace Sys2Proof.Laws

theorem find_unique {α : Type} {R : α → α → Prop} {p : α → Bool} (hR : ∀ a b, R a b → p a = true → p b = true → False) :
    ∀ {l : List α} {r : α}, l.Pairwise R → r ∈ l → p r = true → l.find? p = some r
  | a :: l, r, hp, hr, hs => by
    rcases List.mem_cons.mp hr with rfl | h
    · simp [hs]
    · have : p a = false := by
        by_contra hc
        exact hR a r (List.rel_of_pairwise_cons hp h) (by simpa using hc) hs
      simp [this]
      exact find_unique hR hp.of_cons h hs

theorem selects_top {w : Word} {r : OpcodeRow} (hr : r ∈ opcodeTable) (h : r.selects w = true) :
    w &&& 0xFF000000 = r.pattern &&& 0xFF000000 := by
  have hm : ∀ r ∈ opcodeTable, r.mask &&& 0xFF000000 = 0xFF000000 := by decide
  have h' : w &&& r.mask = r.pattern := by simpa [OpcodeRow.selects] using h
  rw [← h', BitVec.and_assoc, hm r hr]

/-- No two rows select the same word. -/
theorem find_row {w : Word} {r : OpcodeRow} (hr : r ∈ opcodeTable) (h : r.selects w = true) :
    opcodeTable.find? (·.selects w) = some r := by
  refine find_unique (R := fun r s => r.pattern &&& 0xFF000000 ≠ s.pattern &&& 0xFF000000 ∧ r ∈ opcodeTable ∧
    s ∈ opcodeTable) ?_ ?_ hr h
  · intro a b ⟨hab, ha, hb⟩ h1 h2
    exact hab ((selects_top ha h1).symm.trans (selects_top hb h2))
  · have h1 : opcodeTable.Pairwise (fun r s => r.pattern &&& 0xFF000000 ≠ s.pattern &&& 0xFF000000) := by decide
    exact List.Pairwise.imp_of_mem (fun ha hb hab => ⟨hab, ha, hb⟩) h1

/-- A word decodes to a command exactly when a row of the table selects it, and then to that row's command. -/
theorem decodeCmd_ok_iff (w : Word) (i : Instr) : decodeCmd w = .ok i ↔ ∃ r ∈ opcodeTable, r.selects w = true ∧
    i = r.build (w.extractLsb' 16 8) (w.extractLsb' 8 8) (w.extractLsb' 0 8) := by
  constructor
  · intro h
    unfold decodeCmd at h
    split at h
    · next r hr =>
      exact ⟨r, List.mem_of_find?_eq_some hr, List.find?_some (p := fun r : OpcodeRow => r.selects w) hr, by simpa [eq_comm] using h⟩
    · cases h
  · rintro ⟨r, hr, hs, rfl⟩
    unfold decodeCmd
    rw [find_row hr hs]

/-- The word is made of its fields (30_encoding.md R35). -/
theorem wordOf_fieldsOf (w : Word) : wordOf (fieldsOf w) = w := by
  apply BitVec.eq_of_getLsbD_eq
  intro k hk
  rw [wordOf_getLsbD]
  simp only [fieldsOf, BitVec.getLsbD_extractLsb']
  interval_cases k <;> simp

theorem fieldsOf_mask24 {w P : Word} (h : w &&& 0xFF000000 = P) :
    (fieldsOf w).op = (fieldsOf P).op ∧ (fieldsOf w).rsv = (fieldsOf P).rsv ∧ (fieldsOf w).sel = (fieldsOf P).sel := by
  subst h
  refine ⟨?_, ?_, ?_⟩ <;> apply BitVec.eq_of_getLsbD_eq <;> intro k hk <;>
    simp only [fieldsOf, BitVec.getLsbD_extractLsb', BitVec.getLsbD_and] <;> interval_cases k <;> simp

theorem fieldsOf_mask8 {w P : Word} (h : w &&& 0xFFFFFF00 = P) :
    (fieldsOf w).op = (fieldsOf P).op ∧ (fieldsOf w).rsv = (fieldsOf P).rsv ∧ (fieldsOf w).sel = (fieldsOf P).sel ∧
      (fieldsOf w).a = (fieldsOf P).a ∧ (fieldsOf w).b = (fieldsOf P).b := by
  subst h
  refine ⟨?_, ?_, ?_, ?_, ?_⟩ <;> apply BitVec.eq_of_getLsbD_eq <;> intro k hk <;>
    simp only [fieldsOf, BitVec.getLsbD_extractLsb', BitVec.getLsbD_and] <;> interval_cases k <;> simp

theorem wordOf_mask8 (f : CmdFields) : wordOf f &&& 0xFFFFFF00 = wordOf { f with c := 0 } := by
  apply BitVec.eq_of_getLsbD_eq
  intro k hk
  rw [BitVec.getLsbD_and, wordOf_getLsbD, wordOf_getLsbD]
  interval_cases k <;> simp

theorem wordOf_mask24 (f : CmdFields) : wordOf f &&& 0xFF000000 = wordOf { f with c := 0, b := 0, a := 0 } := by
  apply BitVec.eq_of_getLsbD_eq
  intro k hk
  rw [BitVec.getLsbD_and, wordOf_getLsbD, wordOf_getLsbD]
  interval_cases k <;> simp

end Sys2Proof.Laws
end

