-- ==== Sys2Proof/Laws/Relation.lean ====
section
/-! SUPPORT. One induction for every statement of the form "whatever the bus does, a command relates the state before it to the
state after it": a relation that every single update respects is respected by every meaning. And the totality of the shared
operations: none of them stops when what follows it does not. -/

namespace Sys2Proof.Machine

/-- The lines of REFRESH after its reads either raise DomainError or update the three outputs in range (44_clockloop.md R80). -/
theorem showTime_next {a b c : Byte} {s t : State} (h : showTime a b c s = .next t) :
    t = (s.setFlags (s.flags.withError .domain)).setPhase .idle ∨
    (decodeField .min b ≤ 59 ∧ decodeField .sec c ≤ 59 ∧
      t = (s.setOutputs (hourBank (decodeField .hour a)) (minuteBank (decodeField .min b))
        (brightness s.params (decodeField .sec c))).setPhase .idle) := by
  unfold showTime at h
  simp only at h
  split at h
  · exact .inl ((raise_next _ _ _).mp h)
  · split at h
    · exact .inl ((raise_next _ _ _).mp h)
    · exact .inr ⟨by omega, by omega, (finish_next _ _).mp h⟩

/-- The relation `R` between states respects every update of a bus command, when the script meets `E` and only registers in
`W` are written. -/
structure BusRel (E : List EnvEvent → Prop) (W : Field → Prop) (R : State → State → Prop) : Prop where
  refl : ∀ s, R s s
  trans : ∀ {s t u}, R s t → R t u → R s u
  suffix : ∀ {a b}, E (a ++ b) → E b
  steps : ∀ (s : State) xs tail, E (stepEvents xs ++ tail) → R s (s.rtcSteps xs)
  write : ∀ (s : State) f v, W f → R s (s.setRtc f v)
  log : ∀ (s : State) f op b, R s (s.logTxn ⟨busRequest s.params f op, b⟩)
  env : ∀ (s : State) e, R s (s.setEnv e)
  phase : ∀ (s : State) p, R s (s.setPhase p)
  bus : ∀ (s : State), R s (s.setFlags (s.flags.withError .bus))
  dom : ∀ (s : State), R s (s.setFlags (s.flags.withError .domain))
  rst : ∀ (s : State) xs l es, E (stepEvents xs ++ .rst l :: es) → R s s.resetBlock

namespace BusRel

variable {E : List EnvEvent → Prop} {W : Field → Prop} {R : State → State → Prop} (B : BusRel E W R)
include B

theorem pass (s : State) (b : Byte) : R s (s.passTxn b) := by
  unfold State.passTxn
  split
  · exact B.refl _
  · exact B.phase _ _

theorem effect (s : State) (f : Field) (op : BusOp) (h : op = .read ∨ W f) : R s (s.busEffect f op) := by
  cases op with
  | read => exact B.refl _
  | write v => exact B.write _ _ _ (h.resolve_left (by simp))

theorem spoil (s : State) (f : Field) (op : BusOp) (l : Byte) (h : op = .read ∨ W f) : R s (s.busSpoil f op l) := by
  cases op with
  | read => exact B.refl _
  | write v => exact B.write _ _ _ (h.resolve_left (by simp))

theorem after (s : State) (f : Field) (op : BusOp) (es : List EnvEvent) (h : op = .read ∨ W f) :
    R s (s.afterTxn f op es) := by
  unfold State.afterTxn
  refine B.trans (B.trans (B.trans (B.effect s f op h) ?_) (B.env _ _)) (B.pass _ _)
  have := B.log (s.busEffect f op) f op false
  simpa using this

theorem fin {s t : State} (h : finish s = .next t) : R s t := by
  rw [finish_next] at h
  subst h
  exact B.phase _ _

theorem domErr {s t : State} (h : raise .domain s = .next t) : R s t := by
  rw [raise_next] at h
  subst h
  exact B.trans (B.dom _) (B.phase _ _)

theorem busErr {s t : State} (h : raise .bus s = .next t) : R s t := by
  rw [raise_next] at h
  subst h
  exact B.trans (B.bus _) (B.phase _ _)

theorem access {n : Nat} {f : Field} {op : BusOp} {s t : State} {k : Byte → State → Result} (hop : op = .read ∨ W f)
    (hE : E s.env) (h : busAccess n f op s k = .next t) (hk : ∀ b u, E u.env → k b u = .next t → R u t) : R s t := by
  rcases busAccess_cases h with ⟨b, _, h⟩ | ⟨_, xs, tail, he, h⟩
  · exact hk b s hE h
  · rw [he] at hE
    refine B.trans (B.steps s xs tail hE) ?_
    rcases h with ⟨ht, h⟩ | ⟨es, ht, h⟩ | ⟨left, es, ht, h⟩ | ⟨es, ht, h⟩ | ⟨left, es, ht, h⟩
    · exact B.trans (B.after _ f op tail hop) (hk _ _ (by simpa using B.suffix hE) h)
    · subst ht
      exact B.trans (B.after _ f op es hop) (hk _ _ (by simpa using B.suffix (a := [.busDone]) (B.suffix hE)) h)
    · refine B.trans (B.trans (B.trans (B.spoil _ f op left hop) ?_) (B.env _ _)) (B.busErr h)
      have := B.log ((s.rtcSteps xs).busSpoil f op left) f op true
      simpa using this
    · subst h
      exact B.trans (B.env _ _) (B.phase _ _)
    · subst ht; subst h
      exact B.trans (B.trans (B.spoil _ f op left hop) (B.env _ _)) (B.rst _ _ _ _ hE)

theorem incHour {n : Nat} {s t : State} {k : State → Result} (hW : W .hour) (hE : E s.env)
    (h : Machine.incHour n s k = .next t) (hk : ∀ u, E u.env → k u = .next t → R u t) : R s t := by
  unfold Machine.incHour memRead memWrite at h
  refine B.access (.inl rfl) hE h fun b u hE h => ?_
  simp only at h
  split at h
  · exact B.domErr h
  · exact B.access (.inr hW) hE h fun b u hE h => hk u hE h

theorem incMinute {s t : State} (hH : W .hour) (hM : W .min) (hE : E s.env) (h : Machine.incMinute s = .next t) :
    R s t := by
  unfold Machine.incMinute memRead memWrite at h
  refine B.access (.inl rfl) hE h fun b u hE h => ?_
  simp only at h
  split at h
  · exact B.domErr h
  · split at h
    · exact B.incHour hH hE h fun u hE h => B.access (.inr hM) hE h fun b u hE h => B.fin h
    · exact B.access (.inr hM) hE h fun b u hE h => B.fin h

theorem syncWrites {hv m v : Nat} {s t : State} (hW : ∀ f, W f) (hE : E s.env)
    (h : Machine.syncWrites hv m v s = .next t) : R s t := by
  unfold Machine.syncWrites memWrite at h
  split at h
  · exact B.domErr h
  · split at h
    · exact B.domErr h
    · exact B.access (.inr (hW _)) hE h fun b u hE h => B.access (.inr (hW _)) hE h fun b u hE h =>
        B.access (.inr (hW _)) hE h fun b u hE h => B.fin h

theorem refresh {s t : State}
    (ho : ∀ (s : State) h m v, m ≤ 59 → v ≤ 59 → R s (s.setOutputs (hourBank h) (minuteBank m) (brightness s.params v)))
    (hE : E s.env) (h : execRefresh s = .next t) : R s t := by
  unfold execRefresh memRead at h
  refine B.access (.inl rfl) hE h fun b u hE h => B.access (.inl rfl) hE h fun b u hE h =>
    B.access (.inl rfl) hE h fun b u hE h => ?_
  rcases showTime_next h with rfl | ⟨hm, hv, rfl⟩
  · exact B.trans (B.dom _) (B.phase _ _)
  · exact B.trans (ho _ _ _ _ hm hv) (B.phase _ _)

/-- The gate of BTNH, BTNM and SYNC. -/
theorem ifAccepted {src : Source} {s t : State} {k : State → Result} (hacc : ∀ (s : State) b, R s (s.setAcc b))
    (hrec : ∀ (s : State) n, R s (s.recordAccepted src n)) (hE : E s.env) (h : Machine.ifAccepted src s k = .next t)
    (hk : ∀ u, E u.env → k u = .next t → R u t) : R s t := by
  cases hr : s.pendingReq with
  | some r =>
    rw [ifAccepted_resumed hr] at h
    exact hk s hE h
  | none =>
    rw [ifAccepted_begin hr] at h
    split at h
    · exact B.trans (B.trans (hrec _ _) (hacc _ _)) (hk _ (by simpa using hE) h)
    · exact B.trans (hacc _ _) (B.fin h)

theorem sync {a b c : Byte} {s t : State} (hW : ∀ f, W f) (hacc : ∀ (s : State) b, R s (s.setAcc b))
    (hrec : ∀ (s : State) n, R s (s.recordAccepted .sync n)) (hE : E s.env) (h : execSync a b c s = .next t) : R s t := by
  refine B.ifAccepted hacc hrec hE h fun u hE h => ?_
  split at h
  · exact B.syncWrites hW hE h
  · split at h
    · exact B.domErr h
    · exact B.syncWrites hW hE h

theorem btnh {s t : State} (hH : W .hour) (hacc : ∀ (s : State) b, R s (s.setAcc b))
    (hrec : ∀ (s : State) n, R s (s.recordAccepted .hourButton n)) (hE : E s.env) (h : execBtnh s = .next t) : R s t :=
  B.ifAccepted hacc hrec hE h fun _ hE h => B.incHour hH hE h fun _ _ h => B.fin h

theorem btnm {s t : State} (hH : W .hour) (hM : W .min) (hacc : ∀ (s : State) b, R s (s.setAcc b))
    (hrec : ∀ (s : State) n, R s (s.recordAccepted .minuteButton n)) (hE : E s.env) (h : execBtnm s = .next t) : R s t :=
  B.ifAccepted hacc hrec hE h fun _ hE h => B.incMinute hH hM hE h

theorem inch {s t : State} (hH : W .hour) (hE : E s.env) (h : execInch s = .next t) : R s t :=
  B.incHour hH hE h fun _ _ h => B.fin h

theorem incm {s t : State} (hH : W .hour) (hM : W .min) (hE : E s.env) (h : execIncm s = .next t) : R s t :=
  B.incMinute hH hM hE h

theorem setResult {s t : State} (v : BitVec 16) (hr : ∀ (s : State) v, R s (s.setResult v))
    (h : finish (s.setResult v) = .next t) : R s t :=
  B.trans (hr _ _) (B.fin h)

theorem deb {src : Source} {s t : State} (hr : ∀ (s : State) v, R s (s.setResult v))
    (hacc : ∀ (s : State) b, R s (s.setAcc b)) (hrec : ∀ (s : State) n, R s (s.recordAccepted src n))
    (h : debounceToResult src s = .next t) : R s t := by
  unfold debounceToResult at h
  cases ha : accepts s.params (s.slotOf src) s.now with
  | true =>
    rw [debounce_accepted ha] at h
    exact B.trans (B.trans (hrec _ _) (hacc _ _)) (B.setResult _ hr h)
  | false =>
    rw [debounce_dropped ha] at h
    exact B.trans (hacc _ _) (B.setResult _ hr h)

/-- Every command: `W` must hold of HOUR and MIN, of SEC for SYNC only, and outputs change in REFRESH only. -/
theorem exec {i : Instr} {s t : State} (hH : W .hour) (hM : W .min) (hS : ∀ a b c, i = .sync a b c → W .sec)
    (ho : i = .refresh → ∀ (s : State) h m v, m ≤ 59 → v ≤ 59 →
      R s (s.setOutputs (hourBank h) (minuteBank m) (brightness s.params v)))
    (hr : ∀ (s : State) v, R s (s.setResult v)) (hacc : ∀ (s : State) b, R s (s.setAcc b))
    (hrec : ∀ (s : State) src n, R s (s.recordAccepted src n)) (hE : E s.env) (h : Machine.exec i s = .next t) :
    R s t := by
  cases i <;> simp only [Machine.exec] at h
  case decHour c => exact B.setResult _ hr h
  case decMin c => exact B.setResult _ hr h
  case decSec c => exact B.setResult _ hr h
  case enc c =>
    unfold execEnc at h
    simp only at h
    split at h
    · exact B.domErr h
    · exact B.setResult _ hr h
  case to12 c => exact B.setResult _ hr h
  case hled c => exact B.setResult _ hr h
  case mled c =>
    unfold execMled at h
    simp only at h
    split at h
    · exact B.domErr h
    · exact B.setResult _ hr h
  case brt c =>
    unfold execBrt at h
    simp only at h
    split at h
    · exact B.domErr h
    · exact B.setResult _ hr h
  case debHour => exact B.deb hr hacc (fun s n => hrec s _ n) h
  case debMin => exact B.deb hr hacc (fun s n => hrec s _ n) h
  case debSync => exact B.deb hr hacc (fun s n => hrec s _ n) h
  case inch => exact B.inch hH hE h
  case incm => exact B.incm hH hM hE h
  case btnh => exact B.btnh hH hacc (fun s n => hrec s _ n) hE h
  case btnm => exact B.btnm hH hM hacc (fun s n => hrec s _ n) hE h
  case sync a b c =>
    exact B.sync (fun f => by cases f; exacts [hH, hM, hS _ _ _ rfl]) hacc (fun s n => hrec s _ n) hE h
  case refresh => exact B.refresh (ho rfl) hE h

end BusRel

/-! ### Totality of the shared operations -/

theorem finish_total (s : State) : ∃ u, finish s = .next u := ⟨_, rfl⟩

theorem incHour_total (n : Nat) (s : State) (k : State → Result) (h : ∀ t, ∃ u, k t = .next u) :
    ∃ u, incHour n s k = .next u := by
  unfold incHour memRead
  refine busAccess_total _ _ _ _ _ fun b t => ?_
  simp only
  split
  · exact ⟨_, rfl⟩
  · exact busAccess_total _ _ _ _ _ fun b t => h t

theorem incMinute_total (s : State) : ∃ u, incMinute s = .next u := by
  unfold incMinute memRead
  refine busAccess_total _ _ _ _ _ fun b t => ?_
  simp only
  split
  · exact ⟨_, rfl⟩
  · split
    · exact incHour_total _ _ _ fun t => busAccess_total _ _ _ _ _ fun b t => finish_total t
    · exact busAccess_total _ _ _ _ _ fun b t => finish_total t

theorem ifAccepted_total (src : Source) (s : State) (k : State → Result) (h : ∀ t, ∃ u, k t = .next u) :
    ∃ u, ifAccepted src s k = .next u := by
  unfold ifAccepted
  split
  · exact h _
  · split
    · exact h _
    · exact ⟨_, rfl⟩

theorem syncWrites_total (hv m v : Nat) (s : State) : ∃ u, syncWrites hv m v s = .next u := by
  unfold syncWrites
  split
  · exact ⟨_, rfl⟩
  · split
    · exact ⟨_, rfl⟩
    · exact busAccess_total _ _ _ _ _ fun b t => busAccess_total _ _ _ _ _ fun b t =>
        busAccess_total _ _ _ _ _ fun b t => finish_total t

theorem showTime_total (a b c : Byte) (s : State) : ∃ u, showTime a b c s = .next u := by
  unfold showTime
  simp only
  split
  · exact ⟨_, rfl⟩
  · split <;> exact ⟨_, rfl⟩

end Sys2Proof.Machine
end

