-- ==== Sys2Proof/Laws/Resume.lean ====
section
/-! SUPPORT. A command that waits and goes on (log 8, log 16): which request it waits at, and that it goes on as if it had not
waited. Both are said of a piece `m` of a meaning that comes after transactions `0` to `n - 1`. -/

namespace Sys2Proof.Machine

/-! ### The environment's script as an argument -/

theorem awaitBus_setEnv (f : Field) (op : BusOp) (env e : List EnvEvent) (s : State) :
    awaitBus f op env (s.setEnv e) = awaitBus f op env s := by
  induction env generalizing s with
  | nil => cases op <;> rfl
  | cons x es ih =>
    cases x with
    | take => cases op <;> rfl
    | rtcStep g v => exact ih (s.setRtc g v)
    | busDone => cases op <;> rfl
    | busErr left => cases op <;> rfl
    | wait => rfl
    | rst left => cases op <;> rfl

/-- The outcome with another control state: only a reset forgets it. -/
def BusOutcome.withPhase (p : Phase) : BusOutcome → BusOutcome
  | .done b s => .done b (s.setPhase p)
  | .failed s => .failed (s.setPhase p)
  | .pending s => .pending (s.setPhase p)
  | .aborted s => .aborted s

theorem awaitBus_setPhase (f : Field) (op : BusOp) (env : List EnvEvent) (p : Phase) (s : State) :
    awaitBus f op env (s.setPhase p) = (awaitBus f op env s).withPhase p := by
  induction env generalizing s with
  | nil => cases op <;> rfl
  | cons x es ih =>
    cases x with
    | take => cases op <;> rfl
    | rtcStep g v => exact ih (s.setRtc g v)
    | busDone => cases op <;> rfl
    | busErr left => cases op <;> rfl
    | wait => rfl
    | rst left => cases op <;> rfl

/-- The control state is not touched while a request is awaited. -/
def BusOutcome.phaseIs (p : Phase) : BusOutcome → Prop
  | .done _ s => s.phase = p
  | .failed s => s.phase = p
  | .pending s => s.phase = p
  | .aborted _ => True

theorem awaitBus_phase (f : Field) (op : BusOp) (env : List EnvEvent) (s : State) :
    (awaitBus f op env s).phaseIs s.phase := by
  induction env generalizing s with
  | nil => cases op <;> rfl
  | cons x es ih =>
    cases x with
    | take => cases op <;> rfl
    | rtcStep g v => exact ih (s.setRtc g v)
    | busDone => cases op <;> rfl
    | busErr left => cases op <;> rfl
    | wait => rfl
    | rst left => trivial

theorem State.passTxn_req (s : State) (b : Byte) {cmd : Word} {now : Timestamp} {got : List Byte} {req : Option BusReq}
    (h : s.phase = .exec cmd now got req) (req' : Option BusReq) :
    (s.setPhase (.exec cmd now got req')).passTxn b = s.passTxn b := by
  simp [State.passTxn, h, State.setPhase]

/-- A transaction that is issued now does not depend on the request the ports held before. -/
theorem busAccess_req {n : Nat} {f : Field} {op : BusOp} {s : State} {k : Byte → State → Result} {cmd : Word}
    {now : Timestamp} {got : List Byte} {req : Option BusReq} (h : s.phase = .exec cmd now got req)
    (hn : got[n]? = none) (req' : Option BusReq) :
    busAccess n f op (s.setPhase (.exec cmd now got req')) k = busAccess n f op s k := by
  unfold busAccess
  rw [State.got_exec _ _ _ _ _ h, State.got_exec (s.setPhase _) cmd now got req' rfl]
  simp only [hn, State.setPhase_env]
  rw [awaitBus_setPhase]
  have hp := awaitBus_phase f op s.env s
  revert hp
  cases awaitBus f op s.env s with
  | done b t =>
    intro hp
    simp only [BusOutcome.withPhase]
    rw [State.passTxn_req t b (hp.trans h)]
  | failed t => intro _; rfl
  | pending t =>
    intro hp
    have hp := hp.trans h
    simp [BusOutcome.withPhase, State.holdReq, State.setPhase, State.cmdWord, State.now, State.got, hp]
  | aborted t => intro _; rfl

/-- A request left waiting goes on as if the wait were not in the script. -/
theorem busAccess_wait {n : Nat} {f : Field} {op : BusOp} {s : State} {k : Byte → State → Result} {cmd : Word}
    {now : Timestamp} {got : List Byte} {req : Option BusReq} (h : s.phase = .exec cmd now got req)
    (hn : got[n]? = none) (xs : List (Field × Byte)) (es : List EnvEvent) (r : BusReq) :
    busAccess n f op (((s.rtcSteps xs).setEnv es).holdReq r) k = busAccess n f op (s.setEnv (stepEvents xs ++ es)) k := by
  have hp : ((s.rtcSteps xs).setEnv es).phase = .exec cmd now got req := by simpa using h
  have e : ((s.rtcSteps xs).setEnv es).holdReq r =
      ((s.rtcSteps xs).setEnv es).setPhase (.exec cmd now got (some r)) := by
    simp [State.holdReq, State.cmdWord, State.now, State.got, h]
  rw [e, busAccess_req hp hn]
  unfold busAccess
  rw [State.got_exec _ _ _ _ _ hp, State.got_exec (s.setEnv _) cmd now got req (by simpa using h)]
  simp only [hn, State.setEnv_env, awaitBus_setEnv, awaitBus_stepEvents]

theorem busAccess_recorded {n : Nat} {f : Field} {op : BusOp} {s : State} {k : Byte → State → Result} {cmd : Word}
    {now : Timestamp} {got : List Byte} {req : Option BusReq} {b : Byte} (h : s.phase = .exec cmd now got req)
    (hn : got[n]? = some b) : busAccess n f op s k = k b s := by
  unfold busAccess
  rw [State.got_exec _ _ _ _ _ h, hn]

/-- A transaction that the environment completes after some RTC steps. -/
theorem busAccess_done {n : Nat} {f : Field} {op : BusOp} {s : State} {k : Byte → State → Result} {cmd : Word}
    {now : Timestamp} {got : List Byte} {req : Option BusReq} (h : s.phase = .exec cmd now got req)
    (hn : got[n]? = none) {xs : List (Field × Byte)} {es : List EnvEvent} (he : s.env = stepEvents xs ++ .busDone :: es) :
    busAccess n f op s k = k ((s.rtcSteps xs).busByte f op) ((s.rtcSteps xs).afterTxn f op es) := by
  unfold busAccess
  rw [State.got_exec _ _ _ _ _ h, hn, he, awaitBus_stepEvents]
  rfl

/-- A transaction of which the script says nothing more completes after the RTC steps before that point. -/
theorem busAccess_over {n : Nat} {f : Field} {op : BusOp} {s : State} {k : Byte → State → Result} {cmd : Word}
    {now : Timestamp} {got : List Byte} {req : Option BusReq} (h : s.phase = .exec cmd now got req)
    (hn : got[n]? = none) {xs : List (Field × Byte)} {tail : List EnvEvent} (ht : scriptOver tail)
    (he : s.env = stepEvents xs ++ tail) :
    busAccess n f op s k = k ((s.rtcSteps xs).busByte f op) ((s.rtcSteps xs).afterTxn f op tail) := by
  unfold busAccess
  rw [State.got_exec _ _ _ _ _ h, hn, he, awaitBus_stepEvents]
  rcases ht with rfl | ⟨es, rfl⟩ <;> rfl

/-- A transaction that fails at once. -/
theorem busAccess_failed {n : Nat} {f : Field} {op : BusOp} {s : State} {k : Byte → State → Result} {cmd : Word}
    {now : Timestamp} {got : List Byte} {req : Option BusReq} (h : s.phase = .exec cmd now got req)
    (hn : got[n]? = none) {left : Byte} {es : List EnvEvent} (he : s.env = .busErr left :: es) :
    busAccess n f op s k =
      raise .bus (((s.busSpoil f op left).logTxn ⟨busRequest s.params f op, true⟩).setEnv es) := by
  unfold busAccess
  rw [State.got_exec _ _ _ _ _ h, hn, he]
  rfl

/-- A transaction that is left waiting at once. -/
theorem busAccess_pending {n : Nat} {f : Field} {op : BusOp} {s : State} {k : Byte → State → Result} {cmd : Word}
    {now : Timestamp} {got : List Byte} {req : Option BusReq} (h : s.phase = .exec cmd now got req)
    (hn : got[n]? = none) {es : List EnvEvent} (he : s.env = .wait :: es) :
    busAccess n f op s k = .next ((s.setEnv es).holdReq (busRequest s.params f op)) := by
  unfold busAccess
  rw [State.got_exec _ _ _ _ _ h, hn, he]
  rfl

/-- A transaction that reset abandons. -/
theorem busAccess_rst {n : Nat} {f : Field} {op : BusOp} {s : State} {k : Byte → State → Result} {cmd : Word}
    {now : Timestamp} {got : List Byte} {req : Option BusReq} (h : s.phase = .exec cmd now got req)
    (hn : got[n]? = none) {left : Byte} {es : List EnvEvent} (he : s.env = .rst left :: es) :
    busAccess n f op s k = .next (((s.busSpoil f op left).setEnv es).resetBlock) := by
  unfold busAccess
  rw [State.got_exec _ _ _ _ _ h, hn, he]
  rfl

/-! ### The request a command waits at -/

/-- Started with recorded bytes that extend `pre`, the piece `m` ends the command or waits, with those bytes and `more`, at the
request that `due` gives for the bytes it then has. -/
def WaitsAt (p : Params) (due : List Byte → Option BusReq) (pre : List Byte) (m : State → Result) : Prop :=
  ∀ (s t : State) (cmd : Word) (now : Timestamp) (rest : List Byte) (req : Option BusReq), s.params = p →
    s.phase = .exec cmd now (pre ++ rest) req → m s = .next t →
      t.phase = .idle ∨ ∃ more r, t.phase = .exec cmd now (pre ++ rest ++ more) (some r) ∧ due (pre ++ rest ++ more) = some r

theorem WaitsAt.access {p : Params} {due : List Byte → Option BusReq} {pre : List Byte} {n : Nat} {f : Field} {op : BusOp}
    {k : Byte → State → Result} (hn : pre.length = n) (hd : due pre = some (busRequest p f op))
    (hk : ∀ b, WaitsAt p due (pre ++ [b]) (k b)) : WaitsAt p due pre fun s => busAccess n f op s k := by
  intro s t cmd now rest req hs hp h
  have ext : ∀ {b : Byte} {u : State} (rest : List Byte) (req : Option BusReq), u.params = p →
      u.phase = .exec cmd now (pre ++ b :: rest) req → k b u = .next t →
      t.phase = .idle ∨ ∃ more r, t.phase = .exec cmd now (pre ++ b :: rest ++ more) (some r) ∧
        due (pre ++ b :: rest ++ more) = some r := by
    intro b u rest req hs hp h
    rcases hk b u t cmd now rest req hs (by simpa using hp) h with h | ⟨more, r, h, hd⟩
    · exact .inl h
    · exact .inr ⟨more, r, by simpa using h, by simpa using hd⟩
  cases rest with
  | cons b rest =>
    simp only at h
    rw [busAccess_recorded hp (b := b) (by simp [← hn])] at h
    exact ext rest req hs hp h
  | nil =>
    have hp' : s.phase = .exec cmd now pre req := by simpa using hp
    have one : ∀ {b : Byte}, (t.phase = .idle ∨ ∃ more r, t.phase = .exec cmd now (pre ++ [b] ++ more) (some r) ∧
        due (pre ++ [b] ++ more) = some r) →
        t.phase = .idle ∨ ∃ more r, t.phase = .exec cmd now (pre ++ [] ++ more) (some r) ∧ due (pre ++ [] ++ more) = some r := by
      rintro b (h | ⟨more, r, h, hd⟩)
      · exact .inl h
      · exact .inr ⟨b :: more, r, by simpa using h, by simpa using hd⟩
    rcases busAccess_cases h with ⟨b, hb, _⟩ | ⟨_, xs, tail, he, h⟩
    · rw [State.got_exec _ _ _ _ _ hp'] at hb
      simp [← hn] at hb
    · have hx : (s.rtcSteps xs).phase = .exec cmd now pre req := by simpa using hp'
      rcases h with ⟨_, h⟩ | ⟨es, _, h⟩ | ⟨left, es, _, h⟩ | ⟨es, _, h⟩ | ⟨left, es, _, h⟩
      · exact one (ext [] none (by simpa using hs) (State.afterTxn_phase hx f op tail) h)
      · exact one (ext [] none (by simpa using hs) (State.afterTxn_phase hx f op es) h)
      · rw [raise_next] at h
        exact .inl (by rw [h]; rfl)
      · refine .inr ⟨[], busRequest p f op, ?_, by simpa using hd⟩
        rw [h, ← hs]
        simp [State.cmdWord, State.now, State.got, hp']
      · exact .inl (by rw [h]; rfl)

theorem WaitsAt.finish (p : Params) (due : List Byte → Option BusReq) (pre : List Byte) :
    WaitsAt p due pre Machine.finish := by
  intro s t cmd now rest req _ _ h
  rw [finish_next] at h
  exact .inl (by rw [h]; rfl)

theorem WaitsAt.raise (p : Params) (due : List Byte → Option BusReq) (pre : List Byte) (e : ErrorKind) :
    WaitsAt p due pre (Machine.raise e) := by
  intro s t cmd now rest req _ _ h
  rw [raise_next] at h
  exact .inl (by rw [h]; rfl)

theorem WaitsAt.congr {p : Params} {due : List Byte → Option BusReq} {pre : List Byte} {m m' : State → Result}
    (h : ∀ s : State, s.params = p → m s = m' s) (hm : WaitsAt p due pre m') : WaitsAt p due pre m := by
  intro s t cmd now rest req hs hp hn
  rw [h s hs] at hn
  exact hm s t cmd now rest req hs hp hn

theorem WaitsAt.ifAccepted {p : Params} {due : List Byte → Option BusReq} {pre : List Byte} {src : Source}
    {m : State → Result} (hm : WaitsAt p due pre m) : WaitsAt p due pre fun s => Machine.ifAccepted src s m := by
  intro s t cmd now rest req hs hp h
  simp only at h
  cases hr : s.pendingReq with
  | some r =>
    rw [ifAccepted_resumed hr] at h
    exact hm s t cmd now rest req hs hp h
  | none =>
    rw [ifAccepted_begin hr] at h
    split at h
    · exact hm _ t cmd now rest req (by simpa using hs) (by simpa using hp) h
    · rw [finish_next] at h
      exact .inl (by rw [h]; rfl)

/-! ### Going on after a wait -/

/-- If the piece `m` waits, it waits at some `wait` of the script, and running it on the waiting state is running it with that
`wait` left out. -/
def Resumes (p : Params) (n : Nat) (m : State → Result) : Prop :=
  ∀ (s t : State) (cmd : Word) (now : Timestamp) (got : List Byte), s.params = p → s.phase = .exec cmd now got none →
    got.length = n → m s = .next t → t.busy = true →
      ∃ before bs r, s.env = before ++ .wait :: t.env ∧ t.params = p ∧ t.phase = .exec cmd now (got ++ bs) (some r) ∧
        m t = m (s.setEnv (before ++ t.env))

theorem State.afterTxn_setEnv (s : State) (f : Field) (op : BusOp) (es e : List EnvEvent) :
    (s.afterTxn f op es).setEnv e = s.afterTxn f op e := by
  obtain ⟨p, ph, sl, oh, om, pw, re, fl, rt, bl, ho, en⟩ := s
  cases op <;> cases ph <;> rfl

theorem State.rtcSteps_setEnv (s : State) (xs : List (Field × Byte)) (e : List EnvEvent) :
    (s.setEnv e).rtcSteps xs = (s.rtcSteps xs).setEnv e := by
  induction xs generalizing s with
  | nil => rfl
  | cons x xs ih => exact ih (s.setRtc x.1 x.2)

theorem State.afterTxn_of_setEnv (s : State) (f : Field) (op : BusOp) (es e : List EnvEvent) :
    (s.setEnv e).afterTxn f op es = s.afterTxn f op es := by
  obtain ⟨p, ph, sl, oh, om, pw, re, fl, rt, bl, ho, en⟩ := s
  cases op <;> cases ph <;> rfl

theorem not_busy_of_idle {t : State} (h : t.phase = .idle) : t.busy = false := by
  simp [State.busy, h]

theorem Resumes.access {p : Params} {n : Nat} {f : Field} {op : BusOp} {k : Byte → State → Result}
    (hk : ∀ b, Resumes p (n + 1) (k b)) : Resumes p n fun s => busAccess n f op s k := by
  intro s t cmd now got hs hp hl h hb
  have hnone : got[n]? = none := by simp [← hl]
  simp only at h
  rcases busAccess_cases h with ⟨b, hg, _⟩ | ⟨_, xs, tail, he, h⟩
  · rw [State.got_exec _ _ _ _ _ hp, hnone] at hg
    cases hg
  · have hx : (s.rtcSteps xs).phase = .exec cmd now got none := by simpa using hp
    have cont : ∀ es, k ((s.rtcSteps xs).busByte f op) ((s.rtcSteps xs).afterTxn f op es) = .next t →
        ∃ before bs r, es = before ++ .wait :: t.env ∧ t.params = p ∧ t.phase = .exec cmd now (got ++ bs) (some r) ∧
          busAccess n f op t k =
            k ((s.rtcSteps xs).busByte f op) ((s.rtcSteps xs).afterTxn f op (before ++ t.env)) := by
      intro es h
      obtain ⟨before, bs, r, he', hp', ht, hm⟩ := hk _ _ t cmd now (got ++ [(s.rtcSteps xs).busByte f op])
        (by simpa using hs) (State.afterTxn_phase hx f op es) (by simp [hl]) h hb
      refine ⟨before, (s.rtcSteps xs).busByte f op :: bs, r, by simpa using he', hp', by simpa using ht, ?_⟩
      rw [busAccess_recorded (b := (s.rtcSteps xs).busByte f op) ht (by simp [← hl]), hm, State.afterTxn_setEnv]
    rcases h with ⟨ht, h⟩ | ⟨es, ht, h⟩ | ⟨left, es, _, h⟩ | ⟨es, ht, h⟩ | ⟨left, es, _, h⟩
    · obtain ⟨before, bs, r, he', hp', hph, hm⟩ := cont tail h
      have hover : scriptOver (before ++ t.env) := by
        rcases ht with rfl | ⟨es, rfl⟩
        · simp at he'
        · cases before with
          | nil => simp at he'
          | cons e before =>
            obtain ⟨rfl, _⟩ := List.cons.inj he'
            exact .inr ⟨_, rfl⟩
      refine ⟨stepEvents xs ++ before, bs, r, ?_, hp', hph, ?_⟩
      · rw [he, he']; simp
      · simp only
        rw [hm, busAccess_over (s := s.setEnv _) (xs := xs) (by simpa using hp) hnone hover (by simp),
          State.rtcSteps_setEnv, State.afterTxn_of_setEnv]
        cases op <;> rfl
    · obtain ⟨before, bs, r, he', hp', hph, hm⟩ := cont es h
      refine ⟨stepEvents xs ++ .busDone :: before, bs, r, ?_, hp', hph, ?_⟩
      · rw [he, ht, he']; simp
      · simp only
        rw [hm, busAccess_done (s := s.setEnv _) (xs := xs) (es := before ++ t.env) (by simpa using hp) hnone (by simp),
          State.rtcSteps_setEnv, State.afterTxn_of_setEnv]
        cases op <;> rfl
    · rw [raise_next] at h
      rw [not_busy_of_idle (by rw [h]; rfl)] at hb
      cases hb
    · refine ⟨stepEvents xs, [], busRequest s.params f op, ?_, ?_, ?_, ?_⟩
      · rw [he, ht, h]; simp
      · rw [h]; simpa using hs
      · rw [h]; simp [State.cmdWord, State.now, State.got, hp]
      · simp only
        rw [h, busAccess_wait hp hnone]; simp
    · rw [not_busy_of_idle (by rw [h]; rfl)] at hb
      cases hb

theorem Resumes.finish (p : Params) (n : Nat) : Resumes p n Machine.finish := by
  intro s t cmd now got _ _ _ h hb
  rw [finish_next] at h
  rw [not_busy_of_idle (by rw [h]; rfl)] at hb
  cases hb

theorem Resumes.raise (p : Params) (n : Nat) (e : ErrorKind) : Resumes p n (Machine.raise e) := by
  intro s t cmd now got _ _ _ h hb
  rw [raise_next] at h
  rw [not_busy_of_idle (by rw [h]; rfl)] at hb
  cases hb

theorem Resumes.congr {p : Params} {n : Nat} {m m' : State → Result} (h : ∀ s : State, s.params = p → m s = m' s)
    (hm : Resumes p n m') : Resumes p n m := by
  intro s t cmd now got hs hp hl hn hb
  rw [h s hs] at hn
  obtain ⟨before, bs, r, he, ht, hph, hmt⟩ := hm s t cmd now got hs hp hl hn hb
  exact ⟨before, bs, r, he, ht, hph, by rw [h t ht, h (s.setEnv _) (by simpa using hs), hmt]⟩

theorem Resumes.ifAccepted {p : Params} {src : Source} {m : State → Result} (hm : Resumes p 0 m) :
    Resumes p 0 fun s => Machine.ifAccepted src s m := by
  intro s t cmd now got hs hp hl h hb
  have hr := State.pendingReq_exec _ _ _ _ _ hp
  simp only at h
  rw [ifAccepted_begin hr] at h
  by_cases ha : accepts s.params (s.slotOf src) s.now = true
  · rw [if_pos ha] at h
    obtain ⟨before, bs, r, he, ht, hph, hmt⟩ := hm _ t cmd now got (by simpa using hs) (by simpa using hp) hl h hb
    refine ⟨before, bs, r, by simpa using he, ht, hph, ?_⟩
    simp only
    rw [ifAccepted_resumed (State.pendingReq_exec _ _ _ _ _ hph), hmt,
      ifAccepted_begin (s := s.setEnv _) (by simpa [State.pendingReq] using hr)]
    exact (if_pos ha).symm
  · rw [if_neg ha, finish_next] at h
    rw [not_busy_of_idle (by rw [h]; rfl)] at hb
    cases hb

end Sys2Proof.Machine
end

