-- ==== Sys2Proof/Laws/Step.lean ====
section
/-! SUPPORT. The step of the machine said once: which of its cases a next state comes from. -/

namespace Sys2Proof.Machine

/-- When an idle block takes the presented command (log 17). -/
theorem nextAction_takes {s : State} (hp : s.phase = .idle) (hk : takesCommand s.env = true) :
    nextAction s = takePresented (s.setEnv (afterTake s.env)) := by
  have same : ∀ es, s.env = es → afterTake es = es → s.setEnv (afterTake s.env) = s := by
    intro es he hk
    rw [he, hk, ← he]
    rfl
  unfold nextAction
  rw [hp]
  cases he : s.env with
  | nil => rw [← he, same _ he rfl, he]
  | cons e es =>
    cases e with
    | take => rfl
    | busDone => rw [← he, same _ he rfl, he]
    | busErr l => rw [← he, same _ he rfl, he]
    | rtcStep f v => simp [he, takesCommand] at hk
    | wait => simp [he, takesCommand] at hk
    | rst l => simp [he, takesCommand] at hk

/-- Everything one step can do. -/
theorem step_cases {s t : State} (h : step s = .next t) :
    (s.phase = .idle ∧ ∃ f v es, s.env = .rtcStep f v :: es ∧ t = (s.setRtc f v).setEnv es) ∨
    (s.phase = .idle ∧ ∃ es, s.env = .wait :: es ∧ t = s.setEnv es) ∨
    (s.phase = .idle ∧ ∃ l es, s.env = .rst l :: es ∧ t = (s.setEnv es).resetBlock) ∨
    (s.phase = .idle ∧ s.host = [] ∧ t = s.setEnv (afterTake s.env)) ∨
    (s.phase = .idle ∧ ∃ c rest i, s.host = c :: rest ∧ decodeCmd c.cmd = .ok i ∧
      exec i (((s.setEnv (afterTake s.env)).takeCommand c).setHost rest) = .next t) ∨
    (s.phase = .idle ∧ ∃ c rest e, s.host = c :: rest ∧ decodeCmd c.cmd = .error e ∧
      raise .illegalCommand (((s.setEnv (afterTake s.env)).takeCommand c).setHost rest) = .next t) ∨
    (∃ cmd now got req i, s.phase = .exec cmd now got req ∧ decodeCmd cmd = .ok i ∧ exec i s = .next t) ∨
    (∃ cmd now got req e, s.phase = .exec cmd now got req ∧ decodeCmd cmd = .error e ∧
      raise .illegalCommand s = .next t) := by
  cases hp : s.phase with
  | exec cmd now got req =>
    unfold step nextAction at h
    rw [hp] at h
    simp only at h
    refine .inr (.inr (.inr (.inr (.inr (.inr ?_)))))
    split at h
    · next i hi => exact .inl ⟨cmd, now, got, req, i, rfl, hi, h⟩
    · next e hi => exact .inr ⟨cmd, now, got, req, e, rfl, hi, h⟩
  | idle =>
    by_cases hk : takesCommand s.env = true
    · unfold step at h
      rw [nextAction_takes hp hk] at h
      unfold takePresented at h
      rw [State.setEnv_host] at h
      refine .inr (.inr (.inr ?_))
      cases hh : s.host with
      | nil =>
        rw [hh] at h
        exact .inl ⟨rfl, rfl, by simpa [eq_comm] using h⟩
      | cons c rest =>
        rw [hh] at h
        simp only at h
        split at h
        · next i hi => exact .inr (.inl ⟨rfl, c, rest, i, rfl, hi, h⟩)
        · next e hi => exact .inr (.inr (.inl ⟨rfl, c, rest, e, rfl, hi, h⟩))
    · unfold step nextAction at h
      rw [hp] at h
      cases he : s.env with
      | nil => simp [he, takesCommand] at hk
      | cons e es =>
        rw [he] at h
        cases e with
        | rtcStep f v => exact .inl ⟨rfl, f, v, es, rfl, by simpa [eq_comm] using h⟩
        | wait => exact .inr (.inl ⟨rfl, es, rfl, by simpa [eq_comm] using h⟩)
        | rst l => exact .inr (.inr (.inl ⟨rfl, l, es, rfl, by simpa [eq_comm] using h⟩))
        | take => simp [he, takesCommand] at hk
        | busDone => simp [he, takesCommand] at hk
        | busErr l => simp [he, takesCommand] at hk

end Sys2Proof.Machine
end

