-- ==== Sys2Proof/Laws/Sync.lean ====
section
/-! SUPPORT. What REFRESH and the writes of SYNC do when their transactions are quiet (44_clockloop.md R80, 45_sync.md R85), and
the packed bytes as numbers (40_codec.md R45). -/

namespace Sys2Proof.Machine

theorem encodeField_eq {v : Nat} (h : v ≤ 59) : encodeField v = BitVec.ofNat 8 (v / 10 * 16 + v % 10) := by
  interval_cases v <;> rfl

theorem syncSecByte_eq (p : Params) {v : Nat} (h : v ≤ 59) :
    syncSecByte p v = BitVec.ofNat 8 (p.secHaltWrite.toNat * 128 + v / 10 * 16 + v % 10) := by
  have key : ∀ (b : BitVec 1) (v : Fin 60),
      encodeField v.val ||| (b.setWidth 8 <<< 7) = BitVec.ofNat 8 (b.toNat * 128 + v.val / 10 * 16 + v.val % 10) := by decide
  exact key p.secHaltWrite ⟨v, by omega⟩

/-- Bit 7 of the byte SYNC writes to SEC is `SEC_HALT_WRITE` (45_sync.md R86). -/
theorem syncSecByte_halt (p : Params) {v : Nat} (h : v ≤ 59) : (syncSecByte p v).extractLsb' 7 1 = p.secHaltWrite := by
  have key : ∀ (b : BitVec 1) (v : Fin 60), (encodeField v.val ||| (b.setWidth 8 <<< 7)).extractLsb' 7 1 = b := by decide
  exact key p.secHaltWrite ⟨v, by omega⟩

/-- The seconds decode alike whatever the clock-halt bit (40_codec.md R43). -/
theorem decodeField_syncSecByte (p : Params) {v : Nat} (h : v ≤ 59) : decodeField .sec (syncSecByte p v) = v := by
  have key : ∀ (b : BitVec 1) (v : Fin 60), decodeField .sec (encodeField v.val ||| (b.setWidth 8 <<< 7)) = v.val := by
    decide
  exact key p.secHaltWrite ⟨v, by omega⟩

theorem execRefresh_quiet {m : Nat} {s : State} {cmd : Word} {now : Timestamp} {req : Option BusReq}
    (h : s.phase = .exec cmd now [] req) (hq : quietFor (m + 3) s.env = true) :
    execRefresh s = showTime (s.rtcByte .hour) (s.rtcByte .min) (s.rtcByte .sec)
      (((s.afterTxn .hour .read (s.env.drop 1)).afterTxn .min .read (s.env.drop 2)).afterTxn .sec .read
        (s.env.drop 3)) := by
  unfold execRefresh
  rw [memRead_quiet (n := 0) (m := m + 2) h rfl hq]
  have p1 := State.afterTxn_phase h .hour .read (s.env.drop 1)
  rw [memRead_quiet (n := 1) (m := m + 1) p1 rfl (by simpa using quietFor_drop hq)]
  have p2 := State.afterTxn_phase p1 .min .read (s.env.drop 2)
  rw [memRead_quiet (n := 2) (m := m) (by simpa using p2) rfl (by simpa using quietFor_drop_two (n := m + 1) hq)]
  simp

theorem syncWrites_quiet {m hv b v : Nat} {s : State} {cmd : Word} {now : Timestamp} {req : Option BusReq}
    (h : s.phase = .exec cmd now [] req) (hq : quietFor (m + 3) s.env = true) (hb : b ≤ 59) (hc : v ≤ 59) :
    syncWrites hv b v s =
      finish (((s.afterTxn .hour (.write (encodeField hv)) (s.env.drop 1)).afterTxn .min (.write (encodeField b))
        (s.env.drop 2)).afterTxn .sec (.write (syncSecByte s.params v)) (s.env.drop 3)) := by
  unfold syncWrites
  rw [if_neg (by omega), if_neg (by omega)]
  rw [memWrite_quiet (n := 0) (m := m + 2) h rfl hq]
  have p1 := State.afterTxn_phase h .hour (.write (encodeField hv)) (s.env.drop 1)
  rw [memWrite_quiet (n := 1) (m := m + 1) p1 rfl (by simpa using quietFor_drop hq)]
  have p2 := State.afterTxn_phase p1 .min (.write (encodeField b)) (s.env.drop 2)
  rw [memWrite_quiet (n := 2) (m := m) (by simpa using p2) rfl (by simpa using quietFor_drop_two (n := m + 1) hq)]
  simp

end Sys2Proof.Machine
end

