-- ==== Sys2Proof/Tests/Slice0.lean ====
section
/-! SUPPORT. Tests. The words are written out from 30_encoding.md R35 and R38; the expected results come from
spec/95_test_vectors.md, whose section is named at each group. The last part shows, for each obligation with hypotheses, a
state that meets them. -/

open Sys2Proof Sys2Proof.Machine

namespace Sys2Proof.Tests

/-! ### WellFormed: one ill-formed term for each check -/

theorem test_wf_accepts_sync : CmdFields.wellFormed ⟨0xC, 0, 0, 13, 45, 30⟩ = true := by decide
theorem test_wf_refuses_op : CmdFields.opOk ⟨0xE, 0, 0, 0, 0, 0⟩ = false ∧ CmdFields.wellFormed ⟨0xE, 0, 0, 0, 0, 0⟩ = false := by
  decide
theorem test_wf_refuses_rsv : CmdFields.rsvOk ⟨0x1, 1, 0, 0, 0, 0⟩ = false ∧ CmdFields.wellFormed ⟨0x1, 1, 0, 0, 0, 0⟩ = false := by
  decide
theorem test_wf_refuses_sel : CmdFields.selOk ⟨0x7, 0, 3, 0, 0, 0⟩ = false ∧ CmdFields.selOk ⟨0x2, 0, 1, 0, 0, 0⟩ = false ∧
    CmdFields.wellFormed ⟨0x7, 0, 3, 0, 0, 0⟩ = false ∧ CmdFields.wellFormed ⟨0x2, 0, 1, 0, 0, 0⟩ = false := by decide
theorem test_wf_refuses_a : CmdFields.aOk ⟨0x1, 0, 0, 1, 0, 0⟩ = false ∧ CmdFields.wellFormed ⟨0x1, 0, 0, 1, 0, 0⟩ = false := by
  decide
theorem test_wf_refuses_b : CmdFields.bOk ⟨0x6, 0, 0, 0, 1, 0⟩ = false ∧ CmdFields.wellFormed ⟨0x6, 0, 0, 0, 1, 0⟩ = false := by
  decide
theorem test_wf_refuses_c : CmdFields.cOk ⟨0x8, 0, 0, 0, 0, 1⟩ = false ∧ CmdFields.wellFormed ⟨0x8, 0, 0, 0, 0, 1⟩ = false := by
  decide

/-! ### Decoding: a word of every command, bit fields from 30_encoding.md R35 (op, rsv, sel, a, b, c) -/

theorem test_decode_decHour : decodeCmd 0b0001_00_00_00000000_00000000_00100011 = .ok (.decHour 0x23) := rfl
theorem test_decode_decMin : decodeCmd 0b0001_00_01_00000000_00000000_01011010 = .ok (.decMin 0x5A) := rfl
theorem test_decode_decSec : decodeCmd 0b0001_00_10_00000000_00000000_11011001 = .ok (.decSec 0xD9) := rfl
theorem test_decode_enc : decodeCmd 0b0010_00_00_00000000_00000000_00111011 = .ok (.enc 59) := rfl
theorem test_decode_to12 : decodeCmd 0b0011_00_00_00000000_00000000_00001101 = .ok (.to12 13) := rfl
theorem test_decode_hled : decodeCmd 0b0100_00_00_00000000_00000000_00001001 = .ok (.hled 9) := rfl
theorem test_decode_mled : decodeCmd 0b0101_00_00_00000000_00000000_00101101 = .ok (.mled 45) := rfl
theorem test_decode_brt : decodeCmd 0b0110_00_00_00000000_00000000_00011110 = .ok (.brt 30) := rfl
theorem test_decode_debHour : decodeCmd 0b0111_00_00_00000000_00000000_00000000 = .ok .debHour := rfl
theorem test_decode_debMin : decodeCmd 0b0111_00_01_00000000_00000000_00000000 = .ok .debMin := rfl
theorem test_decode_debSync : decodeCmd 0b0111_00_10_00000000_00000000_00000000 = .ok .debSync := rfl
theorem test_decode_inch : decodeCmd 0b1000_00_00_00000000_00000000_00000000 = .ok .inch := rfl
theorem test_decode_incm : decodeCmd 0b1001_00_00_00000000_00000000_00000000 = .ok .incm := rfl
theorem test_decode_btnh : decodeCmd 0b1010_00_00_00000000_00000000_00000000 = .ok .btnh := rfl
theorem test_decode_btnm : decodeCmd 0b1011_00_00_00000000_00000000_00000000 = .ok .btnm := rfl
theorem test_decode_sync : decodeCmd 0b1100_00_00_00001101_00101101_00011110 = .ok (.sync 13 45 30) := rfl
theorem test_decode_refresh : decodeCmd 0b1101_00_00_00000000_00000000_00000000 = .ok .refresh := rfl

/-- The illegal words of 95_test_vectors.md 2.1. -/
theorem test_decode_illegal :
    decodeCmd 0x00000000 = .error .opcode ∧ decodeCmd 0xE0000000 = .error .opcode ∧ decodeCmd 0xF0000000 = .error .opcode ∧
    decodeCmd 0x13000000 = .error .selector ∧ decodeCmd 0x73000000 = .error .selector ∧
    decodeCmd 0x14000000 = .error .reserved ∧ decodeCmd 0x18000000 = .error .reserved ∧
    decodeCmd 0x21000000 = .error .selector ∧ decodeCmd 0x10010000 = .error .unusedField ∧
    decodeCmd 0x60000100 = .error .unusedField ∧ decodeCmd 0x80000001 = .error .unusedField ∧
    decodeCmd 0x70000001 = .error .unusedField ∧ decodeCmd 0xC1000000 = .error .selector ∧
    decodeCmd 0xD0000080 = .error .unusedField := by
  refine ⟨rfl, rfl, rfl, rfl, rfl, rfl, rfl, rfl, rfl, rfl, rfl, rfl, rfl, rfl⟩

theorem test_table_word : decodeTableWord 32 0xC0FFFFFF = some (.sync 255 255 255) ∧ decodeTableWord 32 0 = none := by decide

/-- A presented table word is taken by the next step: ENC 10 leaves 0x10 in `result` (95_test_vectors.md 2.2). -/
theorem test_table_word_runs :
    step (State.reset.withFetchWord 32 0x2000000A) = .next { State.reset with result := 0x10 } := rfl

/-! ### One step of each command -/

/-- The parameters of the test vectors (95_test_vectors.md 0), with the addresses HOUR 2, MIN 1, SEC 0. -/
def vectorParams : Params := ⟨200, 1000, 1024, .at24, true, true, 0, 2, 1, 0⟩

/-- A block after reset with the given packed hour, minute and second and script, that has just taken a command at `now`. -/
def taken (now : Timestamp) (h m v : Byte) (env : List EnvEvent := []) : State :=
  let s := ((State.resetWith vectorParams).setPhase (.exec 0 now [] none)).setEnv env
  ((s.setRtc .hour h).setRtc .min m).setRtc .sec v

/-- The same block, whose slot 0 accepted an event at `last`. -/
def takenAfter (last now : Timestamp) (h m v : Byte) : State := (taken now h m v).setSlots ⟨⟨last, true⟩, Slot.reset, Slot.reset⟩

/-- The next state of an outcome. -/
def after (r : Result) : State :=
  match r with
  | .next t => t
  | _ => State.resetWith vectorParams

/-- The block idle, with a command presented. -/
def presenting (c : HostCmd) (s : State) : State := (s.setPhase .idle).setHost [c]

theorem test_decHour_ignores_top : (after (exec (.decHour 0xC5) (taken 0 0 0 0))).result = 5 := by decide
theorem test_decHour_max : (after (exec (.decHour 0x3F) (taken 0 0 0 0))).result = 45 := by decide
theorem test_decMin_malformed : (after (exec (.decMin 0x5A) (taken 0 0 0 0))).result = 60 := by decide
theorem test_decMin_bit7 : (after (exec (.decMin 0x80) (taken 0 0 0 0))).result = 0 := by decide
theorem test_decSec_halt : (after (exec (.decSec 0xD9) (taken 0 0 0 0))).result = 59 := by decide
theorem test_decSec_max : (after (exec (.decSec 0xFF) (taken 0 0 0 0))).result = 85 := by decide
theorem test_enc_59 : (after (exec (.enc 59) (taken 0 0 0 0))).result = 0x59 := by decide
theorem test_enc_60 : (after (exec (.enc 60) (taken 0 0 0 0))).status = 0x01 := by decide
theorem test_to12_12 : (after (exec (.to12 12) (taken 0 0 0 0))).result = 12 := by decide
theorem test_to12_24 : (after (exec (.to12 24) (taken 0 0 0 0))).result = 0 := by decide
theorem test_hled_9 : (after (exec (.hled 9) (taken 0 0 0 0))).result = 0b1001 := by decide
theorem test_hled_13 : (after (exec (.hled 13) (taken 0 0 0 0))).result = 1 := by decide
theorem test_mled_45 : (after (exec (.mled 45) (taken 0 0 0 0))).result = 0b101101 := by decide
theorem test_mled_60 : (after (exec (.mled 60) (taken 0 0 0 0))).status = 0x01 := by decide
theorem test_brt_30 : (after (exec (.brt 30) (taken 0 0 0 0))).result = 521 := by decide
theorem test_brt_59 : (after (exec (.brt 59) (taken 0 0 0 0))).result = 1024 := by decide

theorem test_debHour_at_200 : (after (exec .debHour (takenAfter 0 200 0 0 0))).result = 0 := by decide
theorem test_debHour_wraps : (after (exec .debHour (takenAfter 0xFFFFFF00 0x10 0 0 0))).slots.slot0 = ⟨0x10, true⟩ := by decide
theorem test_debMin_shared : (after (exec .debMin (takenAfter 1000 1100 0 0 0))).result = 0 := by decide
theorem test_debMin_first : (after (exec .debMin (taken 0 0 0 0))).status = 0x08 := by decide
theorem test_debSync_shared : (after (exec .debSync (takenAfter 1000 1100 0 0 0))).result = 0 := by decide
theorem test_debSync_at_201 : (after (exec .debSync (takenAfter 0 201 0 0 0))).result = 1 := by decide

theorem test_inch_19 : (after (exec .inch (taken 0 0x19 0 0))).rtcByte .hour = 0x20 := by decide
theorem test_inch_24 : (after (exec .inch (taken 0 0x24 0 0))).status = 0x01 ∧
    (after (exec .inch (taken 0 0x24 0 0))).rtcByte .hour = 0x24 := by decide
/-- 95_test_vectors.md 2.5: 0x59, 0x23; the trace R M, R H, W H=00, W M=00. -/
theorem test_incm_midnight : (after (exec .incm (taken 0 0x23 0x59 0))).busLog =
    [⟨.read 1, false⟩, ⟨.read 2, false⟩, ⟨.write 2 0x00, false⟩, ⟨.write 1 0x00, false⟩] := by decide
theorem test_incm_bad_minute : (after (exec .incm (taken 0 0x10 0x5A 0))).status = 0x01 ∧
    (after (exec .incm (taken 0 0x10 0x5A 0))).busLog = [⟨.read 1, false⟩] := by decide
theorem test_btnh_bad_hour : (after (exec .btnh (taken 0 0x24 0 0))).status = 0x09 ∧
    (after (exec .btnh (taken 0 0x24 0 0))).slots.slot0 = ⟨0, true⟩ := by decide
theorem test_btnh_dropped : (after (exec .btnh (takenAfter 0 150 0x09 0 0))).busLog = [] := by decide
theorem test_btnm_accepted : (after (exec .btnm (takenAfter 0 300 0x09 0x30 0))).rtcByte .min = 0x31 := by decide
theorem test_btnm_dropped : (after (exec .btnm (takenAfter 250 300 0x09 0x30 0))).rtcByte .min = 0x30 := by decide
/-- 95_test_vectors.md 2.7: SYNC 23, 59, 59 writes W H=11, W M=59, W S=59. -/
theorem test_sync_writes : (after (exec (.sync 23 59 59) (taken 0 0 0 0))).busLog =
    [⟨.write 2 0x11, false⟩, ⟨.write 1 0x59, false⟩, ⟨.write 0 0x59, false⟩] := by decide
theorem test_sync_bad_minute : (after (exec (.sync 10 60 0) (taken 0 0 0 0))).status = 0x09 ∧
    (after (exec (.sync 10 60 0) (taken 0 0 0 0))).busLog = [] := by decide
theorem test_refresh_shows : (after (exec .refresh (taken 0 0x21 0x45 0x30))).outHour = 0b1001 ∧
    (after (exec .refresh (taken 0 0x21 0x45 0x30))).outMin = 0b101101 ∧
    (after (exec .refresh (taken 0 0x21 0x45 0x30))).pwm = 521 := by decide
theorem test_refresh_read_fails : (after (exec .refresh (taken 0 0x10 0x20 0 [.busDone, .busErr 0]))).status = 0x02 ∧
    (after (exec .refresh (taken 0 0x10 0x20 0 [.busDone, .busErr 0]))).busLog = [⟨.read 2, false⟩, ⟨.read 1, true⟩] := by
  decide

/-- The sticky bits accumulate (95_test_vectors.md 2.8): `ENC 60` left 0x01, the word 0x00000000 makes it 0x05. -/
theorem test_illegal_word_accumulates :
    (after (step (presenting ⟨0, 0⟩ (after (exec (.enc 60) (taken 0 0 0 0)))))).status = 0x05 := by decide

/-- Reset during INCM between `R M` and `W M` (95_test_vectors.md 2.8): no further transaction, the minute stays. -/
theorem test_rst_abandons : (after (exec .incm (taken 0 0x10 0x20 0 [.busDone, .rst 0x20]))).busLog = [⟨.read 1, false⟩] ∧
    (after (exec .incm (taken 0 0x10 0x20 0 [.busDone, .rst 0x20]))).rtcByte .min = 0x20 := by decide

/-- The first transaction of a command that an idle block takes may wait (93_implementation_defined.md I13, log 17): SYNC holds its
write of HOUR, its event is recorded, and nothing is written. -/
def firstWaits : State :=
  after (step ((presenting ⟨0xC00D2D1E, 10000⟩ (taken 0 0 0 0)).setEnv [.take, .wait, .rst 0x77]))

theorem test_first_transaction_waits : firstWaits.pendingReq = some (.write 2 0x01) ∧ firstWaits.status = 0x18 ∧
    firstWaits.busLog = [] := by decide

/-- And reset may come while it waits (70_reset_and_hazards.md R120, 93_implementation_defined.md I5): the event is forgotten, and
HOUR holds any byte. -/
theorem test_first_transaction_reset : (after (step firstWaits)).slots = Slots.reset ∧ (after (step firstWaits)).busLog = [] ∧
    (after (step firstWaits)).rtcByte .hour = 0x77 := by decide

/-! ### Witnesses: the hypotheses of each obligation can be met -/

theorem test_witness_DecodedWordIsTheEncoding : decodeCmd 0xC0FFFFFF = .ok (.sync 255 255 255) := rfl

theorem test_witness_StepRunsTheDecodedCommand :
    (presenting ⟨0x80000000, 7⟩ (taken 0 0x23 0 0)).phase = .idle ∧
    (presenting ⟨0x80000000, 7⟩ (taken 0 0x23 0 0)).host = ⟨0x80000000, 7⟩ :: [] ∧
    takesCommand (presenting ⟨0x80000000, 7⟩ (taken 0 0x23 0 0)).env = true ∧ decodeCmd 0x80000000 = .ok .inch ∧
    (taken 0 0 0 0).phase = .exec 0 0 [] none ∧
    ((taken 0 0 0 0).setPhase (.exec 0x80000000 0 [0x23] (some (.write 2 0)))).phase =
      .exec 0x80000000 0 [0x23] (some (.write 2 0)) ∧
    takesCommand [.take, .wait] = true ∧ afterTake [.take, .wait] = [.wait] := ⟨rfl, rfl, rfl, rfl, rfl, rfl, rfl, rfl⟩

theorem test_witness_IllegalCommandOnlySetsIllErr :
    (presenting ⟨0xE0000000, 0⟩ (taken 0 0 0 0)).phase = .idle ∧
    (presenting ⟨0xE0000000, 0⟩ (taken 0 0 0 0)).host = ⟨0xE0000000, 0⟩ :: [] ∧
    takesCommand (presenting ⟨0xE0000000, 0⟩ (taken 0 0 0 0)).env = true ∧ decodeCmd 0xE0000000 = .error .opcode :=
  ⟨rfl, rfl, rfl, rfl⟩

theorem test_witness_IdleStepsFollowTheEnvironment :
    (State.resetWith vectorParams).phase = .idle ∧
    ((State.resetWith vectorParams).setEnv [.rtcStep .sec 0x59]).env = .rtcStep .sec 0x59 :: [] ∧
    ((State.resetWith vectorParams).setEnv [.wait]).env = .wait :: [] ∧
    takesCommand (State.resetWith vectorParams).env = true ∧ (State.resetWith vectorParams).host = [] :=
  ⟨rfl, rfl, rfl, rfl, rfl⟩

/-- INCM that has written the hour of 23:59 and waits before its last write. -/
def waitingIncm : State :=
  after (exec .incm ((taken 0 0x23 0x59 0 [.busDone, .busDone, .busDone, .wait]).setPhase (.exec 0x90000000 0 [] none)))

theorem test_witness_PresentedCommandsWaitWhileBusy :
    waitingIncm.busy = true ∧ step waitingIncm = .next (after (step waitingIncm)) := ⟨rfl, rfl⟩

theorem test_witness_WaitingDoesNotChangeTheOutcome :
    let s := (taken 0 0x23 0x59 0 [.busDone, .busDone, .busDone, .wait]).setPhase (.exec 0x90000000 0 [] none)
    s.phase = .exec 0x90000000 0 [] none ∧ decodeCmd 0x90000000 = .ok .incm ∧
    s.env = [.busDone, .busDone, .busDone] ++ .wait :: [] ∧ exec .incm s = .next waitingIncm ∧ waitingIncm.busy = true ∧
    waitingIncm.env = [] := ⟨rfl, rfl, rfl, rfl, rfl, rfl⟩

/-- The block in the middle of that INCM, its write of HOUR pending, when reset comes. -/
def resetMidWrite : State :=
  (after (exec .incm ((taken 0 0x23 0x59 0 [.busDone, .busDone, .wait, .rst 0x77]).setPhase (.exec 0x90000000 0 [] none))))

theorem test_witness_RstResetsTheBlock :
    resetMidWrite.inv = true ∧ resetMidWrite.env = .rst 0x77 :: [] ∧ resetMidWrite.pendingReq = some (.write 2 0x00) ∧
    ((State.resetWith vectorParams).setEnv [.rst 0]).inv = true ∧
    ((State.resetWith vectorParams).setEnv [.rst 0]).env = .rst 0 :: [] := by decide

theorem test_witness_InvariantHoldsAtReset : vectorParams.wellFormed = true := by decide

theorem test_witness_EveryStepKeepsTheInvariant :
    waitingIncm.inv = true ∧ step waitingIncm = .next (after (step waitingIncm)) := ⟨by decide, rfl⟩

theorem test_witness_ParametersNeverChange : step waitingIncm = .next (after (step waitingIncm)) := rfl

theorem test_witness_OnlyTheThreeRegistersAreAddressed :
    step waitingIncm = .next (after (step waitingIncm)) ∧ (after (step waitingIncm)).busLog.length = 4 := ⟨rfl, rfl⟩

theorem test_witness_PortsShowTheRegisters :
    let s := waitingIncm.setEnv [.wait]
    s.inv = true ∧ s.phase = .exec 0x90000000 0 [0x59, 0x23, 0x00] (some (.write 1 0x00)) ∧ decodeCmd 0x90000000 = .ok .incm ∧
    s.busy = true ∧ step s = .next (after (step s)) ∧ (after (step s)).busy = true ∧ (after (step s)).txnCount = s.txnCount ∧
    s.pendingReq = some (.write 1 0x00) ∧ (State.resetWith vectorParams).pendingReq = none ∧
    (after (exec .inch (taken 0 0x23 0 0 [.wait]))).pendingReq = some (.read 2) :=
  ⟨by decide, rfl, rfl, rfl, rfl, rfl, rfl, rfl, rfl, rfl⟩

theorem test_witness_StickyErrorsAccumulate :
    let s := presenting ⟨0, 0⟩ (after (exec (.enc 60) (taken 0 0 0 0)))
    noReset s.env = true ∧ step s = .next (after (step s)) ∧ s.flags.domErr = true ∧
    waitingIncm.flags.busErr = false ∧ ((taken 0 0 0 0).setFlags ⟨true, true, true, false⟩).flags.busErr = true ∧
    ((taken 0 0 0 0).setFlags ⟨true, true, true, false⟩).flags.illErr = true := ⟨rfl, rfl, rfl, rfl, rfl, rfl⟩

theorem test_witness_OnlyRefreshWritesOutputs :
    Instr.inch ≠ .refresh ∧ noReset (taken 0 0x23 0 0).env = true ∧
    exec .inch (taken 0 0x23 0 0) = .next (after (exec .inch (taken 0 0x23 0 0))) := ⟨by decide, rfl, rfl⟩

theorem test_witness_ResultKeptByOtherCommands :
    Instr.incm ∈ [Instr.inch, .incm, .btnh, .btnm, .refresh] ∧ noReset (taken 0 0x23 0x59 0).env = true ∧
    exec .incm (taken 0 0x23 0x59 0) = .next (after (exec .incm (taken 0 0x23 0x59 0))) ∧
    exec (.sync 13 45 30) (taken 0 0 0 0) = .next (after (exec (.sync 13 45 30) (taken 0 0 0 0))) ∧
    59 < (60 : Byte).toNat ∧ Instr.mled 60 ∈ [Instr.enc 60, .mled 60, .brt 60] ∧
    exec (.mled 60) (taken 0 0 0 0) = .next (after (exec (.mled 60) (taken 0 0 0 0))) :=
  ⟨by decide, rfl, rfl, rfl, by decide, by decide, rfl⟩

theorem test_witness_PureCommandFrame :
    exec (.brt 59) (taken 0 0 0 0) = .next (after (exec (.brt 59) (taken 0 0 0 0))) ∧
    exec .debMin (taken 0 0 0 0) = .next (after (exec .debMin (taken 0 0 0 0))) ∧
    (1 < 3 ∧ 1 ≠ slotNumber vectorParams .minuteButton) := ⟨rfl, rfl, by decide⟩

theorem test_witness_EncPacksOrRaises : (59 : Byte).toNat ≤ 59 ∧ 59 < (60 : Byte).toNat := by decide
theorem test_witness_EncodeFieldPacksTensAndOnes : (59 : Nat) ≤ 59 ∧ (24 : Nat) ≤ 24 := by decide
theorem test_witness_MledWritesMinuteOrRaises : (59 : Byte).toNat ≤ 59 ∧ 59 < (60 : Byte).toNat := by decide
theorem test_witness_BrtWritesDutyOrRaises : (59 : Byte).toNat ≤ 59 ∧ 59 < (60 : Byte).toNat := by decide
theorem test_witness_HourCommandsWriteTwelveHourValue : Instr.hled 12 ∈ [Instr.to12 12, .hled 12] := by decide

theorem test_witness_PackedRoundTrip :
    23 < HourWrap.at24.value ∧ 24 < HourWrap.at25.value ∧ 59 ≤ 59 ∧ decodeField .hour 0x24 ≤ 24 ∧
    decodeField .min 0x59 ≤ 59 ∧ decodeField .sec 0xD9 ≤ 59 := by decide

theorem test_witness_DecodedRangeAndDomain : 23 < decodeField .hour 0x24 ∧ 59 < decodeField .min 0x5A ∧ 59 < decodeField .sec 0x60 := by
  decide

theorem test_witness_BrightnessIsTheRoundedQuotient : (59 : Nat) ≤ 59 := Nat.le_refl _
theorem test_witness_BrightnessLaws : (58 : Nat) ≤ 58 ∧ 59 ≤ vectorParams.pwmMax.toNat := by decide

theorem test_witness_DebJudgesAndRecords :
    (taken 5 0 0 0).JustTaken 5 ∧ (taken 5 0 0 0).slots.slot0.lastValid = false ∧
    (takenAfter 0 200 0 0 0).JustTaken 200 ∧ (takenAfter 0 200 0 0 0).slots.slot0.lastValid = true ∧
    ¬ (200 < ((200 : Timestamp) - 0).toNat) ∧ (takenAfter 0 201 0 0 0).JustTaken 201 ∧ 200 < ((201 : Timestamp) - 0).toNat :=
  ⟨⟨_, rfl⟩, rfl, ⟨_, rfl⟩, rfl, by decide, ⟨_, rfl⟩, by decide⟩

theorem test_witness_AcceptedEventsAreSpaced :
    monotoneTimes [(.hourButton, 0), (.minuteButton, 150), (.sync, 201)] ∧
    (debounceAll [(.hourButton, 0), (.minuteButton, 150), (.sync, 201)] (State.resetWith vectorParams)).2 =
      [(.hourButton, 0), (.sync, 201)] := ⟨by simp [monotoneTimes], rfl⟩

theorem test_witness_DroppedEventExtendsNoWindow : (debounce .hourButton 150 (takenAfter 0 0 0 0 0)).1 = false := by decide

/-- The same block with a slot per source. -/
def unshared : State := { State.resetWith vectorParams with params := { vectorParams with debounceShared := false } }

theorem test_witness_SharedSlotClosesEveryWindow :
    debounce .hourButton 1000 (taken 0 0 0 0) = (true, (debounce .hourButton 1000 (taken 0 0 0 0)).2) ∧
    (taken 0 0 0 0).params.debounceShared = true ∧ ((1200 : Timestamp) - 1000).toNat ≤ vectorParams.debounceMs ∧
    debounce .hourButton 1000 unshared = (true, (debounce .hourButton 1000 unshared).2) ∧
    unshared.params.debounceShared = false ∧ Source.minuteButton ≠ .hourButton := by decide

theorem test_witness_LastTimestampNeverDecreases :
    ∀ n, ((takenAfter 7 0 0 0 0).slots.get n).lastTs.toNat ≤ (7 : Timestamp).toNat := by
  intro n
  unfold Slots.get
  split
  · decide
  · split <;> decide

theorem test_witness_InchIncrementsTheHour :
    (taken 0 0x23 0 0).JustTaken 0 ∧ decodeField .hour ((taken 0 0x23 0 0).rtcByte .hour) < vectorParams.hourWrap.value ∧
    quietFor 2 (taken 0 0x23 0 0).env = true ∧ (taken 0 0x24 0 0 [.busDone]).JustTaken 0 ∧
    vectorParams.hourWrap.value ≤ decodeField .hour ((taken 0 0x24 0 0 [.busDone]).rtcByte .hour) ∧
    quietFor 1 (taken 0 0x24 0 0 [.busDone]).env = true := ⟨⟨_, rfl⟩, by decide, rfl, ⟨_, rfl⟩, by decide, rfl⟩

theorem test_witness_IncmWithoutCarry :
    (taken 0 0 0x58 0).JustTaken 0 ∧ decodeField .min ((taken 0 0 0x58 0).rtcByte .min) < 59 ∧
    quietFor 2 (taken 0 0 0x58 0).env = true ∧ (taken 0 0 0x5A 0).JustTaken 0 ∧
    59 < decodeField .min ((taken 0 0 0x5A 0).rtcByte .min) ∧ quietFor 1 (taken 0 0 0x5A 0).env = true :=
  ⟨⟨_, rfl⟩, by decide, rfl, ⟨_, rfl⟩, by decide, rfl⟩

theorem test_witness_IncmCarriesIntoTheHour :
    (taken 0 0x23 0x59 0).JustTaken 0 ∧ decodeField .min ((taken 0 0x23 0x59 0).rtcByte .min) = 59 ∧
    decodeField .hour ((taken 0 0x23 0x59 0).rtcByte .hour) < vectorParams.hourWrap.value ∧
    quietFor 4 (taken 0 0x23 0x59 0).env = true ∧
    (taken 0 0x24 0x59 0).JustTaken 0 ∧ decodeField .min ((taken 0 0x24 0x59 0).rtcByte .min) = 59 ∧
    vectorParams.hourWrap.value ≤ decodeField .hour ((taken 0 0x24 0x59 0).rtcByte .hour) ∧
    quietFor 2 (taken 0 0x24 0x59 0).env = true :=
  ⟨⟨_, rfl⟩, by decide, by decide, rfl, ⟨_, rfl⟩, by decide, by decide, rfl⟩

theorem test_witness_BtnhIncrementsWhenAccepted :
    (takenAfter 0 201 0x23 0 0).JustTaken 201 ∧
    accepts vectorParams ((takenAfter 0 201 0x23 0 0).slotOf .hourButton) 201 = true ∧
    decodeField .hour ((takenAfter 0 201 0x23 0 0).rtcByte .hour) < vectorParams.hourWrap.value ∧
    quietFor 2 (takenAfter 0 201 0x23 0 0).env = true ∧
    (takenAfter 0 201 0x24 0 0).JustTaken 201 ∧
    accepts vectorParams ((takenAfter 0 201 0x24 0 0).slotOf .hourButton) 201 = true ∧
    vectorParams.hourWrap.value ≤ decodeField .hour ((takenAfter 0 201 0x24 0 0).rtcByte .hour) ∧
    quietFor 1 (takenAfter 0 201 0x24 0 0).env = true ∧ (takenAfter 0 200 0x23 0 0).JustTaken 200 ∧
    accepts vectorParams ((takenAfter 0 200 0x23 0 0).slotOf .hourButton) 200 = false :=
  ⟨⟨_, rfl⟩, by decide, by decide, rfl, ⟨_, rfl⟩, by decide, by decide, rfl, ⟨_, rfl⟩, by decide⟩

theorem test_witness_BtnmIncrementsWhenAccepted :
    (∀ m, (takenAfter 0 201 0x23 m 0).JustTaken 201 ∧ quietFor 4 (takenAfter 0 201 0x23 m 0).env = true) ∧
    (∀ m ∈ [0x58, 0x59, 0x5A], accepts vectorParams ((takenAfter 0 201 0x23 m 0).slotOf .minuteButton) 201 = true) ∧
    decodeField .min ((takenAfter 0 201 0x23 0x58 0).rtcByte .min) < 59 ∧
    decodeField .min ((takenAfter 0 201 0x23 0x59 0).rtcByte .min) = 59 ∧
    decodeField .hour ((takenAfter 0 201 0x23 0x59 0).rtcByte .hour) < vectorParams.hourWrap.value ∧
    ((takenAfter 0 201 0x24 0x59 0).JustTaken 201 ∧
      accepts vectorParams ((takenAfter 0 201 0x24 0x59 0).slotOf .minuteButton) 201 = true ∧
      decodeField .min ((takenAfter 0 201 0x24 0x59 0).rtcByte .min) = 59 ∧
      vectorParams.hourWrap.value ≤ decodeField .hour ((takenAfter 0 201 0x24 0x59 0).rtcByte .hour) ∧
      quietFor 2 (takenAfter 0 201 0x24 0x59 0).env = true) ∧
    59 < decodeField .min ((takenAfter 0 201 0x23 0x5A 0).rtcByte .min) ∧ (takenAfter 0 200 0x23 0x58 0).JustTaken 200 ∧
    accepts vectorParams ((takenAfter 0 200 0x23 0x58 0).slotOf .minuteButton) 200 = false :=
  ⟨fun _ => ⟨⟨_, rfl⟩, rfl⟩, by decide, by decide, by decide, by decide,
    ⟨⟨_, rfl⟩, by decide, by decide, by decide, rfl⟩, by decide, ⟨_, rfl⟩, by decide⟩

theorem test_witness_AdjustFrame :
    Instr.btnm ∈ [Instr.inch, .incm, .btnh, .btnm] ∧ (taken 0 0x23 0x58 0).JustTaken 0 ∧
    noReset (taken 0 0x23 0x58 0).env = true ∧ noRtcStep (taken 0 0x23 0x58 0).env = true ∧
    exec .btnm (taken 0 0x23 0x58 0) = .next (after (exec .btnm (taken 0 0x23 0x58 0))) ∧
    vectorParams.regHour.toNat ≠ vectorParams.regMin.toNat ∧
    decodeField .min ((taken 0 0x23 0x58 0).rtcByte .min) ≠ 59 :=
  ⟨by decide, ⟨_, rfl⟩, rfl, rfl, rfl, by decide, by decide⟩

theorem test_witness_AdjustBusFailure :
    (∀ env, (taken 201 0x23 0x59 0 env).JustTaken 201 ∧ (taken 201 0x23 0x59 0 env).env = env) ∧
    (taken 201 0x23 0x58 0 [.busDone, .busErr 0xFF]).JustTaken 201 ∧
    (taken 201 0x23 0x58 0 [.busDone, .busErr 0xFF]).env = .busDone :: .busErr 0xFF :: [] ∧
    accepts vectorParams ((taken 201 0x23 0x59 0).slotOf .hourButton) 201 = true ∧
    accepts vectorParams ((taken 201 0x23 0x59 0).slotOf .minuteButton) 201 = true ∧
    decodeField .hour ((taken 201 0x23 0x59 0).rtcByte .hour) < vectorParams.hourWrap.value ∧
    decodeField .min ((taken 201 0x23 0x58 0).rtcByte .min) < 59 ∧
    decodeField .min ((taken 201 0x23 0x59 0).rtcByte .min) = 59 :=
  ⟨fun _ => ⟨⟨_, rfl⟩, rfl⟩, ⟨_, rfl⟩, rfl, by decide, by decide, by decide, by decide, by decide⟩

/-- INCH or INCM at 22:58, while the RTC advances to 22:59 before the read and to 23:58 before the write. -/
def overwritten : State :=
  (taken 0 0x22 0x57 0
    (stepEvents [(.min, 0x58)] ++ .busDone :: (stepEvents [(.hour, 0x23)] ++ .busDone :: []))).setPhase
      (.exec 0x80000000 0 [] none)

/-- INCM or BTNM at 22:58, with an RTC change before each of its four transactions; the minute it reads is 59. -/
def overwrittenCarry : State :=
  taken 0 0x22 0x58 0 (stepEvents [(.min, 0x59)] ++ .busDone :: (stepEvents [(.hour, 0x23)] ++ .busDone ::
    (stepEvents [(.hour, 0x05)] ++ .busDone :: (stepEvents [(.min, 0x01)] ++ .busDone :: []))))

theorem test_witness_UpdateOverwritesRtcChanges :
    overwritten.rtc.wf = true ∧ overwritten.JustTaken 0 ∧
    overwritten.env = stepEvents [(.min, 0x58)] ++ .busDone :: (stepEvents [(.hour, 0x23)] ++ .busDone :: []) ∧
    decodeField .hour ((overwritten.rtcSteps [(.min, 0x58)]).rtcByte .hour) < vectorParams.hourWrap.value ∧
    decodeField .min ((overwritten.rtcSteps [(.min, 0x58)]).rtcByte .min) < 59 ∧
    accepts vectorParams (overwritten.slotOf .hourButton) 0 = true ∧
    accepts vectorParams (overwritten.slotOf .minuteButton) 0 = true ∧
    (overwrittenCarry.rtc.wf = true ∧ overwrittenCarry.params.wellFormed = true ∧ overwrittenCarry.JustTaken 0 ∧
      overwrittenCarry.env = stepEvents [(.min, 0x59)] ++ .busDone :: (stepEvents [(.hour, 0x23)] ++ .busDone ::
        (stepEvents [(.hour, 0x05)] ++ .busDone :: (stepEvents [(.min, 0x01)] ++ .busDone :: []))) ∧
      decodeField .min ((overwrittenCarry.rtcSteps [(.min, 0x59)]).rtcByte .min) = 59 ∧
      decodeField .hour (((overwrittenCarry.rtcSteps [(.min, 0x59)]).rtcSteps [(.hour, 0x23)]).rtcByte .hour) <
        vectorParams.hourWrap.value ∧ ∀ w ∈ [(Field.min, (0x01 : Byte))], w.1 ≠ .hour) :=
  ⟨by decide, ⟨_, rfl⟩, rfl, by decide, by decide, by decide, by decide, by decide, by decide, ⟨_, rfl⟩, rfl, by decide,
    by decide, by decide⟩

theorem test_witness_CarryIsVisibleBetweenItsWrites :
    let s := (taken 0 0x23 0x59 0 [.busDone, .busDone, .busDone, .wait]).setPhase (.exec 0x90000000 0 [] none)
    s.rtc.wf = true ∧ s.params.wellFormed = true ∧ s.phase = .exec 0x90000000 0 [] none ∧
    decodeField .min (s.rtcByte .min) = 59 ∧ decodeField .hour (s.rtcByte .hour) < s.params.hourWrap.value ∧
    s.env = .busDone :: .busDone :: .busDone :: .wait :: [] ∧ quietFor 1 [] = true :=
  ⟨by decide, by decide, rfl, by decide, by decide, rfl, rfl⟩

theorem test_witness_RefreshShowsTheTime :
    (taken 0 0x24 0x59 0x59).JustTaken 0 ∧ quietFor 3 (taken 0 0x24 0x59 0x59).env = true ∧
    decodeField .min ((taken 0 0x24 0x59 0x59).rtcByte .min) ≤ 59 ∧
    decodeField .sec ((taken 0 0x24 0x59 0x59).rtcByte .sec) ≤ 59 ∧
    (taken 0 0x24 0x5A 0x60).JustTaken 0 ∧ quietFor 3 (taken 0 0x24 0x5A 0x60).env = true ∧
    59 < decodeField .min ((taken 0 0x24 0x5A 0x60).rtcByte .min) ∧
    59 < decodeField .sec ((taken 0 0x24 0x5A 0x60).rtcByte .sec) :=
  ⟨⟨_, rfl⟩, rfl, by decide, by decide, ⟨_, rfl⟩, rfl, by decide, by decide⟩

theorem test_witness_RefreshBusFailureKeepsOutputs :
    (taken 0 0x10 0x5A 0 [.busDone, .busDone, .busErr 0]).JustTaken 0 ∧ 2 < 3 ∧
    (taken 0 0x10 0x5A 0 [.busDone, .busDone, .busErr 0]).env = List.replicate 2 .busDone ++ .busErr 0 :: [] ∧
    (taken 0 0x10 0x5A 0 [.busErr 0]).env = List.replicate 0 .busDone ++ .busErr 0 :: [] := ⟨⟨_, rfl⟩, by decide, rfl, rfl⟩

/-- A REFRESH at 22:59:59 between whose first two reads the RTC passes to 23:00:00. -/
def torn : State :=
  taken 0 0x22 0x59 0x59 (stepEvents [] ++ .busDone ::
    (stepEvents [(.sec, 0x00), (.min, 0x00), (.hour, 0x23)] ++ .busDone :: (stepEvents [] ++ .busDone :: [])))

theorem test_witness_RefreshMayTear :
    torn.JustTaken 0 ∧
    torn.env = stepEvents [] ++ .busDone ::
      (stepEvents [(.sec, 0x00), (.min, 0x00), (.hour, 0x23)] ++ .busDone :: (stepEvents [] ++ .busDone :: [])) ∧
    decodeField .min ((torn.rtcSteps [(.sec, 0x00), (.min, 0x00), (.hour, 0x23)]).rtcByte .min) ≤ 59 ∧
    decodeField .sec ((torn.rtcSteps [(.sec, 0x00), (.min, 0x00), (.hour, 0x23)]).rtcByte .sec) ≤ 59 ∧
    (after (exec .refresh torn)).outHour = 10 ∧ (after (exec .refresh torn)).outMin = 0 :=
  ⟨⟨_, rfl⟩, rfl, by decide, by decide, by decide, by decide⟩

theorem test_witness_RefreshDependsOnTheBytesRead :
    (taken 0 0x21 0x45 0x30).JustTaken 0 ∧ (takenAfter 7 9 0x21 0x45 0x30).JustTaken 9 ∧
    quietFor 3 (taken 0 0x21 0x45 0x30).env = true ∧ quietFor 3 (takenAfter 7 9 0x21 0x45 0x30).env = true ∧
    (∀ f, (taken 0 0x21 0x45 0x30).rtcByte f = (takenAfter 7 9 0x21 0x45 0x30).rtcByte f) ∧
    exec .refresh (taken 0 0x21 0x45 0x30) = .next (after (exec .refresh (taken 0 0x21 0x45 0x30))) ∧
    exec .refresh (takenAfter 7 9 0x21 0x45 0x30) = .next (after (exec .refresh (takenAfter 7 9 0x21 0x45 0x30))) ∧
    decodeField .min ((taken 0 0x21 0x45 0x30).rtcByte .min) ≤ 59 ∧
    decodeField .sec ((taken 0 0x21 0x45 0x30).rtcByte .sec) ≤ 59 :=
  ⟨⟨_, rfl⟩, ⟨_, rfl⟩, rfl, rfl, by intro f; cases f <;> rfl, rfl, rfl, by decide, by decide⟩

theorem test_witness_RefreshFrame :
    noReset (taken 0 0x21 0x45 0x30).env = true ∧ noRtcStep (taken 0 0x21 0x45 0x30).env = true ∧
    exec .refresh (taken 0 0x21 0x45 0x30) = .next (after (exec .refresh (taken 0 0x21 0x45 0x30))) := ⟨rfl, rfl, rfl⟩

/-- A command just taken after reset by a block with `SYNC_HOUR_12H` = false. -/
def takenDirect : State :=
  (State.resetWith { vectorParams with syncHour12h := false }).setPhase (.exec 0 0 [] none)

theorem test_witness_SyncWritesTheTime :
    (taken 0 0 0 0).JustTaken 0 ∧ quietFor 3 (taken 0 0 0 0).env = true ∧
    accepts vectorParams ((taken 0 0 0 0).slotOf .sync) 0 = true ∧ (59 : Byte).toNat ≤ 59 ∧
    (taken 0 0 0 0).params.syncHour12h = true ∧ takenDirect.JustTaken 0 ∧ quietFor 3 takenDirect.env = true ∧
    accepts takenDirect.params (takenDirect.slotOf .sync) 0 = true ∧
    (23 : Byte).toNat < takenDirect.params.hourWrap.value :=
  ⟨⟨_, rfl⟩, rfl, by decide, by decide, rfl, ⟨_, rfl⟩, rfl, by decide, by decide⟩

/-- `SYNC 24, 0, 0` with `SYNC_HOUR_12H` = false raises (95_test_vectors.md 2.7). -/
theorem test_witness_SyncDroppedOrOutOfRange :
    (takenAfter 0 200 0 0 0).JustTaken 200 ∧ accepts vectorParams ((takenAfter 0 200 0 0 0).slotOf .sync) 200 = false ∧
    (taken 0 0 0 0).JustTaken 0 ∧ accepts vectorParams ((taken 0 0 0 0).slotOf .sync) 0 = true ∧ 59 < (60 : Byte).toNat ∧
    takenDirect.JustTaken 0 ∧ accepts takenDirect.params (takenDirect.slotOf .sync) 0 = true ∧
    takenDirect.params.syncHour12h = false ∧ takenDirect.params.hourWrap.value ≤ (24 : Byte).toNat :=
  ⟨⟨_, rfl⟩, by decide, ⟨_, rfl⟩, by decide, by decide, ⟨_, rfl⟩, by decide, rfl, by decide⟩

theorem test_witness_SyncBusFailure :
    (∀ env, (taken 0 0 0 0 env).JustTaken 0 ∧ (taken 0 0 0 0 env).env = env) ∧
    accepts vectorParams ((taken 0 0 0 0).slotOf .sync) 0 = true ∧ (59 : Byte).toNat ≤ 59 ∧ vectorParams.syncHour12h = true ∧
    (takenDirect.setEnv [.busDone, .busErr 0xFF]).JustTaken 0 ∧
    accepts takenDirect.params (takenDirect.slotOf .sync) 0 = true ∧
    (23 : Byte).toNat < takenDirect.params.hourWrap.value :=
  ⟨fun _ => ⟨⟨_, rfl⟩, rfl⟩, by decide, by decide, rfl, ⟨_, rfl⟩, by decide, by decide⟩

theorem test_witness_SyncFrame :
    noReset (taken 0 0 0 0).env = true ∧ noRtcStep (taken 0 0 0 0).env = true ∧
    exec (.sync 13 45 30) (taken 0 0 0 0) = .next (after (exec (.sync 13 45 30) (taken 0 0 0 0))) ∧
    (1 < 3 ∧ 1 ≠ slotNumber vectorParams .sync) := ⟨rfl, rfl, rfl, by decide⟩

/-- The block idle after reset, with a SYNC and a REFRESH presented. -/
def syncThenRefresh : State :=
  (State.resetWith vectorParams).setHost [⟨encode (.sync 24 59 59), 0⟩, ⟨encode .refresh, 0⟩]

theorem test_witness_RefreshAfterSyncShowsItsTime :
    syncThenRefresh.inv = true ∧ syncThenRefresh.phase = .idle ∧ syncThenRefresh.env = [] ∧
    syncThenRefresh.host = ⟨encode (.sync 24 59 59), 0⟩ :: ⟨encode .refresh, 0⟩ :: [] ∧
    syncThenRefresh.params.syncHour12h = true ∧
    accepts syncThenRefresh.params (syncThenRefresh.slotOf .sync) 0 = true ∧ (59 : Byte).toNat ≤ 59 := by decide

/-- A SYNC just taken after reset, with its own word in `phase`. -/
def takenSync : State := (State.resetWith vectorParams).setPhase (.exec 0xC00D2D1E 0 [] none)

theorem test_witness_OnlySyncWritesSec :
    vectorParams.wellFormed = true ∧ takenSync.rtc.wf = true ∧ (∀ a b c, Instr.refresh ≠ .sync a b c) ∧
    noRtcStepOf .sec (taken 0 0x21 0x45 0x30).env = true ∧
    exec .refresh (taken 0 0x21 0x45 0x30) = .next (after (exec .refresh (taken 0 0x21 0x45 0x30))) ∧
    takenSync.JustTaken 0 ∧ quietFor 3 takenSync.env = true ∧
    exec (.sync 13 45 30) takenSync = .next (after (exec (.sync 13 45 30) takenSync)) ∧
    (after (exec (.sync 13 45 30) takenSync)).busLog.length = takenSync.busLog.length + 3 :=
  ⟨by decide, by decide, by intros; simp, rfl, rfl, ⟨_, rfl⟩, rfl, rfl, rfl⟩

end Sys2Proof.Tests
end

section
/-! PROOFS. Family 00_scope.md, the parameters of the block (R5): they are in range for this block, no step changes them, and the
invariant holds right after reset. -/

namespace Sys2Proof

/-! ### The ranges of this block's parameters -/

/-- `PWM_MAX` is at least 1, whatever the opaque value is (log 2). -/
theorem Config.pwmMax_ne_zero : Config.pwmMax ≠ 0#16 := by
  unfold Config.pwmMax
  split
  · decide
  · assumption

/-- The three register addresses are pairwise distinct, whatever the opaque bytes are (log 2). -/
theorem Config.regs_pairwise_ne :
    Config.regHour ≠ Config.regMin ∧ Config.regHour ≠ Config.regSec ∧ Config.regMin ≠ Config.regSec := by
  unfold Config.regHour Config.regMin Config.regSec
  by_cases h : Config.regsDistinct = true
  · rw [if_pos h, if_pos h, if_pos h]
    simpa [Config.regsDistinct, and_assoc] using h
  · rw [if_neg h, if_neg h, if_neg h]
    decide

theorem Config.params_wellFormed : Config.params.wellFormed = true := by
  obtain ⟨hourMin, hourSec, minSec⟩ := Config.regs_pairwise_ne
  simp [Params.wellFormed, Config.params, Config.pwmMax_ne_zero, hourMin, hourSec, minSec]

end Sys2Proof

namespace Sys2Proof.Machine

/-! ### The invariant at reset -/

theorem Slot.ok_reset : Slot.reset.ok = true := rfl

theorem State.slotsOk_resetWith (p : Params) : (State.resetWith p).slotsOk = true := by
  simp [State.slotsOk, State.resetWith, Slots.reset, Slot.ok_reset]

theorem State.outputsOk_resetWith (p : Params) : (State.resetWith p).outputsOk = true := by
  simp [State.outputsOk, State.resetWith]

/-- At reset every part of the invariant but the parameters' ranges holds for any parameters. -/
theorem State.inv_resetWith (p : Params) : (State.resetWith p).inv = p.wellFormed := by
  have hwf : (State.resetWith p).rtc.wf = true := rfl
  have hmapped : (State.resetWith p).rtcMapped = true := rfl
  have hphase : (State.resetWith p).phaseOk = true := rfl
  have hparams : (State.resetWith p).params = p := rfl
  simp [State.inv, hwf, hmapped, hphase, hparams, State.slotsOk_resetWith, State.outputsOk_resetWith]

/-! ### What keeps the parameters -/

/-- `t` has the parameters of `s`. -/
def SameParams (s t : State) : Prop := t.params = s.params

/-- Every update of a bus command keeps the parameters, whatever the script holds and whichever registers are written. -/
theorem busRel_sameParams : BusRel (fun _ => True) (fun _ => True) SameParams where
  refl _ := rfl
  trans hst htu := htu.trans hst
  suffix _ := trivial
  steps s xs _ _ := State.rtcSteps_params s xs
  write s f v _ := State.setRtc_params s f v
  log s _ _ _ := State.logTxn_params s _
  env s e := State.setEnv_params s e
  phase s p := State.setPhase_params s p
  bus s := State.setFlags_params s _
  dom s := State.setFlags_params s _
  rst s _ _ _ _ := State.resetBlock_params s

theorem exec_params {i : Instr} {s t : State} (h : exec i s = .next t) : t.params = s.params :=
  busRel_sameParams.exec trivial trivial (fun _ _ _ _ => trivial)
    (fun _ s _ _ _ _ _ => State.setOutputs_params s _ _ _)
    State.setResult_params State.setAcc_params State.recordAccepted_params trivial h

theorem raise_params {e : ErrorKind} {s t : State} (h : raise e s = .next t) : t.params = s.params := by
  rw [raise_next] at h
  subst h
  rfl

/-- Between commands the environment's events keep the parameters; a command's step keeps them because its meaning does. -/
theorem step_params {s t : State} (h : step s = .next t) : t.params = s.params := by
  rcases step_cases h with ⟨_, f, v, es, _, rfl⟩ | ⟨_, es, _, rfl⟩ | ⟨_, l, es, _, rfl⟩ | ⟨_, _, rfl⟩ |
    ⟨_, c, rest, i, _, _, hexec⟩ | ⟨_, c, rest, e, _, _, hraise⟩ | ⟨_, _, _, _, i, _, _, hexec⟩ |
    ⟨_, _, _, _, e, _, _, hraise⟩
  · rfl
  · rfl
  · rfl
  · rfl
  · exact (exec_params hexec).trans rfl
  · exact (raise_params hraise).trans rfl
  · exact exec_params hexec
  · exact raise_params hraise

/-! ### The obligations -/

/-- Settles O17, by the cases of a step and, for a command, the parameters kept by every update of its meaning. -/
theorem parametersNeverChange : Obligations.ParametersNeverChange := fun _ _ h => step_params h

/-- Settles O15: at reset the invariant comes down to the parameters' ranges, which this block's parameters meet. -/
theorem invariantHoldsAtReset : Obligations.InvariantHoldsAtReset :=
  ⟨(State.inv_resetWith Config.params).trans Config.params_wellFormed, fun p hp => (State.inv_resetWith p).trans hp⟩

end Sys2Proof.Machine
end

section
/-! PROOFS. Family 10_state.md, the command in progress (R15): every command follows the order of its transactions
(`dueRequest`), waits at the request that is due, goes on there, and ends as if it had not waited (log 8, log 16). -/

namespace Sys2Proof.Machine

/-! ### Pieces of a meaning that make the requests of a list -/

/-- A resumed command goes straight to the request its ports hold: with recorded bytes that extend `pre`, the piece `m` passes
its completed transactions without a change of the state and issues the request that `due` gives. -/
def GoesOn (p : Params) (due : List Byte → Option BusReq) (pre : List Byte) (m : State → Result) : Prop :=
  ∀ (s : State) (cmd : Word) (now : Timestamp) (rest : List Byte) (r : BusReq), s.params = p →
    s.phase = .exec cmd now (pre ++ rest) (some r) → due (pre ++ rest) = some r →
      ∃ n f op k, (pre ++ rest)[n]? = none ∧ busRequest p f op = r ∧ m s = busAccess n f op s k

/-- After transactions with the bytes `pre`, the piece `m` makes the requests that `due` lists: it waits only at the one that is
due, goes on there, and its outcome does not depend on the wait. -/
structure Follows (p : Params) (due : List Byte → Option BusReq) (pre : List Byte) (m : State → Result) : Prop where
  waits : WaitsAt p due pre m
  resumes : Resumes p pre.length m
  goesOn : GoesOn p due pre m

namespace Follows

variable {p : Params} {due : List Byte → Option BusReq} {pre : List Byte}

/-- A transaction at the request that is due. -/
theorem access {n : Nat} {f : Field} {op : BusOp} {k : Byte → State → Result} (hn : pre.length = n)
    (hd : due pre = some (busRequest p f op)) (hk : ∀ b, Follows p due (pre ++ [b]) (k b)) :
    Follows p due pre fun s => busAccess n f op s k where
  waits := WaitsAt.access hn hd fun b => (hk b).waits
  resumes := by
    rw [hn]
    exact Resumes.access fun b => by simpa [hn] using (hk b).resumes
  goesOn := by
    intro s cmd now rest r hs hp hr
    cases rest with
    | nil => exact ⟨n, f, op, k, by simp [hn], by simpa [hd] using hr, rfl⟩
    | cons b rest =>
      rw [List.append_cons] at hp hr ⊢
      obtain ⟨n', f', op', k', hnone, hreq, hgo⟩ := (hk b).goesOn s cmd now rest r hs hp hr
      have hb : (pre ++ [b] ++ rest)[n]? = some b := by simp [← hn]
      exact ⟨n', f', op', k', hnone, hreq, (busAccess_recorded hp hb).trans hgo⟩

/-- A piece that ends the command, where no request is due any more. -/
theorem ends {m : State → Result} (hd : ∀ rest, due (pre ++ rest) = none)
    (hm : ∀ s t, m s = .next t → t.phase = .idle) : Follows p due pre m where
  waits _ _ _ _ _ _ _ _ h := .inl (hm _ _ h)
  resumes := by
    intro s t cmd now got _ _ _ h hb
    rw [not_busy_of_idle (hm s t h)] at hb
    cases hb
  goesOn := by
    intro s cmd now rest r _ _ hr
    rw [hd rest] at hr
    cases hr

theorem finish (hd : ∀ rest, due (pre ++ rest) = none) : Follows p due pre Machine.finish :=
  ends hd fun s t h => by rw [(finish_next s t).mp h]; rfl

theorem raise (e : ErrorKind) (hd : ∀ rest, due (pre ++ rest) = none) : Follows p due pre (Machine.raise e) :=
  ends hd fun s t h => by rw [(raise_next e s t).mp h]; rfl

/-- A piece may read the parameters, which are `p` throughout. -/
theorem congr {m m' : State → Result} (h : ∀ s : State, s.params = p → m s = m' s) (hm : Follows p due pre m') :
    Follows p due pre m where
  waits := WaitsAt.congr h hm.waits
  resumes := Resumes.congr h hm.resumes
  goesOn := by
    intro s cmd now rest r hs hp hr
    obtain ⟨n, f, op, k, hnone, hreq, hgo⟩ := hm.goesOn s cmd now rest r hs hp hr
    exact ⟨n, f, op, k, hnone, hreq, (h s hs).trans hgo⟩

/-- The gate of BTNH, BTNM and SYNC stands before the first transaction. -/
theorem ifAccepted {src : Source} {m : State → Result} (hm : Follows p due [] m) :
    Follows p due [] fun s => Machine.ifAccepted src s m where
  waits := WaitsAt.ifAccepted hm.waits
  resumes := Resumes.ifAccepted hm.resumes
  goesOn := by
    intro s cmd now rest r hs hp hr
    obtain ⟨n, f, op, k, hnone, hreq, hgo⟩ := hm.goesOn s cmd now rest r hs hp hr
    exact ⟨n, f, op, k, hnone, hreq, (ifAccepted_resumed (State.pendingReq_exec s _ _ _ _ hp)).trans hgo⟩

end Follows

/-! ### The order of the requests of each command -/

theorem nextHourByte_eq_none {p : Params} {ph : Byte} (h : p.hourWrap.value ≤ decodeField .hour ph) :
    nextHourByte p ph = none := if_neg (Nat.not_lt.mpr h)

theorem nextHourByte_eq_some {p : Params} {ph : Byte} (h : ¬ p.hourWrap.value ≤ decodeField .hour ph) :
    nextHourByte p ph = some (encodeField
      (if decodeField .hour ph + 1 = p.hourWrap.value then 0 else decodeField .hour ph + 1)) := if_pos (Nat.not_le.mp h)

/-- `incHour` reads HOUR, and on an hour in domain writes the next one; then `k`, whatever byte was recorded for the write. -/
theorem Follows.incHour {p : Params} {due : List Byte → Option BusReq} {pre : List Byte} {n : Nat} {k : State → Result}
    (hn : pre.length = n) (hread : due pre = some (.read p.regHour))
    (hwrite : ∀ ph v, nextHourByte p ph = some v → due (pre ++ [ph]) = some (.write p.regHour v))
    (hbad : ∀ ph rest, nextHourByte p ph = none → due (pre ++ [ph] ++ rest) = none)
    (hk : ∀ ph v b, nextHourByte p ph = some v → Follows p due (pre ++ [ph] ++ [b]) k) :
    Follows p due pre fun s => Machine.incHour n s k := by
  unfold Machine.incHour memRead memWrite
  refine Follows.access hn hread fun ph => ?_
  by_cases hd : p.hourWrap.value ≤ decodeField .hour ph
  · refine Follows.congr (m' := Machine.raise .domain) (fun s hs => by simp [hs, hd]) ?_
    exact Follows.raise .domain fun rest => hbad ph rest (nextHourByte_eq_none hd)
  · have hv := nextHourByte_eq_some hd
    refine Follows.congr (fun s hs => by simp only [hs, hd, if_false]; rfl) ?_
    exact Follows.access (by simp [hn]) (hwrite ph _ hv) fun b => hk ph _ b hv

theorem dueInHour_bad {p : Params} {ph : Byte} (h : nextHourByte p ph = none) (rest : List Byte) :
    dueInHour p (ph :: rest) = none := by
  cases rest with
  | nil => simp [dueInHour, h]
  | cons b rest => rfl

/-- INCH, and BTNH once accepted: read HOUR, write HOUR (43_adjust.md R71, R74). -/
theorem follows_incHour (p : Params) : Follows p (dueInHour p) [] fun s => Machine.incHour 0 s finish :=
  Follows.incHour rfl rfl (fun ph v hv => by simp [dueInHour, hv]) (fun ph rest hb => dueInHour_bad hb rest)
    (fun _ _ _ _ => Follows.finish fun _ => rfl)

/-- Above 59 no request follows the read of MIN. -/
theorem dueInMinute_bad {p : Params} {pm : Byte} (h : 59 < decodeField .min pm) (rest : List Byte) :
    dueInMinute p (pm :: rest) = none := by
  have hlt : ¬ decodeField .min pm < 59 := by omega
  have hne : ¬ decodeField .min pm = 59 := by omega
  simp only [dueInMinute, hlt, hne, if_false]

/-- Below 59 one write of MIN follows. -/
theorem dueInMinute_noCarry {p : Params} {pm : Byte} (h : decodeField .min pm < 59) (rest : List Byte) :
    dueInMinute p (pm :: rest) =
      if rest = [] then some (.write p.regMin (encodeField (decodeField .min pm + 1))) else none := by
  simp only [dueInMinute, h, if_true]

/-- At 59 the requests of `incHour` follow. -/
theorem dueInMinute_carry {p : Params} {pm : Byte} (h : decodeField .min pm = 59) {rest : List Byte}
    (hl : rest.length ≠ 2) : dueInMinute p (pm :: rest) = dueInHour p rest := by
  simp only [dueInMinute, h, Nat.lt_irrefl, if_false, if_true]
  split
  · exact absurd rfl hl
  · rfl

/-- At 59, after the two transactions of `incHour`, the write of MIN follows. -/
theorem dueInMinute_carry_last {p : Params} {pm : Byte} (h : decodeField .min pm = 59) (ph b : Byte) :
    dueInMinute p [pm, ph, b] = (nextHourByte p ph).map fun _ => .write p.regMin 0x00 := by
  simp only [dueInMinute, h, Nat.lt_irrefl, if_false, if_true]

/-- At 59 on a bad hour no request follows the read of HOUR. -/
theorem dueInMinute_carry_bad {p : Params} {pm ph : Byte} (h : decodeField .min pm = 59) (hb : nextHourByte p ph = none)
    (rest : List Byte) : dueInMinute p (pm :: ph :: rest) = none := by
  by_cases hl : rest.length = 1
  · obtain ⟨b, rfl⟩ := List.length_eq_one_iff.mp hl
    rw [dueInMinute_carry_last h, hb]
    rfl
  · rw [dueInMinute_carry h (by simpa using hl), dueInHour_bad hb]

/-- The carry of `incMinute`: the hour first, MIN last (43_adjust.md R72). -/
theorem follows_incMinute_carry {p : Params} {pm : Byte} (h : decodeField .min pm = 59) :
    Follows p (dueInMinute p) [pm] fun s => incHour 1 s fun s => memWrite 3 .min (encodeField 0) s finish := by
  refine Follows.incHour rfl (dueInMinute_carry h (by decide)) (fun ph v hv => ?_)
    (fun ph rest hb => dueInMinute_carry_bad h hb rest) (fun ph v b hv => ?_)
  · have hdue : dueInMinute p [pm, ph] = dueInHour p [ph] := dueInMinute_carry h (by simp)
    simpa [dueInHour, hv] using hdue
  · refine Follows.access rfl ?_ fun c => Follows.finish fun rest => ?_
    · have hdue := dueInMinute_carry_last (p := p) h ph b
      rw [hv] at hdue
      exact hdue
    · exact dueInMinute_carry h (rest := ph :: b :: c :: rest) (by simp)

/-- INCM, and BTNM once accepted (43_adjust.md R73, R75). -/
theorem follows_incMinute (p : Params) : Follows p (dueInMinute p) [] incMinute := by
  unfold incMinute memRead
  refine Follows.access rfl rfl fun pm => ?_
  rcases Nat.lt_trichotomy (decodeField .min pm) 59 with hlt | heq | hgt
  · have hle : ¬ 59 < decodeField .min pm := by omega
    have hne : ¬ decodeField .min pm + 1 = 60 := by omega
    simp only [hle, hne, if_false, memWrite]
    refine Follows.access rfl (dueInMinute_noCarry hlt []) fun b => Follows.finish fun rest => ?_
    exact dueInMinute_noCarry hlt (b :: rest)
  · simp only [heq, Nat.lt_irrefl, if_false, if_true]
    exact follows_incMinute_carry heq
  · simp only [hgt, if_true]
    exact Follows.raise .domain fun rest => dueInMinute_bad hgt rest

/-- REFRESH reads HOUR, MIN and SEC (44_clockloop.md R80). -/
theorem follows_refresh (p : Params) : Follows p (fun got => dueInRefresh p got.length) [] execRefresh := by
  refine Follows.access rfl rfl fun ph => Follows.access rfl rfl fun pm => Follows.access rfl rfl fun ps =>
    Follows.ends (fun rest => rfl) fun s t h => ?_
  rcases showTime_next h with rfl | ⟨_, _, rfl⟩ <;> rfl

/-- The domain of SYNC's operands (45_sync.md R85). -/
def syncInDomain (p : Params) (a b c : Byte) : Prop :=
  b.toNat ≤ 59 ∧ c.toNat ≤ 59 ∧ (p.syncHour12h = true ∨ a.toNat < p.hourWrap.value)

theorem dueInSync_bad {p : Params} {a b c : Byte} (h : ¬ syncInDomain p a b c) (k : Nat) : dueInSync p a b c k = none := by
  unfold dueInSync
  rw [if_pos]
  by_contra hc
  simp only [not_or, not_and, Nat.not_lt, Nat.not_le] at hc
  obtain ⟨hb, hc', ha⟩ := hc
  refine h ⟨hb, hc', ?_⟩
  cases hp : p.syncHour12h
  · exact .inr (ha hp)
  · exact .inl rfl

theorem dueInSync_ok {p : Params} {a b c : Byte} (h : syncInDomain p a b c) (k : Nat) : dueInSync p a b c k =
    if k = 0 then some (.write p.regHour (encodeField (if p.syncHour12h then to12Hour a.toNat else a.toNat)))
    else if k = 1 then some (.write p.regMin (encodeField b.toNat))
    else if k = 2 then some (.write p.regSec (syncSecByte p c.toNat)) else none := by
  obtain ⟨hb, hc, ha⟩ := h
  have hdom : ¬ (59 < b.toNat ∨ 59 < c.toNat ∨ p.syncHour12h = false ∧ p.hourWrap.value ≤ a.toNat) := by
    rintro (h | h | ⟨h, h'⟩)
    · omega
    · omega
    · rcases ha with ha | ha
      · simp [h] at ha
      · omega
  unfold dueInSync
  rw [if_neg hdom]

/-- No request follows the three writes. -/
theorem dueInSync_over {p : Params} {a b c : Byte} {k : Nat} (hk : 3 ≤ k) : dueInSync p a b c k = none := by
  by_cases h : syncInDomain p a b c
  · rw [dueInSync_ok h, if_neg (by omega), if_neg (by omega), if_neg (by omega)]
  · exact dueInSync_bad h k

/-- The checks and the three writes of an accepted SYNC, with the hour value `hv`. -/
theorem follows_syncWrites {p : Params} {a b c : Byte} (ha : p.syncHour12h = true ∨ a.toNat < p.hourWrap.value) :
    Follows p (fun got => dueInSync p a b c got.length) []
      (syncWrites (if p.syncHour12h then to12Hour a.toNat else a.toNat) b.toNat c.toNat) := by
  unfold syncWrites memWrite
  by_cases hb : 59 < b.toNat
  · simp only [hb, if_true]
    exact Follows.raise .domain fun rest => dueInSync_bad (fun ⟨hb', _⟩ => by omega) _
  by_cases hc : 59 < c.toNat
  · simp only [hb, hc, if_true, if_false]
    exact Follows.raise .domain fun rest => dueInSync_bad (fun ⟨_, hc', _⟩ => by omega) _
  have hdue := dueInSync_ok (p := p) (a := a) (b := b) (c := c) ⟨by omega, by omega, ha⟩
  simp only [hb, hc, if_false]
  refine Follows.access rfl (hdue 0) fun _ => Follows.access rfl (hdue 1) fun _ => ?_
  refine Follows.congr (fun s hs => by rw [hs]) ?_
  exact Follows.access rfl (hdue 2) fun _ => Follows.finish fun rest => dueInSync_over (by simp)

/-- An accepted SYNC: the check on the hour, then the checks on the others and the writes (45_sync.md R85). -/
theorem follows_sync (p : Params) (a b c : Byte) :
    Follows p (fun got => dueInSync p a b c got.length) [] (execSync a b c) := by
  refine Follows.ifAccepted ?_
  unfold plainOperand
  cases h12 : p.syncHour12h with
  | true =>
    refine Follows.congr (fun s hs => ?_) (follows_syncWrites (.inl h12))
    simp [hs, h12]
  | false =>
    by_cases ha : p.hourWrap.value ≤ a.toNat
    · refine Follows.congr (m' := raise .domain) (fun s hs => by simp [hs, h12, ha]) ?_
      refine Follows.raise .domain fun rest => dueInSync_bad (fun ⟨_, _, ha'⟩ => ?_) _
      rcases ha' with h | h
      · simp [h12] at h
      · omega
    · refine Follows.congr (fun s hs => ?_) (follows_syncWrites (.inr (Nat.not_le.mp ha)))
      simp [hs, h12, ha]

/-! ### Every command -/

theorem decodeToResult_idle {f : Field} {c : Byte} {s t : State} (h : decodeToResult f c s = .next t) : t.phase = .idle := by
  rw [decodeToResult, finish_next] at h
  rw [h]; rfl

theorem debounceToResult_idle {src : Source} {s t : State} (h : debounceToResult src s = .next t) : t.phase = .idle := by
  rw [debounceToResult, finish_next] at h
  rw [h]; rfl

/-- ENC, MLED and BRT above 59 raise DomainError (40_codec.md R47, 41_display.md R55, R57). -/
theorem exec_above59 {c : Byte} (hc : 59 < c.toNat) {i : Instr} (hi : i ∈ [Instr.enc c, .mled c, .brt c]) (s : State) :
    exec i s = raise .domain s := by
  simp only [List.mem_cons, List.not_mem_nil, or_false] at hi
  rcases hi with rfl | rfl | rfl
  · exact if_pos hc
  · exact if_pos hc
  · exact if_pos hc

/-- ENC, MLED and BRT up to 59 write `result` and end. -/
theorem exec_upTo59 {c : Byte} (hc : ¬ 59 < c.toNat) {i : Instr} (hi : i ∈ [Instr.enc c, .mled c, .brt c]) (s : State) :
    ∃ v, exec i s = finish (s.setResult v) := by
  simp only [List.mem_cons, List.not_mem_nil, or_false] at hi
  rcases hi with rfl | rfl | rfl
  · exact ⟨_, if_neg hc⟩
  · exact ⟨_, if_neg hc⟩
  · exact ⟨_, if_neg hc⟩

theorem exec_checked_idle {c : Byte} {i : Instr} (hi : i ∈ [Instr.enc c, .mled c, .brt c]) {s t : State}
    (h : exec i s = .next t) : t.phase = .idle := by
  by_cases hc : 59 < c.toNat
  · rw [exec_above59 hc hi, raise_next] at h
    rw [h]; rfl
  · obtain ⟨v, hv⟩ := exec_upTo59 hc hi s
    rw [hv, finish_next] at h
    rw [h]; rfl

/-- Every command makes the requests of `dueRequest`; the commands that make none end at once. -/
theorem exec_follows (p : Params) (i : Instr) : Follows p (dueRequest p i) [] (exec i) := by
  cases i with
  | inch => exact follows_incHour p
  | incm => exact follows_incMinute p
  | btnh => exact Follows.ifAccepted (follows_incHour p)
  | btnm => exact Follows.ifAccepted (follows_incMinute p)
  | sync a b c => exact follows_sync p a b c
  | refresh => exact follows_refresh p
  | decHour c => exact Follows.ends (fun _ => rfl) fun _ _ => decodeToResult_idle
  | decMin c => exact Follows.ends (fun _ => rfl) fun _ _ => decodeToResult_idle
  | decSec c => exact Follows.ends (fun _ => rfl) fun _ _ => decodeToResult_idle
  | enc c => exact Follows.ends (fun _ => rfl) fun _ _ => exec_checked_idle (c := c) (by simp)
  | mled c => exact Follows.ends (fun _ => rfl) fun _ _ => exec_checked_idle (c := c) (by simp)
  | brt c => exact Follows.ends (fun _ => rfl) fun _ _ => exec_checked_idle (c := c) (by simp)
  | to12 c => exact Follows.ends (fun _ => rfl) fun s t h => by rw [(finish_next _ t).mp h]; rfl
  | hled c => exact Follows.ends (fun _ => rfl) fun s t h => by rw [(finish_next _ t).mp h]; rfl
  | debHour => exact Follows.ends (fun _ => rfl) fun _ _ => debounceToResult_idle
  | debMin => exact Follows.ends (fun _ => rfl) fun _ _ => debounceToResult_idle
  | debSync => exact Follows.ends (fun _ => rfl) fun _ _ => debounceToResult_idle

/-- A command ends, or it waits at the request that is due after its completed transactions. -/
theorem exec_waits {i : Instr} {s t : State} {cmd : Word} {now : Timestamp} {got : List Byte} {req : Option BusReq}
    (hp : s.phase = .exec cmd now got req) (h : exec i s = .next t) :
    t.phase = .idle ∨ ∃ more r, t.phase = .exec cmd now (got ++ more) (some r) ∧
      dueRequest s.params i (got ++ more) = some r :=
  (exec_follows s.params i).waits s t cmd now got req rfl hp h

/-- A command that waits goes on at the request its ports hold. -/
theorem exec_goesOn {i : Instr} {s : State} {cmd : Word} {now : Timestamp} {got : List Byte} {r : BusReq}
    (hp : s.phase = .exec cmd now got (some r)) (hr : dueRequest s.params i got = some r) :
    ∃ n f op k, got[n]? = none ∧ busRequest s.params f op = r ∧ exec i s = busAccess n f op s k :=
  (exec_follows s.params i).goesOn s cmd now got r rfl hp hr

theorem step_inProgress {s : State} {cmd : Word} {now : Timestamp} {got : List Byte} {req : Option BusReq} {i : Instr}
    (hp : s.phase = .exec cmd now got req) (hi : decodeCmd cmd = .ok i) : step s = exec i s := by
  simp only [step, nextAction, hp, hi]

/-- Settles O12: what `Resumes` says of every command, with the `wait` it stopped at found from the rest of the script. -/
theorem waitingDoesNotChangeTheOutcome : Obligations.WaitingDoesNotChangeTheOutcome := by
  intro s t i cmd now before after hp hi henv h hbusy hafter
  obtain ⟨before', bs, r, henv', _, ht, hgo⟩ := (exec_follows s.params i).resumes s t cmd now [] rfl hp rfl h hbusy
  have hsame : before' = before := by
    rw [henv, hafter] at henv'
    exact (List.append_cancel_right henv').symm
  calc step t = exec i t := step_inProgress ht hi
    _ = exec i (s.setEnv (before' ++ t.env)) := hgo
    _ = exec i { s with env := before ++ after } := by rw [hsame, hafter]; rfl

end Sys2Proof.Machine
end

section
/-! PROOFS. Family 10_state.md, the invariant (R13, R15, R16): every update of a command keeps the part of `State.inv` that is
about the registers and the memory, the order of the requests gives the part about `phase`, and `rst` resets all of it. -/

namespace Sys2Proof.Machine

/-! ### The invariant's part about registers and memory -/

/-- The invariant without its part about `phase`. -/
def State.dataOk (s : State) : Bool := s.params.wellFormed && s.rtc.wf && s.rtcMapped && s.slotsOk && s.outputsOk

theorem State.inv_iff (s : State) : s.inv = true ↔ s.dataOk = true ∧ s.phaseOk = true := by
  simp [State.inv, State.dataOk]

theorem State.dataOk_iff (s : State) : s.dataOk = true ↔ s.params.wellFormed = true ∧ s.rtc.wf = true ∧
    s.rtcMapped = true ∧ s.slotsOk = true ∧ s.outputsOk = true := by
  simp [State.dataOk, and_assoc]

theorem State.rtcMapped_setRtc {s : State} (h : s.rtcMapped = true) (f : Field) (v : Byte) :
    (s.setRtc f v).rtcMapped = true := by
  unfold State.rtcMapped at h ⊢
  rw [List.all_eq_true] at h ⊢
  intro c hc
  rcases Memory.mem_write hc with hc | hc
  · exact h c hc
  · cases f <;> simp [hc, Params.addr]

/-- A register write keeps the data part: the memory stays canonical and lists the three addresses only. -/
theorem State.dataOk_setRtc {s : State} (h : s.dataOk = true) (f : Field) (v : Byte) : (s.setRtc f v).dataOk = true := by
  rw [State.dataOk_iff] at h ⊢
  obtain ⟨hparams, hwf, hmapped, hslots, houtputs⟩ := h
  exact ⟨hparams, Memory.write_wf hwf _ v, State.rtcMapped_setRtc hmapped f v, hslots, houtputs⟩

theorem State.dataOk_rtcSteps {s : State} (h : s.dataOk = true) (xs : List (Field × Byte)) :
    (s.rtcSteps xs).dataOk = true := by
  induction xs generalizing s with
  | nil => exact h
  | cons x xs ih => exact ih (State.dataOk_setRtc h x.1 x.2)

theorem Slot.ok_accepted (now : Timestamp) : Slot.ok ⟨now, true⟩ = true := rfl

/-- An accepted event is recorded in the slot of its source, which is slot 0 when the slots are shared (10_state.md R14). -/
theorem State.slotsOk_recordAccepted {s : State} (h : s.slotsOk = true) (src : Source) (now : Timestamp) :
    (s.recordAccepted src now).slotsOk = true := by
  simp only [State.slotsOk, Bool.and_eq_true] at h
  obtain ⟨⟨⟨h0, h1⟩, h2⟩, hshared⟩ := h
  cases hp : s.params.debounceShared with
  | true =>
    simp only [hp, Bool.not_true, Bool.false_or] at hshared
    simp [State.slotsOk, slotNumber, hp, Slots.put, Slot.ok_accepted, h1, h2, hshared]
  | false => cases src <;> simp [State.slotsOk, slotNumber, sourceNumber, hp, Slots.put, Slot.ok_accepted, h0, h1, h2]

theorem State.dataOk_recordAccepted {s : State} (h : s.dataOk = true) (src : Source) (now : Timestamp) :
    (s.recordAccepted src now).dataOk = true := by
  rw [State.dataOk_iff] at h ⊢
  obtain ⟨hparams, hwf, hmapped, hslots, houtputs⟩ := h
  exact ⟨hparams, hwf, hmapped, State.slotsOk_recordAccepted hslots src now, houtputs⟩

/-- The outputs REFRESH writes are in range (41_display.md R52, R54, R56). -/
theorem State.outputsOk_setOutputs (s : State) (h : Nat) {m v : Nat} (hm : m ≤ 59) (hv : v ≤ 59) :
    (s.setOutputs (hourBank h) (minuteBank m) (brightness s.params v)).outputsOk = true := by
  have hbright := brightness_le s.params hv
  simp [State.outputsOk, hourBank_toNat, to12Hour_le, minuteBank_toNat hm, hm, hbright]

theorem State.dataOk_setOutputs {s : State} (hs : s.dataOk = true) (h : Nat) {m v : Nat} (hm : m ≤ 59) (hv : v ≤ 59) :
    (s.setOutputs (hourBank h) (minuteBank m) (brightness s.params v)).dataOk = true := by
  rw [State.dataOk_iff] at hs ⊢
  obtain ⟨hparams, hwf, hmapped, hslots, _⟩ := hs
  exact ⟨hparams, hwf, hmapped, hslots, State.outputsOk_setOutputs s h hm hv⟩

theorem State.dataOk_resetBlock {s : State} (h : s.dataOk = true) : s.resetBlock.dataOk = true := by
  rw [State.dataOk_iff] at h ⊢
  obtain ⟨hparams, hwf, hmapped, _, _⟩ := h
  refine ⟨hparams, hwf, hmapped, ?_, ?_⟩
  · simp [State.slotsOk, Slots.reset, Slot.ok_reset]
  · simp [State.outputsOk]

/-- The data part, once it holds in `s`, holds in `t`. -/
def KeepsData (s t : State) : Prop := s.dataOk = true → t.dataOk = true

/-- Every update of a bus command keeps the data part, whatever the script holds. -/
theorem busRel_keepsData : BusRel (fun _ => True) (fun _ => True) KeepsData where
  refl _ := id
  trans hst htu := htu ∘ hst
  suffix _ := trivial
  steps _ xs _ _ h := State.dataOk_rtcSteps h xs
  write _ f v _ h := State.dataOk_setRtc h f v
  log _ _ _ _ := id
  env _ _ := id
  phase _ _ := id
  bus _ := id
  dom _ := id
  rst _ _ _ _ _ := State.dataOk_resetBlock

theorem exec_dataOk {i : Instr} {s t : State} (hs : s.dataOk = true) (h : exec i s = .next t) : t.dataOk = true :=
  busRel_keepsData.exec trivial trivial (fun _ _ _ _ => trivial)
    (fun _ _ hour _ _ hm hv hs => State.dataOk_setOutputs hs hour hm hv)
    (fun _ _ => id) (fun _ _ => id) (fun _ src now hs => State.dataOk_recordAccepted hs src now) trivial h hs

/-! ### The invariant's part about the control state -/

theorem State.phaseOk_of_idle {s : State} (h : s.phase = .idle) : s.phaseOk = true := by
  simp [State.phaseOk, h]

/-- A state in `EXEC` meets the invariant's part exactly when it waits at the due request of a legal command. -/
theorem State.phaseOk_exec {s : State} {cmd : Word} {now : Timestamp} {got : List Byte} {req : Option BusReq}
    (hp : s.phase = .exec cmd now got req) : s.phaseOk = true ↔
      ∃ i r, decodeCmd cmd = .ok i ∧ req = some r ∧ dueRequest s.params i got = some r := by
  simp only [State.phaseOk, hp]
  cases decodeCmd cmd with
  | error e => simp
  | ok i =>
    cases req with
    | none => simp
    | some r =>
      simp only [Option.isSome_some, Bool.true_and, beq_iff_eq]
      constructor
      · exact fun h => ⟨i, r, rfl, rfl, h.symm⟩
      · rintro ⟨_, _, hi, hr, h⟩
        cases hi
        cases hr
        exact h.symm

/-- A command of which the transactions so far are recorded ends, or waits at its due request. -/
theorem exec_phaseOk {i : Instr} {s t : State} {cmd : Word} {now : Timestamp} {got : List Byte} {req : Option BusReq}
    (hp : s.phase = .exec cmd now got req) (hi : decodeCmd cmd = .ok i) (h : exec i s = .next t) : t.phaseOk = true := by
  rcases exec_waits hp h with hidle | ⟨more, r, ht, hr⟩
  · exact State.phaseOk_of_idle hidle
  · exact (State.phaseOk_exec ht).mpr ⟨i, r, hi, rfl, by rw [exec_params h, hr]⟩

theorem exec_inv {i : Instr} {s t : State} {cmd : Word} {now : Timestamp} {got : List Byte} {req : Option BusReq}
    (hs : s.dataOk = true) (hp : s.phase = .exec cmd now got req) (hi : decodeCmd cmd = .ok i) (h : exec i s = .next t) :
    t.inv = true :=
  (State.inv_iff t).mpr ⟨exec_dataOk hs h, exec_phaseOk hp hi h⟩

theorem State.inv_of_idle {s : State} (hs : s.dataOk = true) (hp : s.phase = .idle) : s.inv = true :=
  (State.inv_iff s).mpr ⟨hs, State.phaseOk_of_idle hp⟩

theorem raise_inv {e : ErrorKind} {s t : State} (hs : s.dataOk = true) (h : raise e s = .next t) : t.inv = true := by
  rw [raise_next] at h
  subst h
  exact State.inv_of_idle hs rfl

/-- Between commands an event of the environment keeps the invariant; a command's step keeps both parts of it. -/
theorem step_inv {s t : State} (hs : s.inv = true) (h : step s = .next t) : t.inv = true := by
  obtain ⟨hdata, _⟩ := (State.inv_iff s).mp hs
  rcases step_cases h with ⟨hp, f, v, es, _, rfl⟩ | ⟨hp, es, _, rfl⟩ | ⟨hp, l, es, _, rfl⟩ | ⟨hp, _, rfl⟩ |
    ⟨_, c, rest, i, _, hi, hexec⟩ | ⟨_, c, rest, e, _, _, hraise⟩ | ⟨cmd, now, got, req, i, hp, hi, hexec⟩ |
    ⟨_, _, _, _, e, _, _, hraise⟩
  · exact State.inv_of_idle (State.dataOk_setRtc hdata f v) hp
  · exact State.inv_of_idle hdata hp
  · exact State.inv_of_idle (State.dataOk_resetBlock hdata) rfl
  · exact State.inv_of_idle hdata hp
  · exact exec_inv (s := ((s.setEnv (afterTake s.env)).takeCommand c).setHost rest) hdata rfl hi hexec
  · exact raise_inv (s := ((s.setEnv (afterTake s.env)).takeCommand c).setHost rest) hdata hraise
  · exact exec_inv hdata hp hi hexec
  · exact raise_inv hdata hraise

/-- Settles O16: the data part by `BusRel`, the part about `phase` by the order of the requests (`exec_waits`). -/
theorem everyStepKeepsTheInvariant : Obligations.EveryStepKeepsTheInvariant := fun _ _ hs h => step_inv hs h

/-- What the invariant says of a command in progress: it is legal and waits at its due request. -/
theorem State.due_of_inv {s : State} (hs : s.inv = true) {cmd : Word} {now : Timestamp} {got : List Byte}
    {req : Option BusReq} (hp : s.phase = .exec cmd now got req) :
    ∃ i r, decodeCmd cmd = .ok i ∧ req = some r ∧ dueRequest s.params i got = some r :=
  (State.phaseOk_exec hp).mp ((State.inv_iff s).mp hs).2

/-! ### Reset -/

theorem step_rst_idle {s : State} {left : Byte} {es : List EnvEvent} (hp : s.phase = .idle) (he : s.env = .rst left :: es) :
    step s = .next (s.setEnv es).resetBlock := by
  simp only [step, nextAction, hp, he]

/-- Reset at a pending transaction abandons it: only the register of a write may change (10_state.md R20, log 10). -/
theorem step_rst_inProgress {s : State} {left : Byte} {es : List EnvEvent} {cmd : Word} {now : Timestamp} {got : List Byte}
    {req : Option BusReq} (hs : s.inv = true) (hp : s.phase = .exec cmd now got req) (he : s.env = .rst left :: es) :
    ∃ f op, s.pendingReq = some (busRequest s.params f op) ∧
      step s = .next (((s.busSpoil f op left).setEnv es).resetBlock) := by
  obtain ⟨i, r, hi, rfl, hdue⟩ := State.due_of_inv hs hp
  obtain ⟨n, f, op, k, hnone, rfl, hexec⟩ := exec_goesOn hp hdue
  refine ⟨f, op, State.pendingReq_exec s _ _ _ _ hp, ?_⟩
  rw [step_inProgress hp hi, hexec, busAccess_rst hp hnone he]

/-- What an abandoned transaction leaves in the memory: any byte in the register of a write, and nothing else. -/
theorem State.read_busSpoil {s : State} (hm : s.rtc.wf = true) (f : Field) (op : BusOp) (left : Byte) :
    (∀ x : Nat, (∀ a d, busRequest s.params f op = .write a d → x ≠ a.toNat) →
      (s.busSpoil f op left).rtc.read x = s.rtc.read x) ∧
    (∀ a d, busRequest s.params f op = .write a d → (s.busSpoil f op left).rtc.read a.toNat = left) := by
  cases op with
  | read => exact ⟨fun _ _ => rfl, fun _ _ h => by cases h⟩
  | write v =>
    refine ⟨fun x hx => Memory.read_write_other (hx _ v rfl) s.rtc left, fun a d h => ?_⟩
    cases h
    simp [Memory.read_write hm]

theorem State.cmdReady_of_rst {s : State} {left : Byte} {es : List EnvEvent} (he : s.env = .rst left :: es) :
    s.cmdReady = false := by
  simp [State.cmdReady, State.rstAsserted, he]

theorem State.status_resetBlock (s : State) : s.resetBlock.status = 0 := by
  simp [State.status, State.busy, Flags.reset]

/-- Settles O14: between commands no request is held, and at a pending transaction `rst` spoils at most the register of its
write. -/
theorem rstResetsTheBlock : Obligations.RstResetsTheBlock := by
  intro s left es hs he
  refine ⟨State.cmdReady_of_rst he, ?_⟩
  cases hp : s.phase with
  | idle =>
    have hnone : s.pendingReq = none := by simp [State.pendingReq, hp]
    refine ⟨_, step_rst_idle hp he, rfl, rfl, rfl, rfl, rfl, rfl, State.status_resetBlock _, rfl, rfl, rfl, rfl,
      fun _ _ => rfl, fun a d h => ?_⟩
    rw [hnone] at h
    cases h
  | exec cmd now got req =>
    obtain ⟨f, op, hreq, hstep⟩ := step_rst_inProgress hs hp he
    obtain ⟨_, hwf, _⟩ := (State.dataOk_iff s).mp ((State.inv_iff s).mp hs).1
    obtain ⟨hother, hwritten⟩ := State.read_busSpoil hwf f op left
    rw [hreq]
    refine ⟨_, hstep, rfl, rfl, rfl, rfl, rfl, rfl, State.status_resetBlock _, ?_, ?_, ?_, rfl,
      fun x hx => hother x fun a d h => hx a d (congrArg some h), fun a d h => hwritten a d (Option.some.inj h)⟩
    · simp
    · simp
    · simp

end Sys2Proof.Machine
end

section
/-! PROOFS. Family 10_state.md, the ports and the frames (R16 to R20): the ports as views of the registers, what a step without a
reset keeps, the command port (log 6), and the values after reset. -/

namespace Sys2Proof.Machine

/-! ### The ports -/

/-- Five bits under three zeros, read bit by bit. -/
theorem statusByte_bits : ∀ busy acc ill bus dom : Bool,
    let w : BitVec 8 := 0#3 ++ BitVec.ofBool busy ++ BitVec.ofBool acc ++ BitVec.ofBool ill ++ BitVec.ofBool bus
      ++ BitVec.ofBool dom
    w.getLsbD 0 = dom ∧ w.getLsbD 1 = bus ∧ w.getLsbD 2 = ill ∧ w.getLsbD 3 = acc ∧ w.getLsbD 4 = busy ∧
      w.extractLsb' 5 3 = 0 := by decide

/-- The bits of `status` (10_state.md R17). -/
theorem State.status_bits (s : State) :
    s.status.getLsbD 0 = s.flags.domErr ∧ s.status.getLsbD 1 = s.flags.busErr ∧ s.status.getLsbD 2 = s.flags.illErr ∧
      s.status.getLsbD 3 = s.flags.acc ∧ s.status.getLsbD 4 = s.busy ∧ s.status.extractLsb' 5 3 = 0 :=
  statusByte_bits s.busy s.flags.acc s.flags.illErr s.flags.busErr s.flags.domErr

theorem State.busy_eq_false_iff (s : State) : s.busy = false ↔ s.phase = .idle := by
  cases hp : s.phase <;> simp [State.busy, hp]

theorem State.rstAsserted_eq_false_iff (s : State) :
    s.rstAsserted = false ↔ ∀ left es, s.env ≠ .rst left :: es := by
  unfold State.rstAsserted
  split
  · next left es he => simp [he]
  · next he => exact ⟨fun _ left es h => he left es h, fun _ => rfl⟩

/-- `cmd_ready` (10_state.md R19, 70_reset_and_hazards.md R120). -/
theorem State.cmdReady_iff (s : State) : s.cmdReady = true ↔ s.phase = .idle ∧ ∀ left es, s.env ≠ .rst left :: es := by
  rw [← State.busy_eq_false_iff, ← State.rstAsserted_eq_false_iff]
  simp [State.cmdReady]

theorem State.ports_read {s : State} {a : Byte} (h : s.pendingReq = some (.read a)) :
    s.busReq = true ∧ s.busWe = some false ∧ s.busAddr = some a := by
  simp [State.busReq, State.busWe, State.busAddr, h]

theorem State.ports_write {s : State} {a d : Byte} (h : s.pendingReq = some (.write a d)) :
    s.busReq = true ∧ s.busWe = some true ∧ s.busAddr = some a ∧ s.busWdata = some d := by
  simp [State.busReq, State.busWe, State.busAddr, State.busWdata, h]

/-- The bus ports show the held request and nothing else. -/
theorem State.ports_congr {s t : State} (h : t.pendingReq = s.pendingReq) :
    t.busReq = s.busReq ∧ t.busWe = s.busWe ∧ t.busAddr = s.busAddr ∧ t.busWdata = s.busWdata := by
  simp [State.busReq, State.busWe, State.busAddr, State.busWdata, h]

/-- Under the invariant a request is held exactly while a command is in progress (10_state.md R19, log 5). -/
theorem State.busReq_eq_busy {s : State} (hs : s.inv = true) : s.busReq = s.busy := by
  cases hp : s.phase with
  | idle => simp [State.busReq, State.pendingReq, State.busy, hp]
  | exec cmd now got req =>
    obtain ⟨_, r, _, rfl, _⟩ := State.due_of_inv hs hp
    simp [State.busReq, State.pendingReq, State.busy, hp]

/-- Under the invariant the held request is the due one. -/
theorem State.pendingReq_eq_due {s : State} (hs : s.inv = true) {cmd : Word} {now : Timestamp} {got : List Byte}
    {req : Option BusReq} {i : Instr} (hp : s.phase = .exec cmd now got req) (hi : decodeCmd cmd = .ok i) :
    s.pendingReq = dueRequest s.params i got := by
  obtain ⟨j, r, hj, rfl, hdue⟩ := State.due_of_inv hs hp
  cases hi.symm.trans hj
  rw [State.pendingReq_exec s _ _ _ _ hp, hdue]

/-- While no transaction completes, the request is held (20_memory.md R22, R23): it is the due one before and after. -/
theorem step_holds_request {s t : State} (hs : s.inv = true) (hbusy : s.busy = true) (h : step s = .next t)
    (ht : t.busy = true) (hcount : t.txnCount = s.txnCount) : t.pendingReq = s.pendingReq := by
  cases hp : s.phase with
  | idle => simp [State.busy, hp] at hbusy
  | exec cmd now got req =>
    obtain ⟨i, r, hi, rfl, hdue⟩ := State.due_of_inv hs hp
    rw [step_inProgress hp hi] at h
    rcases exec_waits hp h with hidle | ⟨more, r', hp', hdue'⟩
    · rw [not_busy_of_idle hidle] at ht
      cases ht
    · simp only [State.txnCount, State.got_exec s _ _ _ _ hp, State.got_exec t _ _ _ _ hp', List.length_append,
        Nat.add_eq_left, List.length_eq_zero_iff] at hcount
      subst hcount
      rw [List.append_nil, hdue] at hdue'
      rw [State.pendingReq_exec s _ _ _ _ hp, State.pendingReq_exec t _ _ _ _ hp', hdue']

/-- Settles O19: the ports are read off the state, and the held request is the due one before and after a step. -/
theorem portsShowTheRegisters : Obligations.PortsShowTheRegisters := by
  intro s
  refine ⟨s.status_bits, s.busy_eq_false_iff, ⟨rfl, rfl, rfl, rfl⟩, ⟨rfl, rfl, rfl, rfl, rfl, rfl⟩, s.cmdReady_iff,
    fun a => State.ports_read, fun a d => State.ports_write, fun h => ?_, fun hs => ⟨State.busReq_eq_busy hs,
    fun cmd now got req i => State.pendingReq_eq_due hs, fun t hbusy h ht hcount => ?_⟩⟩
  · simp [State.busReq, h]
  · have hports := State.ports_congr (step_holds_request hs hbusy h ht hcount)
    rwa [(State.busReq_eq_busy hs).trans hbusy] at hports

/-! ### What is kept without a reset -/

theorem noReset_append_right {a b : List EnvEvent} (h : noReset (a ++ b) = true) : noReset b = true := by
  rw [noReset, List.all_append, Bool.and_eq_true] at h
  exact h.2

theorem not_noReset_of_rst {xs : List (Field × Byte)} {left : Byte} {es : List EnvEvent} :
    ¬ noReset (stepEvents xs ++ .rst left :: es) = true := by
  simp [noReset]

theorem noReset_afterTake {es : List EnvEvent} (h : noReset es = true) : noReset (afterTake es) = true := by
  cases es with
  | nil => exact h
  | cons e es =>
    cases e with
    | take => exact noReset_append_right (a := [.take]) h
    | _ => exact h

theorem State.rtcSteps_view {α : Type} (view : State → α) (hrtc : ∀ s f v, view (State.setRtc s f v) = view s) (s : State)
    (xs : List (Field × Byte)) : view (s.rtcSteps xs) = view s := by
  induction xs generalizing s with
  | nil => rfl
  | cons x xs ih => exact (ih (s.setRtc x.1 x.2)).trans (hrtc s x.1 x.2)

/-- A view of the state that no update of a bus command but reset can change is kept by every bus command. -/
theorem busRel_keeps {α : Type} (view : State → α) (hrtc : ∀ s f v, view (State.setRtc s f v) = view s)
    (hlog : ∀ s x, view (State.logTxn s x) = view s) (henv : ∀ s e, view (State.setEnv s e) = view s)
    (hphase : ∀ s p, view (State.setPhase s p) = view s) (hflags : ∀ s f, view (State.setFlags s f) = view s) :
    BusRel (noReset · = true) (fun _ => True) (fun s t => view t = view s) where
  refl _ := rfl
  trans hst htu := htu.trans hst
  suffix := noReset_append_right
  steps s xs _ _ := State.rtcSteps_view view hrtc s xs
  write s f v _ := hrtc s f v
  log s _ _ _ := hlog s _
  env := henv
  phase := hphase
  bus s := hflags s _
  dom s := hflags s _
  rst _ _ _ _ h := absurd h not_noReset_of_rst

/-- The output registers (10_state.md R16). -/
def State.outputs (s : State) : BitVec 4 × BitVec 6 × BitVec 16 := (s.outHour, s.outMin, s.pwm)

theorem exec_outputs {i : Instr} {s t : State} (hi : i ≠ .refresh) (hE : noReset s.env = true) (h : exec i s = .next t) :
    t.outputs = s.outputs :=
  (busRel_keeps State.outputs (fun _ _ _ => rfl) (fun _ _ => rfl) (fun _ _ => rfl) (fun _ _ => rfl) fun _ _ => rfl).exec
    trivial trivial (fun _ _ _ _ => trivial) (fun hr => absurd hr hi) (fun _ _ => rfl) (fun _ _ => rfl)
    (fun _ _ _ => rfl) hE h

/-- Settles O21, by the outputs as a view that only REFRESH and reset change. -/
theorem onlyRefreshWritesOutputs : Obligations.OnlyRefreshWritesOutputs := by
  intro i s t hi hE h
  simpa [State.outputs] using exec_outputs hi hE h

/-- Every update of a bus command but reset keeps `result`. -/
theorem busRel_result : BusRel (noReset · = true) (fun _ => True) (fun s t => t.result = s.result) :=
  busRel_keeps State.result (fun _ _ _ => rfl) (fun _ _ => rfl) (fun _ _ => rfl) (fun _ _ => rfl) fun _ _ => rfl

theorem exec_sync_result {a b c : Byte} {s t : State} (hE : noReset s.env = true) (h : exec (.sync a b c) s = .next t) :
    t.result = s.result :=
  busRel_result.sync (fun _ => trivial) (fun _ _ => rfl) (fun _ _ => rfl) hE h

theorem exec_bus_result {i : Instr} (hi : i ∈ [Instr.inch, .incm, .btnh, .btnm, .refresh]) {s t : State}
    (hE : noReset s.env = true) (h : exec i s = .next t) : t.result = s.result := by
  simp only [List.mem_cons, List.not_mem_nil, or_false] at hi
  rcases hi with rfl | rfl | rfl | rfl | rfl
  · exact busRel_result.inch trivial hE h
  · exact busRel_result.incm trivial trivial hE h
  · exact busRel_result.btnh trivial (fun _ _ => rfl) (fun _ _ => rfl) hE h
  · exact busRel_result.btnm trivial trivial (fun _ _ => rfl) (fun _ _ => rfl) hE h
  · exact busRel_result.refresh (fun _ _ _ _ _ _ => rfl) hE h

/-- Settles O22, by `result` as a view that no bus command changes, and by what a raise leaves unchanged. -/
theorem resultKeptByOtherCommands : Obligations.ResultKeptByOtherCommands := by
  refine ⟨fun i hi s t hE h => exec_bus_result hi hE h, fun a b c s t hE h => exec_sync_result hE h,
    fun c hc i hi s t h => ?_⟩
  rw [exec_above59 hc hi, raise_next] at h
  rw [h]; rfl

/-- Every sticky bit of `f` is set in `g` (10_state.md R17). -/
def Flags.Sticky (f g : Flags) : Prop :=
  (f.domErr = true → g.domErr = true) ∧ (f.busErr = true → g.busErr = true) ∧ (f.illErr = true → g.illErr = true)

theorem Flags.Sticky.refl (f : Flags) : f.Sticky f := ⟨id, id, id⟩

theorem Flags.Sticky.of_eq {f g : Flags} (h : g = f) : f.Sticky g := h ▸ Flags.Sticky.refl f

theorem Flags.Sticky.trans {f g h : Flags} (hfg : f.Sticky g) (hgh : g.Sticky h) : f.Sticky h := by
  obtain ⟨domFG, busFG, illFG⟩ := hfg
  obtain ⟨domGH, busGH, illGH⟩ := hgh
  exact ⟨domGH ∘ domFG, busGH ∘ busFG, illGH ∘ illFG⟩

/-- An error only sets bits (60_exceptions.md R106). -/
theorem Flags.sticky_withError (e : ErrorKind) (f : Flags) : f.Sticky (f.withError e) := by
  cases e with
  | domain => exact ⟨fun _ => rfl, id, id⟩
  | bus => exact ⟨id, fun _ => rfl, id⟩
  | illegalCommand => exact ⟨id, id, fun _ => rfl⟩

/-- Every update of a bus command but reset keeps the sticky bits. -/
theorem busRel_sticky : BusRel (noReset · = true) (fun _ => True) (fun s t => s.flags.Sticky t.flags) where
  refl s := Flags.Sticky.refl s.flags
  trans := Flags.Sticky.trans
  suffix := noReset_append_right
  steps s xs _ _ := Flags.Sticky.of_eq (s.rtcSteps_flags xs)
  write s _ _ _ := Flags.Sticky.refl s.flags
  log s _ _ _ := Flags.Sticky.refl s.flags
  env s _ := Flags.Sticky.refl s.flags
  phase s _ := Flags.Sticky.refl s.flags
  bus s := Flags.sticky_withError .bus s.flags
  dom s := Flags.sticky_withError .domain s.flags
  rst _ _ _ _ h := absurd h not_noReset_of_rst

theorem exec_sticky {i : Instr} {s t : State} (hE : noReset s.env = true) (h : exec i s = .next t) :
    s.flags.Sticky t.flags :=
  busRel_sticky.exec trivial trivial (fun _ _ _ _ => trivial) (fun _ s _ _ _ _ _ => Flags.Sticky.refl s.flags)
    (fun s _ => Flags.Sticky.refl s.flags) (fun _ _ => ⟨id, id, id⟩) (fun s _ _ => Flags.Sticky.refl s.flags) hE h

theorem raise_sticky {e : ErrorKind} {s t : State} (h : raise e s = .next t) : s.flags.Sticky t.flags := by
  rw [raise_next] at h
  rw [h]
  exact Flags.sticky_withError e s.flags

theorem step_sticky {s t : State} (hE : noReset s.env = true) (h : step s = .next t) : s.flags.Sticky t.flags := by
  rcases step_cases h with ⟨_, f, v, es, _, rfl⟩ | ⟨_, es, _, rfl⟩ | ⟨_, l, es, he, _⟩ | ⟨_, _, rfl⟩ |
    ⟨_, c, rest, i, _, _, hexec⟩ | ⟨_, c, rest, e, _, _, hraise⟩ | ⟨_, _, _, _, i, _, _, hexec⟩ |
    ⟨_, _, _, _, e, _, _, hraise⟩
  · exact Flags.Sticky.refl s.flags
  · exact Flags.Sticky.refl s.flags
  · rw [he] at hE
    exact absurd hE (not_noReset_of_rst (xs := []))
  · exact Flags.Sticky.refl s.flags
  · exact exec_sticky (s := ((s.setEnv (afterTake s.env)).takeCommand c).setHost rest) (noReset_afterTake hE) hexec
  · exact raise_sticky (s := ((s.setEnv (afterTake s.env)).takeCommand c).setHost rest) hraise
  · exact exec_sticky hE hexec
  · exact raise_sticky hraise

/-- Settles O20, by the cases of a step and, for a command, the sticky bits kept by every update of its meaning. -/
theorem stickyErrorsAccumulate : Obligations.StickyErrorsAccumulate := fun _ _ hE h => step_sticky hE h

/-! ### The command port -/

/-- The mask of a command with one operand clears that operand in its word. -/
theorem encode_mask8 {i : Instr} {f : CmdFields} (h : { i.fields with c := 0 } = f) :
    encode i &&& 0xFFFFFF00 = wordOf f :=
  h ▸ Laws.wordOf_mask8 i.fields

/-- The mask of SYNC clears its three operands. -/
theorem encode_mask24 {i : Instr} {f : CmdFields} (h : { i.fields with c := 0, b := 0, a := 0 } = f) :
    encode i &&& 0xFF000000 = wordOf f :=
  h ▸ Laws.wordOf_mask24 i.fields

/-- The word of a command decodes to it when it is selected by the row that builds it from its operands. -/
theorem decodeCmd_encode_of_row {i : Instr} (k : Fin opcodeTable.length)
    (hsel : encode i &&& opcodeTable[k].mask = opcodeTable[k].pattern)
    (hbuild : opcodeTable[k].build i.fields.a i.fields.b i.fields.c = i) : decodeCmd (encode i) = .ok i := by
  have hfields : fieldsOf (encode i) = i.fields := Laws.fieldsOf_wordOf i.fields
  refine (Laws.decodeCmd_ok_iff _ i).mpr ⟨opcodeTable[k], List.getElem_mem _, ?_, ?_⟩
  · simpa [OpcodeRow.selects] using hsel
  · rw [← hfields] at hbuild
    exact hbuild.symm

/-- The word of a command decodes to it, row by row of the table (30_encoding.md R38). -/
theorem decodeCmd_encode (i : Instr) : decodeCmd (encode i) = .ok i := by
  cases i with
  | decHour c => exact decodeCmd_encode_of_row ⟨0, by decide⟩ (encode_mask8 (f := ⟨0x1, 0, 0, 0, 0, 0⟩) rfl) rfl
  | decMin c => exact decodeCmd_encode_of_row ⟨1, by decide⟩ (encode_mask8 (f := ⟨0x1, 0, 1, 0, 0, 0⟩) rfl) rfl
  | decSec c => exact decodeCmd_encode_of_row ⟨2, by decide⟩ (encode_mask8 (f := ⟨0x1, 0, 2, 0, 0, 0⟩) rfl) rfl
  | enc c => exact decodeCmd_encode_of_row ⟨3, by decide⟩ (encode_mask8 (f := ⟨0x2, 0, 0, 0, 0, 0⟩) rfl) rfl
  | to12 c => exact decodeCmd_encode_of_row ⟨4, by decide⟩ (encode_mask8 (f := ⟨0x3, 0, 0, 0, 0, 0⟩) rfl) rfl
  | hled c => exact decodeCmd_encode_of_row ⟨5, by decide⟩ (encode_mask8 (f := ⟨0x4, 0, 0, 0, 0, 0⟩) rfl) rfl
  | mled c => exact decodeCmd_encode_of_row ⟨6, by decide⟩ (encode_mask8 (f := ⟨0x5, 0, 0, 0, 0, 0⟩) rfl) rfl
  | brt c => exact decodeCmd_encode_of_row ⟨7, by decide⟩ (encode_mask8 (f := ⟨0x6, 0, 0, 0, 0, 0⟩) rfl) rfl
  | debHour => exact decodeCmd_encode_of_row ⟨8, by decide⟩ rfl rfl
  | debMin => exact decodeCmd_encode_of_row ⟨9, by decide⟩ rfl rfl
  | debSync => exact decodeCmd_encode_of_row ⟨10, by decide⟩ rfl rfl
  | inch => exact decodeCmd_encode_of_row ⟨11, by decide⟩ rfl rfl
  | incm => exact decodeCmd_encode_of_row ⟨12, by decide⟩ rfl rfl
  | btnh => exact decodeCmd_encode_of_row ⟨13, by decide⟩ rfl rfl
  | btnm => exact decodeCmd_encode_of_row ⟨14, by decide⟩ rfl rfl
  | sync a b c => exact decodeCmd_encode_of_row ⟨15, by decide⟩ (encode_mask24 (f := ⟨0xC, 0, 0, 0, 0, 0⟩) rfl) rfl
  | refresh => exact decodeCmd_encode_of_row ⟨16, by decide⟩ rfl rfl

/-- What `skipToBus` leaves is empty or begins with a completion, so an idle block takes a command at once (log 17). -/
theorem skipToBus_takes (es : List EnvEvent) :
    takesCommand (skipToBus es) = true ∧ afterTake (skipToBus es) = skipToBus es := by
  induction es with
  | nil => exact ⟨rfl, rfl⟩
  | cons e es ih =>
    cases e with
    | busDone => exact ⟨rfl, rfl⟩
    | busErr left => exact ⟨rfl, rfl⟩
    | _ => exact ih

theorem withFetchWord_toNat (s : State) (w : Word) : s.withFetchWord 32 w.toNat = s.presentWord w := by
  have hw : BitVec.ofNat 32 (w.toNat % 2 ^ 32) = w := by rw [Nat.mod_eq_of_lt w.isLt, BitVec.ofNat_toNat, BitVec.setWidth_eq]
  rw [State.withFetchWord, hw]

/-- The next step of an idle block runs the command that is presented to it when the script lets it take one. -/
theorem step_takes {s : State} {c : HostCmd} {rest : List HostCmd} {i : Instr} (hp : s.phase = .idle)
    (hh : s.host = c :: rest) (hk : takesCommand s.env = true) (hi : decodeCmd c.cmd = .ok i) :
    step s = exec i (((s.setEnv (afterTake s.env)).takeCommand c).setHost rest) := by
  simp only [step, nextAction_takes hp hk, takePresented, State.setEnv_host, hh, hi]

/-- Settles O7: `skipToBus` leaves a script at which the block takes the command, whose word decodes to it. -/
theorem presentedWordRunsNext : Obligations.PresentedWordRunsNext := by
  intro s i
  obtain ⟨htakes, hafter⟩ := skipToBus_takes s.env
  rw [withFetchWord_toNat, step_takes (s := s.presentWord (encode i)) (c := ⟨encode i, 0⟩) rfl rfl htakes
    (decodeCmd_encode i)]
  have henv : afterTake (s.presentWord (encode i)).env = skipToBus s.env := hafter
  rw [henv]
  rfl

/-! ### The values after reset -/

theorem Slots.get_reset (n : Nat) : Slots.reset.get n = Slot.reset := by
  unfold Slots.get
  split
  · rfl
  · split <;> rfl

/-- A slot that has accepted nothing accepts any event: the first one after reset (70_reset_and_hazards.md R121). -/
theorem accepts_reset (p : Params) (now : Timestamp) : accepts p Slot.reset now = true := rfl

theorem State.status_resetWith (p : Params) : (State.resetWith p).status = 0 := by
  simp [State.status, State.busy, State.resetWith, Flags.reset]

/-- Settles O13: each value is the reset state's own, and a slot that has accepted nothing accepts any event. -/
theorem resetValues : Obligations.ResetValues := by
  intro p
  refine ⟨rfl, Slots.get_reset, rfl, rfl, rfl, rfl, State.status_resetWith p, rfl, fun src now => ?_⟩
  have hslot : (State.resetWith p).slotOf src = Slot.reset := Slots.get_reset _
  rw [hslot, accepts_reset]

end Sys2Proof.Machine
end

section
/-! PROOFS. Family 20_memory.md: the RTC between commands (R24), the addresses of the transactions (R26), and the frame of the
commands that make none (R26). -/

namespace Sys2Proof.Machine

/-! ### Steps between commands -/

theorem step_rtcStep_idle {s : State} {f : Field} {v : Byte} {es : List EnvEvent} (hp : s.phase = .idle)
    (he : s.env = .rtcStep f v :: es) : step s = .next ((s.setRtc f v).setEnv es) := by
  simp only [step, nextAction, hp, he]

theorem step_wait_idle {s : State} {es : List EnvEvent} (hp : s.phase = .idle) (he : s.env = .wait :: es) :
    step s = .next (s.setEnv es) := by
  simp only [step, nextAction, hp, he]

/-- An idle block that may take a command and is presented none only passes the event that would have let it take one. -/
theorem step_nothing_presented {s : State} (hp : s.phase = .idle) (hk : takesCommand s.env = true) (hh : s.host = []) :
    step s = .next (s.setEnv (afterTake s.env)) := by
  simp only [step, nextAction_takes hp hk, takePresented, State.setEnv_host, hh]

/-- Settles O9, by the step of each event that an idle block can meet without a command. -/
theorem idleStepsFollowTheEnvironment : Obligations.IdleStepsFollowTheEnvironment := fun _ hp =>
  ⟨fun _ _ _ he => step_rtcStep_idle hp he, fun _ he => step_wait_idle hp he,
    fun hk hh => step_nothing_presented hp hk hh⟩

/-! ### The addresses of the transactions -/

/-- Every request of a command is at the address of a register (20_memory.md R26). -/
theorem mapped_busRequest (p : Params) (f : Field) (op : BusOp) : (busRequest p f op).mapped p = true := by
  cases op <;> cases f <;> simp [busRequest, BusReq.mapped, Params.addr]

/-- `t` has the parameters of `s`, and the record of `s` with transactions at register addresses behind it. -/
structure LogsMapped (s t : State) : Prop where
  params : t.params = s.params
  grows : ∃ txns, t.busLog = s.busLog ++ txns ∧ ∀ x ∈ txns, x.req.mapped s.params = true

namespace LogsMapped

theorem of_same {s t : State} (hp : t.params = s.params) (hl : t.busLog = s.busLog) : LogsMapped s t :=
  ⟨hp, [], by rw [hl, List.append_nil], fun _ hx => absurd hx List.not_mem_nil⟩

theorem trans {s t u : State} (hst : LogsMapped s t) (htu : LogsMapped t u) : LogsMapped s u := by
  obtain ⟨hparams, first, hfirst, mapped_first⟩ := hst
  obtain ⟨hparams', second, hsecond, mapped_second⟩ := htu
  refine ⟨hparams'.trans hparams, first ++ second, by rw [hsecond, hfirst, List.append_assoc], fun x hx => ?_⟩
  rcases List.mem_append.mp hx with hx | hx
  · exact mapped_first x hx
  · rw [← hparams]
    exact mapped_second x hx

theorem logTxn (s : State) (f : Field) (op : BusOp) (failed : Bool) :
    LogsMapped s (s.logTxn ⟨busRequest s.params f op, failed⟩) := by
  refine ⟨rfl, _, rfl, fun x hx => ?_⟩
  rw [List.mem_singleton.mp hx]
  exact mapped_busRequest s.params f op

/-- Taking a command is no transaction (30_encoding.md R40). -/
theorem taken (s : State) (c : HostCmd) (rest : List HostCmd) :
    LogsMapped s (((s.setEnv (afterTake s.env)).takeCommand c).setHost rest) :=
  of_same rfl rfl

end LogsMapped

/-- Of the updates of a bus command only the completion of a transaction adds to the record, resets included (log 7). -/
theorem busRel_logsMapped : BusRel (fun _ => True) (fun _ => True) LogsMapped where
  refl _ := .of_same rfl rfl
  trans := LogsMapped.trans
  suffix _ := trivial
  steps s xs _ _ := .of_same (s.rtcSteps_params xs) (s.rtcSteps_busLog xs)
  write _ _ _ _ := .of_same rfl rfl
  log := LogsMapped.logTxn
  env _ _ := .of_same rfl rfl
  phase _ _ := .of_same rfl rfl
  bus _ := .of_same rfl rfl
  dom _ := .of_same rfl rfl
  rst _ _ _ _ _ := .of_same rfl rfl

theorem exec_logsMapped {i : Instr} {s t : State} (h : exec i s = .next t) : LogsMapped s t :=
  busRel_logsMapped.exec trivial trivial (fun _ _ _ _ => trivial) (fun _ _ _ _ _ _ _ => .of_same rfl rfl)
    (fun _ _ => .of_same rfl rfl) (fun _ _ => .of_same rfl rfl) (fun _ _ _ => .of_same rfl rfl) trivial h

theorem raise_logsMapped {e : ErrorKind} {s t : State} (h : raise e s = .next t) : LogsMapped s t := by
  rw [raise_next] at h
  subst h
  exact .of_same rfl rfl

/-- Between commands the record stays; a command's step adds what its meaning adds. -/
theorem step_logsMapped {s t : State} (h : step s = .next t) : LogsMapped s t := by
  rcases step_cases h with ⟨_, f, v, es, _, rfl⟩ | ⟨_, es, _, rfl⟩ | ⟨_, l, es, _, rfl⟩ | ⟨_, _, rfl⟩ |
    ⟨_, c, rest, i, _, _, hexec⟩ | ⟨_, c, rest, e, _, _, hraise⟩ | ⟨_, _, _, _, i, _, _, hexec⟩ |
    ⟨_, _, _, _, e, _, _, hraise⟩
  · exact .of_same rfl rfl
  · exact .of_same rfl rfl
  · exact .of_same rfl rfl
  · exact .of_same rfl rfl
  · exact (LogsMapped.taken s c rest).trans (exec_logsMapped hexec)
  · exact (LogsMapped.taken s c rest).trans (raise_logsMapped hraise)
  · exact exec_logsMapped hexec
  · exact raise_logsMapped hraise

/-- Settles O18, by the cases of a step and, for a command, the record's growth through every update of its meaning. -/
theorem onlyTheThreeRegistersAreAddressed : Obligations.OnlyTheThreeRegistersAreAddressed :=
  fun _ _ h => (step_logsMapped h).grows

/-! ### The commands that make no transaction -/

/-- The codec and display commands write `result` and end, or raise DomainError. -/
theorem exec_result_or_domain {c : Byte} {i : Instr}
    (hi : i ∈ [Instr.decHour c, .decMin c, .decSec c, .enc c, .to12 c, .hled c, .mled c, .brt c]) (s : State) :
    (∃ v, exec i s = finish (s.setResult v)) ∨ exec i s = raise .domain s := by
  have checked : i ∈ [Instr.enc c, .mled c, .brt c] →
      (∃ v, exec i s = finish (s.setResult v)) ∨ exec i s = raise .domain s := fun hi => by
    by_cases hc : 59 < c.toNat
    · exact .inr (exec_above59 hc hi s)
    · exact .inl (exec_upTo59 hc hi s)
  simp only [List.mem_cons, List.not_mem_nil, or_false] at hi
  rcases hi with rfl | rfl | rfl | rfl | rfl | rfl | rfl | rfl
  · exact .inl ⟨_, rfl⟩
  · exact .inl ⟨_, rfl⟩
  · exact .inl ⟨_, rfl⟩
  · exact checked (by simp)
  · exact .inl ⟨_, rfl⟩
  · exact .inl ⟨_, rfl⟩
  · exact checked (by simp)
  · exact checked (by simp)

/-- DEB ends with its verdict in `ACC` and `result`, the event recorded in its source's slot only when it is accepted. -/
theorem debounceToResult_cases {src : Source} {s t : State} (h : debounceToResult src s = .next t) :
    ∃ u, (u = s ∨ u = s.recordAccepted src s.now) ∧ ∃ acc v, t = ((u.setAcc acc).setResult v).setPhase .idle := by
  unfold debounceToResult at h
  cases ha : accepts s.params (s.slotOf src) s.now with
  | true =>
    rw [debounce_accepted ha, finish_next] at h
    exact ⟨_, .inr rfl, _, _, h⟩
  | false =>
    rw [debounce_dropped ha, finish_next] at h
    exact ⟨_, .inl rfl, _, _, h⟩

/-- Recording an event leaves the slots of the other sources (42_debounce.md R62). -/
theorem State.recordAccepted_get_other {s : State} {src : Source} {n : Nat} (hn : n < 3) (hne : n ≠ slotNumber s.params src)
    (now : Timestamp) : (s.recordAccepted src now).slots.get n = s.slots.get n := by
  simp only [State.recordAccepted, State.setSlots_slots, Slots.get_put (slotNumber_lt s.params src) _ n _ hn, if_neg hne]

theorem exec_deb {x : Instr × Source}
    (hx : x ∈ [(Instr.debHour, Source.hourButton), (.debMin, .minuteButton), (.debSync, .sync)]) (s : State) :
    exec x.1 s = debounceToResult x.2 s := by
  simp only [List.mem_cons, List.not_mem_nil, or_false] at hx
  rcases hx with rfl | rfl | rfl
  · rfl
  · rfl
  · rfl

/-- Settles O23: the possible next states of these commands, and what their updates leave unchanged. -/
theorem pureCommandFrame : Obligations.PureCommandFrame := by
  refine ⟨fun c i hi s t h => ?_, fun x hx s t h => ?_⟩
  · rcases exec_result_or_domain hi s with ⟨v, hv⟩ | hv
    · rw [hv, finish_next] at h
      subst h
      exact ⟨rfl, rfl, rfl, rfl, rfl, rfl, rfl, rfl, rfl, fun _ => rfl, rfl, rfl, rfl⟩
    · rw [hv, raise_next] at h
      subst h
      exact ⟨rfl, rfl, rfl, rfl, rfl, rfl, rfl, rfl, rfl, fun _ => rfl, rfl, rfl, rfl⟩
  · rw [exec_deb hx] at h
    obtain ⟨u, rfl | rfl, acc, v, rfl⟩ := debounceToResult_cases h
    · exact ⟨rfl, rfl, fun _ _ _ => rfl, rfl, rfl, rfl, rfl, rfl, rfl, fun _ => rfl, rfl, rfl, rfl⟩
    · exact ⟨rfl, rfl, fun _ hn hne => State.recordAccepted_get_other hn hne s.now, rfl, rfl, rfl, rfl, rfl, rfl,
        fun _ => rfl, rfl, rfl, rfl⟩

end Sys2Proof.Machine
end

section
/-! PROOFS. Family 30_encoding.md: the decoder and the encoder are inverse to each other (R35, R40), each row of the table is one
mask test (R38), the illegal words are those R39 lists, and a step runs the decoded command (R40). -/

namespace Sys2Proof

/-! ### The rows of the table -/

/-- The table has one row per constructor of `Instr`, in the order of the constructors, whatever the operands are. -/
theorem opcodeTable_ctorIdx (a b c : Byte) :
    opcodeTable.map (fun r => (r.build a b c).ctorIdx) = List.range 17 := rfl

/-- Rows that build the same command are the same row. -/
theorem OpcodeRow.eq_of_build_eq {r s : OpcodeRow} {a b c : Byte} (hr : r ∈ opcodeTable) (hs : s ∈ opcodeTable)
    (h : r.build a b c = s.build a b c) : r = s := by
  have hnodup : (opcodeTable.map fun r => (r.build a b c).ctorIdx).Nodup :=
    opcodeTable_ctorIdx a b c ▸ List.nodup_range
  exact List.inj_on_of_nodup_map hnodup hr hs (congrArg Instr.ctorIdx h)

/-- A word is the command of a row exactly when `w & mask == match` (30_encoding.md R38). -/
theorem decodeCmd_row_iff (k : Fin opcodeTable.length) (w : Word) :
    decodeCmd w = .ok (opcodeTable[k].build (w.extractLsb' 16 8) (w.extractLsb' 8 8) (w.extractLsb' 0 8)) ↔
      w &&& opcodeTable[k].mask = opcodeTable[k].pattern := by
  have hk : opcodeTable[k] ∈ opcodeTable := List.getElem_mem _
  rw [Laws.decodeCmd_ok_iff]
  constructor
  · rintro ⟨r, hr, hsel, hbuild⟩
    rw [OpcodeRow.eq_of_build_eq hk hr hbuild]
    exact beq_iff_eq.mp hsel
  · intro hmask
    exact ⟨_, hk, beq_iff_eq.mpr hmask, rfl⟩

/-- A row with its operand in `c` tests every field but `c`, and builds the command of its pattern with that operand. -/
theorem fields_operandRow {r : OpcodeRow} (hr : r ∈ operandRows) (a b c : Byte) :
    r.mask = 0xFFFFFF00 ∧ (r.build a b c).fields = { fieldsOf r.pattern with c := c } := by
  simp only [operandRows, List.mem_cons, List.not_mem_nil, or_false] at hr
  rcases hr with rfl | rfl | rfl | rfl | rfl | rfl | rfl | rfl
  all_goals exact ⟨rfl, rfl⟩

/-- Of the other rows, SYNC tests every field but its three operands, and each row without an operand tests the whole word. -/
theorem fields_eventRow {r : OpcodeRow} (hr : r ∈ eventRows) (a b c : Byte) :
    (r.mask = 0xFF000000 ∧ (r.build a b c).fields = { fieldsOf r.pattern with a := a, b := b, c := c }) ∨
      (r.mask = 0xFFFFFFFF ∧ (r.build a b c).fields = fieldsOf r.pattern) := by
  simp only [eventRows, List.mem_cons, List.not_mem_nil, or_false] at hr
  rcases hr with rfl | rfl | rfl | rfl | rfl | rfl | rfl | rfl | rfl
  case inr.inr.inr.inr.inr.inr.inr.inl => exact .inl ⟨rfl, rfl⟩
  all_goals exact .inr ⟨rfl, rfl⟩

/-- The command a row builds from a word it selects has the fields of that word: every bit is tested or is an operand's. -/
theorem fields_build_of_selects {w : Word} {r : OpcodeRow} (hr : r ∈ opcodeTable) (hsel : r.selects w = true) :
    (r.build (fieldsOf w).a (fieldsOf w).b (fieldsOf w).c).fields = fieldsOf w := by
  have hmask : w &&& r.mask = r.pattern := beq_iff_eq.mp hsel
  rcases List.mem_append.mp hr with hr | hr
  · obtain ⟨h8, hfields⟩ := fields_operandRow hr (fieldsOf w).a (fieldsOf w).b (fieldsOf w).c
    rw [h8] at hmask
    obtain ⟨hop, hrsv, hsel, ha, hb⟩ := Laws.fieldsOf_mask8 hmask
    simp only [hfields, ← hop, ← hrsv, ← hsel, ← ha, ← hb]
  · rcases fields_eventRow hr (fieldsOf w).a (fieldsOf w).b (fieldsOf w).c with ⟨h24, hfields⟩ | ⟨h32, hfields⟩
    · rw [h24] at hmask
      obtain ⟨hop, hrsv, hsel⟩ := Laws.fieldsOf_mask24 hmask
      simp only [hfields, ← hop, ← hrsv, ← hsel]
    · have hall : w &&& 0xFFFFFFFF = w := BitVec.and_allOnes
      rw [hfields, ← hmask, h32, hall]

/-! ### Decoding and encoding are inverse to each other -/

/-- Every command has well-formed fields, and its word holds them. -/
theorem encodedFields : ∀ i : Instr, Laws.EncodedFields.Statement i
  | .decHour c => Laws.EncodedFields.decHour c
  | .decMin c => Laws.EncodedFields.decMin c
  | .decSec c => Laws.EncodedFields.decSec c
  | .enc c => Laws.EncodedFields.enc c
  | .to12 c => Laws.EncodedFields.to12 c
  | .hled c => Laws.EncodedFields.hled c
  | .mled c => Laws.EncodedFields.mled c
  | .brt c => Laws.EncodedFields.brt c
  | .debHour => Laws.EncodedFields.debHour
  | .debMin => Laws.EncodedFields.debMin
  | .debSync => Laws.EncodedFields.debSync
  | .inch => Laws.EncodedFields.inch
  | .incm => Laws.EncodedFields.incm
  | .btnh => Laws.EncodedFields.btnh
  | .btnm => Laws.EncodedFields.btnm
  | .sync a b c => Laws.EncodedFields.sync a b c
  | .refresh => Laws.EncodedFields.refresh

theorem Instr.fields_wellFormed (i : Instr) : i.WellFormed := (encodedFields i).1

theorem fieldsOf_of_decodeCmd {w : Word} {i : Instr} (h : decodeCmd w = .ok i) : i.fields = fieldsOf w := by
  obtain ⟨r, hr, hsel, rfl⟩ := (Laws.decodeCmd_ok_iff w i).mp h
  exact fields_build_of_selects hr hsel

theorem encode_of_decodeCmd {w : Word} {i : Instr} (h : decodeCmd w = .ok i) : encode i = w := by
  rw [encode, fieldsOf_of_decodeCmd h, Laws.wordOf_fieldsOf]

/-- Settles O1: the fields of every command pass the checks, and the row that builds it selects its word. -/
theorem decodeOfEncodeIsTheCommand : Obligations.DecodeOfEncodeIsTheCommand :=
  fun i => ⟨i.fields_wellFormed, Machine.decodeCmd_encode i⟩

/-- Settles O2: the decoded command has the fields of the word, and a word is made of its fields. -/
theorem decodedWordIsTheEncoding : Obligations.DecodedWordIsTheEncoding := fun _ _ h => encode_of_decodeCmd h

/-- Settles O3, by the mask test of each row. -/
theorem commandExactlyWhenMaskMatches : Obligations.CommandExactlyWhenMaskMatches := by
  intro w
  have row (k : Fin opcodeTable.length) := decodeCmd_row_iff k w
  exact ⟨row ⟨0, by decide⟩, row ⟨1, by decide⟩, row ⟨2, by decide⟩, row ⟨3, by decide⟩, row ⟨4, by decide⟩,
    row ⟨5, by decide⟩, row ⟨6, by decide⟩, row ⟨7, by decide⟩, row ⟨8, by decide⟩, row ⟨9, by decide⟩, row ⟨10, by decide⟩,
    row ⟨11, by decide⟩, row ⟨12, by decide⟩, row ⟨13, by decide⟩, row ⟨14, by decide⟩, row ⟨15, by decide⟩,
    row ⟨16, by decide⟩⟩

/-! ### The illegal words -/

/-- The fields that 30_encoding.md R39 lists as illegal. -/
def CmdFields.Listed (f : CmdFields) : Prop :=
  (f.op = 0x0 ∨ f.op = 0xE ∨ f.op = 0xF) ∨ f.rsv ≠ 0 ∨ ((f.op = 0x1 ∨ f.op = 0x7) ∧ f.sel = 3) ∨
    (f.op ≠ 0x1 ∧ f.op ≠ 0x7 ∧ f.sel ≠ 0) ∨ (f.op ≠ 0xC ∧ (f.a ≠ 0 ∨ f.b ≠ 0)) ∨
    (f.op ∈ [0x7, 0x8, 0x9, 0xA, 0xB, 0xD] ∧ f.c ≠ 0)

theorem CmdFields.opOk_iff (f : CmdFields) : f.opOk = true ↔ ¬ (f.op = 0x0 ∨ f.op = 0xE ∨ f.op = 0xF) := by
  have h : ∀ op : BitVec 4, (decide (1 ≤ op.toNat) && decide (op.toNat ≤ 13)) = true ↔
      ¬ (op = 0x0 ∨ op = 0xE ∨ op = 0xF) := by decide
  exact h f.op

theorem CmdFields.rsvOk_iff (f : CmdFields) : f.rsvOk = true ↔ ¬ f.rsv ≠ 0 := by
  simp [CmdFields.rsvOk]

theorem CmdFields.selOk_iff (f : CmdFields) : f.selOk = true ↔
    ¬ ((f.op = 0x1 ∨ f.op = 0x7) ∧ f.sel = 3) ∧ ¬ (f.op ≠ 0x1 ∧ f.op ≠ 0x7 ∧ f.sel ≠ 0) := by
  unfold CmdFields.selOk
  by_cases hop : f.op = 0x1 ∨ f.op = 0x7
  · rw [if_pos (by simpa using hop), bne_iff_ne]
    tauto
  · rw [if_neg (by simpa using hop), beq_iff_eq]
    tauto

theorem CmdFields.abOk_iff (f : CmdFields) : (f.aOk = true ∧ f.bOk = true) ↔ ¬ (f.op ≠ 0xC ∧ (f.a ≠ 0 ∨ f.b ≠ 0)) := by
  simp only [CmdFields.aOk, CmdFields.bOk, Bool.or_eq_true, beq_iff_eq]
  tauto

/-- Of the legal operations, those with an operand in `c` are all but DEB, INCH, INCM, BTNH, BTNM and REFRESH. -/
theorem CmdFields.cOk_iff {f : CmdFields} (hop : f.opOk = true) :
    f.cOk = true ↔ ¬ (f.op ∈ [0x7, 0x8, 0x9, 0xA, 0xB, 0xD] ∧ f.c ≠ 0) := by
  have h : ∀ op : BitVec 4, ¬ (op = 0x0 ∨ op = 0xE ∨ op = 0xF) →
      ((1 ≤ op.toNat ∧ op.toNat ≤ 6) ∨ op = 0xC ↔ op ∉ [0x7, 0x8, 0x9, 0xA, 0xB, 0xD]) := by decide
  have hused := h f.op (f.opOk_iff.mp hop)
  simp only [CmdFields.cOk, Bool.or_eq_true, Bool.and_eq_true, decide_eq_true_eq, beq_iff_eq]
  tauto

/-- Fields are well formed exactly when none of the cases of 30_encoding.md R39 holds, check by check. -/
theorem CmdFields.wellFormed_iff (f : CmdFields) : f.wellFormed = true ↔ ¬ f.Listed := by
  have hchecks : f.wellFormed = true ↔
      f.opOk = true ∧ f.rsvOk = true ∧ f.selOk = true ∧ (f.aOk = true ∧ f.bOk = true) ∧ f.cOk = true := by
    simp only [CmdFields.wellFormed, Bool.and_eq_true, and_assoc]
  rw [hchecks]
  constructor
  · rintro ⟨hop, hrsv, hsel, hab, hc⟩ (hl | hl | hl | hl | hl | hl)
    · exact f.opOk_iff.mp hop hl
    · exact f.rsvOk_iff.mp hrsv hl
    · exact (f.selOk_iff.mp hsel).1 hl
    · exact (f.selOk_iff.mp hsel).2 hl
    · exact f.abOk_iff.mp hab hl
    · exact (CmdFields.cOk_iff hop).mp hc hl
  · intro h
    have hop : f.opOk = true := f.opOk_iff.mpr fun hl => h (.inl hl)
    exact ⟨hop, f.rsvOk_iff.mpr fun hl => h (.inr (.inl hl)),
      f.selOk_iff.mpr ⟨fun hl => h (.inr (.inr (.inl hl))), fun hl => h (.inr (.inr (.inr (.inl hl))))⟩,
      f.abOk_iff.mpr fun hl => h (.inr (.inr (.inr (.inr (.inl hl))))),
      (CmdFields.cOk_iff hop).mpr fun hl => h (.inr (.inr (.inr (.inr (.inr hl)))))⟩

/-- The 17 pairs of `op` and `sel` that pass the checks (30_encoding.md R37). -/
theorem legal_op_sel : ∀ (op : BitVec 4) (sel : BitVec 2), ¬ (op = 0x0 ∨ op = 0xE ∨ op = 0xF) →
    ¬ ((op = 0x1 ∨ op = 0x7) ∧ sel = 3) → ¬ (op ≠ 0x1 ∧ op ≠ 0x7 ∧ sel ≠ 0) →
    (op = 0x1 ∧ sel = 0) ∨ (op = 0x1 ∧ sel = 1) ∨ (op = 0x1 ∧ sel = 2) ∨ (op = 0x2 ∧ sel = 0) ∨ (op = 0x3 ∧ sel = 0) ∨
      (op = 0x4 ∧ sel = 0) ∨ (op = 0x5 ∧ sel = 0) ∨ (op = 0x6 ∧ sel = 0) ∨ (op = 0x7 ∧ sel = 0) ∨ (op = 0x7 ∧ sel = 1) ∨
      (op = 0x7 ∧ sel = 2) ∨ (op = 0x8 ∧ sel = 0) ∨ (op = 0x9 ∧ sel = 0) ∨ (op = 0xA ∧ sel = 0) ∨ (op = 0xB ∧ sel = 0) ∨
      (op = 0xC ∧ sel = 0) ∨ (op = 0xD ∧ sel = 0) := by decide

/-- Well-formed fields are those of a command: one for each legal `op` and `sel`, where the unused fields are 0. -/
theorem CmdFields.exists_instr {f : CmdFields} (h : f.wellFormed = true) : ∃ i : Instr, i.fields = f := by
  obtain ⟨op, rsv, sel, a, b, c⟩ := f
  simp only [CmdFields.wellFormed_iff, CmdFields.Listed, not_or] at h
  obtain ⟨hop, hrsv, hsel, hsel0, hab, hc⟩ := h
  obtain rfl : rsv = 0 := not_not.mp hrsv
  have inC (hne : op ≠ 0xC) : (⟨op, 0, sel, 0, 0, c⟩ : CmdFields) = ⟨op, 0, sel, a, b, c⟩ := by
    obtain ⟨rfl, rfl⟩ : a = 0 ∧ b = 0 := by tauto
    rfl
  have unused (hmem : op ∈ [0x7, 0x8, 0x9, 0xA, 0xB, 0xD]) (hne : op ≠ 0xC) :
      (⟨op, 0, sel, 0, 0, 0⟩ : CmdFields) = ⟨op, 0, sel, a, b, c⟩ := by
    obtain rfl : c = 0 := by tauto
    exact inC hne
  rcases legal_op_sel op sel (by simpa using hop) hsel hsel0 with
    ⟨rfl, rfl⟩ | ⟨rfl, rfl⟩ | ⟨rfl, rfl⟩ | ⟨rfl, rfl⟩ | ⟨rfl, rfl⟩ | ⟨rfl, rfl⟩ | ⟨rfl, rfl⟩ | ⟨rfl, rfl⟩ | ⟨rfl, rfl⟩ |
    ⟨rfl, rfl⟩ | ⟨rfl, rfl⟩ | ⟨rfl, rfl⟩ | ⟨rfl, rfl⟩ | ⟨rfl, rfl⟩ | ⟨rfl, rfl⟩ | ⟨rfl, rfl⟩ | ⟨rfl, rfl⟩
  · exact ⟨.decHour c, inC (by decide)⟩
  · exact ⟨.decMin c, inC (by decide)⟩
  · exact ⟨.decSec c, inC (by decide)⟩
  · exact ⟨.enc c, inC (by decide)⟩
  · exact ⟨.to12 c, inC (by decide)⟩
  · exact ⟨.hled c, inC (by decide)⟩
  · exact ⟨.mled c, inC (by decide)⟩
  · exact ⟨.brt c, inC (by decide)⟩
  · exact ⟨.debHour, unused (by decide) (by decide)⟩
  · exact ⟨.debMin, unused (by decide) (by decide)⟩
  · exact ⟨.debSync, unused (by decide) (by decide)⟩
  · exact ⟨.inch, unused (by decide) (by decide)⟩
  · exact ⟨.incm, unused (by decide) (by decide)⟩
  · exact ⟨.btnh, unused (by decide) (by decide)⟩
  · exact ⟨.btnm, unused (by decide) (by decide)⟩
  · exact ⟨.sync a b c, rfl⟩
  · exact ⟨.refresh, unused (by decide) (by decide)⟩

/-- A word is illegal exactly when its fields are listed: legal fields are a command's, whose word decodes to it. -/
theorem decodeCmd_error_iff (w : Word) : (∃ e, decodeCmd w = .error e) ↔ (fieldsOf w).Listed := by
  have hok : (∃ i, decodeCmd w = .ok i) ↔ ¬ (fieldsOf w).Listed := by
    rw [← CmdFields.wellFormed_iff]
    constructor
    · rintro ⟨i, hi⟩
      rw [← fieldsOf_of_decodeCmd hi]
      exact i.fields_wellFormed
    · intro hwf
      obtain ⟨i, hi⟩ := CmdFields.exists_instr hwf
      have hword : encode i = w := by rw [encode, hi, Laws.wordOf_fieldsOf]
      exact ⟨i, hword ▸ Machine.decodeCmd_encode i⟩
  cases hd : decodeCmd w with
  | ok i => simpa [hd] using hok
  | error e => simpa [hd] using hok

/-- Settles O4: `CmdFields.Listed` is the rule's list for the fields of the word. -/
theorem illegalWordsAreTheListedOnes : Obligations.IllegalWordsAreTheListedOnes := decodeCmd_error_iff

/-- Settles O5: the six words are the commands' own words, and the two others are selected by no row. -/
theorem sampleWordsDecode : Obligations.SampleWordsDecode :=
  have own := Machine.decodeCmd_encode
  ⟨own (.decSec 0xD9), own (.mled 45), own .debMin, own .btnm, own (.sync 13 45 30), own .refresh, rfl, rfl⟩

/-! ### The step of a decoded command -/

/-- Settles O6, by the step of an idle block that takes a command and the step of a command in progress. -/
theorem stepRunsTheDecodedCommand : Obligations.StepRunsTheDecodedCommand :=
  ⟨fun _ _ _ _ hidle hhost htakes hi => Machine.step_takes hidle hhost htakes hi,
    fun _ _ _ _ _ _ hexec hi => Machine.step_inProgress hexec hi⟩

end Sys2Proof
end

section
/-! PROOFS. Family 40_codec.md: `decodeField` and `encodeField` as arithmetic on the digits of a byte (R43, R45), the ranges and
the round trip that follow (R44, R48, R49), and the next states of DEC and ENC (R46, R47). -/

namespace Sys2Proof.Machine

/-! ### The two functions as arithmetic -/

/-- HOUR has a 2-bit tens digit: bits 7:6 are ignored (40_codec.md R43). -/
theorem decodeField_hour (p : Byte) : decodeField .hour p = p.toNat / 16 % 4 * 10 + p.toNat % 16 := by
  simp [decodeField, BitVec.extractLsb'_toNat, Nat.shiftRight_eq_div_pow]

/-- MIN has a 3-bit tens digit: bit 7 is ignored (40_codec.md R43). -/
theorem decodeField_min (p : Byte) : decodeField .min p = p.toNat / 16 % 8 * 10 + p.toNat % 16 := by
  simp [decodeField, BitVec.extractLsb'_toNat, Nat.shiftRight_eq_div_pow]

/-- SEC masks the clock-halt bit first (40_codec.md R43). -/
theorem decodeField_sec (p : Byte) : decodeField .sec p = p.toNat % 128 / 16 * 10 + p.toNat % 16 := by
  have mask : (p &&& 0x7F).toNat = p.toNat % 128 := by
    rw [BitVec.toNat_and]
    exact Nat.and_two_pow_sub_one_eq_mod p.toNat 7
  simp only [decodeField, BitVec.extractLsb'_toNat, mask, Nat.shiftRight_eq_div_pow]
  omega

/-- Settles O28: the mask of SEC clears the one bit that the tens digit of MIN leaves out. -/
theorem minAndSecDecodeAlike : Obligations.MinAndSecDecodeAlike := by
  intro p
  rw [decodeField_min, decodeField_sec]
  omega

theorem encodeField_toNat {v : Nat} (h : v ≤ 59) : (encodeField v).toNat = v / 10 * 16 + v % 10 := by
  rw [encodeField_eq h, BitVec.toNat_ofNat]
  omega

/-- A value encodes to a byte exactly when its decimal digits are the two hexadecimal digits of the byte. -/
theorem encodeField_eq_iff {v : Nat} (h : v ≤ 59) (p : Byte) :
    encodeField v = p ↔ v / 10 = p.toNat / 16 ∧ v % 10 = p.toNat % 16 := by
  rw [← BitVec.toNat_inj, encodeField_toNat h]
  omega

/-! ### Ranges and the round trip -/

/-- Settles O26: the packed byte is at most 0x59, and at most 0x24 for an hour. -/
theorem encodeFieldPacksTensAndOnes : Obligations.EncodeFieldPacksTensAndOnes := by
  intro v hv
  have hpacked := encodeField_toNat hv
  refine ⟨by omega, by omega, Nat.testBit_lt_two_pow (by omega), fun hour => ?_⟩
  apply BitVec.eq_of_toNat_eq
  rw [BitVec.extractLsb'_toNat, Nat.shiftRight_eq_div_pow, Nat.div_eq_of_lt (by omega)]
  rfl

/-- Settles O29, by the bounds of the digits. -/
theorem decodedRangeAndDomain : Obligations.DecodedRangeAndDomain := by
  intro p
  have hour := decodeField_hour p
  have min := decodeField_min p
  rw [← minAndSecDecodeAlike p]
  exact ⟨decodeField_hour_le p, decodeField_le .min p, decodeField_le .min p, by omega, by omega, by omega⟩

theorem decodeField_hour_encodeField {v : Nat} (h : v ≤ 39) : decodeField .hour (encodeField v) = v := by
  rw [decodeField_hour, encodeField_toNat (by omega)]
  omega

theorem decodeField_min_encodeField {v : Nat} (h : v ≤ 59) : decodeField .min (encodeField v) = v := by
  rw [decodeField_min, encodeField_toNat h]
  omega

/-- Encoding the low digit of a byte with some tens gives the byte back exactly when the low digit is decimal and the tens are
the high digit. -/
theorem encodeField_digits_eq_iff {tens : Nat} {p : Byte} (h : tens * 10 + p.toNat % 16 ≤ 59) :
    encodeField (tens * 10 + p.toNat % 16) = p ↔ p.toNat % 16 ≤ 9 ∧ p.toNat / 16 = tens := by
  rw [encodeField_eq_iff h]
  omega

theorem encodeField_decodeField_hour {p : Byte} (h : decodeField .hour p ≤ 59) :
    encodeField (decodeField .hour p) = p ↔ p.toNat % 16 ≤ 9 ∧ p.toNat / 64 = 0 := by
  rw [decodeField_hour] at h ⊢
  rw [encodeField_digits_eq_iff h]
  omega

theorem encodeField_decodeField_min {p : Byte} (h : decodeField .min p ≤ 59) :
    encodeField (decodeField .min p) = p ↔ p.toNat % 16 ≤ 9 ∧ p.toNat / 128 = 0 := by
  rw [decodeField_min] at h ⊢
  rw [encodeField_digits_eq_iff h]
  omega

/-- Settles O27: the digits of a packed byte are those of its value, and a byte is packed when no bit of it is ignored and its
low digit is decimal; SEC follows from MIN. -/
theorem packedRoundTrip : Obligations.PackedRoundTrip := by
  refine ⟨fun w v hv => ?_, fun v hv => ?_, fun p hp => ?_, fun p hp => encodeField_decodeField_min hp, fun p hp => ?_⟩
  · have hwrap := HourWrap.value_le w
    exact decodeField_hour_encodeField (by omega)
  · rw [← minAndSecDecodeAlike]
    exact ⟨decodeField_min_encodeField hv, decodeField_min_encodeField hv⟩
  · exact encodeField_decodeField_hour (by omega)
  · rw [← minAndSecDecodeAlike] at hp ⊢
    exact encodeField_decodeField_min hp

/-! ### DEC and ENC -/

theorem finish_setResult (s : State) (v : BitVec 16) :
    finish (s.setResult v) = .next { s with result := v, phase := .idle } := rfl

theorem raise_domain (s : State) :
    raise .domain s = .next { s with flags := { s.flags with domErr := true }, phase := .idle } := rfl

/-- Settles O24: each DEC ends with the decoded number in `result`. -/
theorem decWritesTheDecodedField : Obligations.DecWritesTheDecodedField := by
  intro c s
  rw [← decodeField_hour, ← decodeField_min, ← decodeField_sec]
  exact ⟨finish_setResult s _, finish_setResult s _, finish_setResult s _⟩

theorem setWidth_encodeField {v : Nat} (h : v ≤ 59) :
    (encodeField v).setWidth 16 = BitVec.ofNat 16 (v / 10 * 16 + v % 10) := by
  apply BitVec.eq_of_toNat_eq
  rw [BitVec.toNat_setWidth, BitVec.toNat_ofNat, encodeField_toNat h]

/-- ENC up to 59 packs its operand (40_codec.md R47). -/
theorem exec_enc_upTo59 {c : Byte} (hc : ¬ 59 < c.toNat) (s : State) :
    exec (.enc c) s = finish (s.setResult ((encodeField c.toNat).setWidth 16)) := if_neg hc

/-- Settles O25, by the two sides of the range check. -/
theorem encPacksOrRaises : Obligations.EncPacksOrRaises := by
  intro c s
  constructor
  · intro hle
    rw [exec_enc_upTo59 (by omega), setWidth_encodeField hle, finish_setResult]
  · intro hlt
    rw [exec_above59 hlt (by simp), raise_domain]

end Sys2Proof.Machine
end

section
/-! PROOFS. Family 41_display.md: `brightness` as the integer nearest to s * PWM_MAX / 59 (R56) and the laws that follow from
that alone (R58), and the next states of TO12, HLED, MLED and BRT (R51, R53, R55, R57). -/

namespace Sys2Proof.Machine

/-! ### The brightness of a second -/

/-- The bounds are strict on both sides: 2 * s * PWM_MAX is even and 59 is odd, so no quotient is halfway (41_display.md R56). -/
theorem brightness_near (p : Params) {v : Nat} (h : v ≤ 59) :
    2 * (59 * (brightness p v).toNat) < 2 * (v * p.pwmMax.toNat) + 59 ∧
      2 * (v * p.pwmMax.toNat) < 2 * (59 * (brightness p v).toNat) + 59 := by
  rw [brightness_toNat p h, Nat.mul_assoc]
  omega

/-- Settles O33: the quotient is not cut off by the 16 bits, and it is the nearest integer. -/
theorem brightnessIsTheRoundedQuotient : Obligations.BrightnessIsTheRoundedQuotient := by
  intro p v hv
  obtain ⟨below, above⟩ := brightness_near p hv
  exact ⟨brightness_toNat p hv, below, above, brightness_le p hv⟩

/-- s * PWM_MAX grows by PWM_MAX with each second, so the nearest quotient grows by more than PWM_MAX / 59 - 1. -/
theorem brightness_succ (p : Params) {v : Nat} (h : v ≤ 58) :
    59 * (brightness p v).toNat + p.pwmMax.toNat < 59 * (brightness p (v + 1)).toNat + 59 := by
  have below := (brightness_near p (v := v) (by omega)).1
  have above := (brightness_near p (v := v + 1) (by omega)).2
  rw [Nat.succ_mul v] at above
  omega

/-- Settles O34: at the ends s * PWM_MAX / 59 is an integer, which is then the nearest one; from one second to the next the
brightness grows by more than -1, and by more than 0 from `PWM_MAX` = 59 on. -/
theorem brightnessLaws : Obligations.BrightnessLaws := by
  intro p
  refine ⟨?first, BitVec.eq_of_toNat_eq ?last, fun v hv => ?mono, fun hp v hv => ?strict⟩
  case first =>
    have near := brightness_near p (Nat.zero_le 59)
    omega
  case last =>
    have near := brightness_near p (Nat.le_refl 59)
    omega
  case mono =>
    have grows := brightness_succ p hv
    omega
  case strict =>
    have grows := brightness_succ p hv
    omega

/-! ### TO12 and HLED -/

/-- The four lines of the hour hold every 12-hour value (41_display.md R52). -/
theorem setWidth_hourBank (h : Nat) : (hourBank h).setWidth 16 = BitVec.ofNat 16 (to12Hour h) := by
  apply BitVec.eq_of_toNat_eq
  rw [BitVec.toNat_setWidth, BitVec.toNat_ofNat, hourBank_toNat]

theorem ofNat_to12Hour (c : Byte) : BitVec.ofNat 16 (to12Hour c.toNat) =
    if 24 ≤ c.toNat then 0 else if 12 < c.toNat then c.setWidth 16 - 12 else c.setWidth 16 := by
  rw [← BitVec.ofNat_toNat]
  unfold to12Hour
  split
  case isTrue => rfl
  case isFalse =>
    split
    case isTrue => exact BitVec.ofNat_sub_ofNat_of_le c.toNat 12 (by decide) (by omega) |>.symm
    case isFalse => rfl

theorem exec_to12 (c : Byte) (s : State) :
    exec (.to12 c) s = finish (s.setResult (BitVec.ofNat 16 (to12Hour c.toNat))) := rfl

theorem exec_hled (c : Byte) (s : State) :
    exec (.hled c) s = finish (s.setResult ((hourBank c.toNat).setWidth 16)) := rfl

/-- Settles O30: both commands write the same 12-hour value, HLED through the four lines of the hour. -/
theorem hourCommandsWriteTwelveHourValue : Obligations.HourCommandsWriteTwelveHourValue := by
  intro c s i hi
  rw [← ofNat_to12Hour, ← finish_setResult]
  simp only [List.mem_cons, List.not_mem_nil, or_false] at hi
  rcases hi with rfl | rfl
  · exact exec_to12 c s
  · rw [exec_hled, setWidth_hourBank]

/-! ### MLED and BRT -/

/-- MLED up to 59 shows its operand (41_display.md R55). -/
theorem exec_mled_upTo59 {c : Byte} (hc : ¬ 59 < c.toNat) (s : State) :
    exec (.mled c) s = finish (s.setResult ((minuteBank c.toNat).setWidth 16)) := if_neg hc

/-- BRT up to 59 writes the brightness of its operand (41_display.md R57). -/
theorem exec_brt_upTo59 {c : Byte} (hc : ¬ 59 < c.toNat) (s : State) :
    exec (.brt c) s = finish (s.setResult (brightness s.params c.toNat)) := if_neg hc

/-- The six lines of the minute hold every minute (41_display.md R54). -/
theorem setWidth_minuteBank {c : Byte} (h : c.toNat ≤ 59) : (minuteBank c.toNat).setWidth 16 = c.setWidth 16 := by
  apply BitVec.eq_of_toNat_eq
  rw [BitVec.toNat_setWidth, BitVec.toNat_setWidth, minuteBank_toNat h]

/-- Settles O31, by the two sides of the range check. -/
theorem mledWritesMinuteOrRaises : Obligations.MledWritesMinuteOrRaises := by
  intro c s
  constructor
  · intro hle
    rw [exec_mled_upTo59 (by omega), setWidth_minuteBank hle, finish_setResult]
  · intro hlt
    rw [exec_above59 hlt (by simp), raise_domain]

/-- Settles O32, by the two sides of the range check. -/
theorem brtWritesDutyOrRaises : Obligations.BrtWritesDutyOrRaises := by
  intro c s
  constructor
  · intro hle
    rw [exec_brt_upTo59 (by omega), brightness, finish_setResult]
  · intro hlt
    rw [exec_above59 hlt (by simp), raise_domain]

end Sys2Proof.Machine
end

section
/-! PROOFS. Family 42_debounce.md: the verdict of an event as a function of its slot (R60), what `debounce` does to the slots
(R62), the next states of DEB (R64), and the properties of runs of events (R65). -/

namespace Sys2Proof.Machine

/-! ### The verdict -/

theorem accepts_iff (p : Params) (slot : Slot) (now : Timestamp) :
    accepts p slot now = true ↔ slot.lastValid = false ∨ p.debounceMs < (now - slot.lastTs).toNat := by
  simp [accepts]

/-- A slot that holds an accepted event drops the events of its window (42_debounce.md R60). -/
theorem accepts_eq_false_iff (p : Params) (slot : Slot) (now : Timestamp) :
    accepts p slot now = false ↔ slot.lastValid = true ∧ ¬ p.debounceMs < (now - slot.lastTs).toNat := by
  simp [accepts]

/-- When time has not gone back, the modular difference is the difference (42_debounce.md R60, R61). -/
theorem add_debounceMs_lt_of_accepts {p : Params} {last now : Timestamp} (hle : last.toNat ≤ now.toNat)
    (h : accepts p ⟨last, true⟩ now = true) : last.toNat + p.debounceMs < now.toNat := by
  have hfar : p.debounceMs < (now - last).toNat := ((accepts_iff ..).mp h).resolve_left (by simp)
  rw [BitVec.toNat_sub_of_le hle] at hfar
  omega

/-- The verdict depends on the slot of the source alone, and it comes with the state it leaves (42_debounce.md R62). -/
theorem debounce_cases (src : Source) (now : Timestamp) (s : State) :
    (accepts s.params (s.slotOf src) now = true ∧
        debounce src now s = (true, (s.recordAccepted src now).setAcc true)) ∨
      (accepts s.params (s.slotOf src) now = false ∧ debounce src now s = (false, s.setAcc false)) := by
  cases ha : accepts s.params (s.slotOf src) now with
  | true => exact .inl ⟨rfl, debounce_accepted ha⟩
  | false => exact .inr ⟨rfl, debounce_dropped ha⟩

theorem debounce_verdict (src : Source) (now : Timestamp) (s : State) :
    (debounce src now s).1 = accepts s.params (s.slotOf src) now := by
  rcases debounce_cases src now s with ⟨ha, hd⟩ | ⟨ha, hd⟩ <;> rw [ha, hd]

/-- Settles O35: the verdict is that of the source's slot, and the modular difference is written out. -/
theorem eventAcceptedExactlyWhen : Obligations.EventAcceptedExactlyWhen := by
  refine ⟨rfl, fun src now s => ?_⟩
  have verdict := accepts_iff s.params (s.slotOf src) now
  rw [← debounce_verdict, BitVec.toNat_sub, Nat.add_comm, ← Nat.add_sub_assoc (by omega)] at verdict
  exact verdict

/-! ### The slots -/

/-- The sources that share the slot of an accepted event find it there (10_state.md R14, 42_debounce.md R62). -/
theorem State.slotOf_accepted_same {s : State} {src other : Source}
    (h : slotNumber s.params src = slotNumber s.params other) (now : Timestamp) :
    ((s.recordAccepted src now).setAcc true).slotOf other = ⟨now, true⟩ :=
  (Slots.get_put (slotNumber_lt s.params src) s.slots _ _ (slotNumber_lt s.params other)).trans (if_pos h.symm)

/-- The sources with another slot find theirs unchanged. -/
theorem State.slotOf_accepted_other {s : State} {src other : Source}
    (h : slotNumber s.params src ≠ slotNumber s.params other) (now : Timestamp) :
    ((s.recordAccepted src now).setAcc true).slotOf other = s.slotOf other :=
  State.recordAccepted_get_other (slotNumber_lt s.params other) h.symm now

theorem sourceNumber_injective : Function.Injective sourceNumber := by
  intro x y
  cases x <;> cases y <;> decide

/-- Sources with a slot each have different slots (10_state.md R14). -/
theorem slotNumber_eq_iff (p : Params) (x y : Source) :
    slotNumber p x = slotNumber p y ↔ p.debounceShared = true ∨ x = y := by
  unfold slotNumber
  split
  case isTrue hshared => simp [hshared]
  case isFalse hshared => simp [hshared, sourceNumber_injective.eq_iff]

/-- Settles O40: a dropped event writes no slot, an accepted one raises its own slot's timestamp to `now`. -/
theorem lastTimestampNeverDecreases : Obligations.LastTimestampNeverDecreases := by
  intro src now s duty n hn
  rcases debounce_cases src now s with ⟨-, hd⟩ | ⟨-, hd⟩ <;> rw [hd]
  case inl =>
    simp only [State.setAcc_slots, State.recordAccepted_slots, Slots.get_put (slotNumber_lt s.params src) _ n _ hn]
    split
    case isTrue => exact ⟨duty n, Nat.le_refl _⟩
    case isFalse => exact ⟨Nat.le_refl _, duty n⟩
  case inr => exact ⟨Nat.le_refl _, duty n⟩

/-- Settles O39: every source reads the shared slot, where the event now stands; with a slot each, another source's slot and so
its verdict stay. -/
theorem sharedSlotClosesEveryWindow : Obligations.SharedSlotClosesEveryWindow := by
  intro src other now later s t h
  obtain rfl : (s.recordAccepted src now).setAcc true = t := by
    rcases debounce_cases src now s with ⟨-, hd⟩ | ⟨-, hd⟩
    · exact congrArg Prod.snd (hd.symm.trans h)
    · cases hd.symm.trans h
  rw [debounce_verdict, debounce_verdict]
  constructor
  · intro hshared hwindow
    rw [State.slotOf_accepted_same ((slotNumber_eq_iff ..).mpr (.inl hshared)), accepts_eq_false_iff]
    exact ⟨rfl, Nat.not_lt.mpr hwindow⟩
  · intro hseparate hne
    have hslots : slotNumber s.params src ≠ slotNumber s.params other := by
      simp [slotNumber_eq_iff, hseparate, hne.symm]
    have hkept := State.slotOf_accepted_other hslots now
    exact ⟨hkept, by rw [hkept]; rfl⟩

/-! ### The command DEB -/

/-- DEB of an accepted event (42_debounce.md R62, R64). -/
theorem debounceToResult_accepted {src : Source} {s : State} {now : Timestamp} (hj : s.JustTaken now)
    (h : accepts s.params (s.slotOf src) now = true) :
    debounceToResult src s = .next { s with
      slots := s.slots.put (slotNumber s.params src) ⟨now, true⟩, flags := { s.flags with acc := true },
      result := 1, phase := .idle } := by
  obtain ⟨cmd, hphase⟩ := hj
  rw [debounceToResult, State.now_exec s _ _ _ _ hphase, debounce_accepted h]
  rfl

/-- DEB of a dropped event (42_debounce.md R62, R64). -/
theorem debounceToResult_dropped {src : Source} {s : State} {now : Timestamp} (hj : s.JustTaken now)
    (h : accepts s.params (s.slotOf src) now = false) :
    debounceToResult src s = .next { s with
      flags := { s.flags with acc := false }, result := 0, phase := .idle } := by
  obtain ⟨cmd, hphase⟩ := hj
  rw [debounceToResult, State.now_exec s _ _ _ _ hphase, debounce_dropped h]
  rfl

/-- Settles O36: each DEB judges the event of its own source, by the slot of that source. -/
theorem debJudgesAndRecords : Obligations.DebJudgesAndRecords := by
  intro x hx s now hj
  have hexec : exec x.1 s = debounceToResult x.2.1 s :=
    exec_deb (List.mem_map_of_mem (f := fun x => (x.1, x.2.1)) hx) s
  have hnumber : sourceNumber x.2.1 = x.2.2 := by
    simp only [List.mem_cons, List.not_mem_nil, or_false] at hx
    rcases hx with rfl | rfl | rfl <;> rfl
  rw [hexec, ← hnumber]
  refine ⟨rfl, fun h => ?_, fun h => ?_⟩
  · exact debounceToResult_accepted hj ((accepts_iff ..).mpr h)
  · exact debounceToResult_dropped hj ((accepts_eq_false_iff ..).mpr h)

/-! ### Runs of debounced events -/

theorem debounceAll_accepted {src : Source} {now : Timestamp} {s : State}
    (h : accepts s.params (s.slotOf src) now = true) (es : List (Source × Timestamp)) :
    (debounceAll ((src, now) :: es) s).2 =
      (src, now) :: (debounceAll es ((s.recordAccepted src now).setAcc true)).2 := by
  simp only [debounceAll, debounce_accepted h]

theorem debounceAll_dropped {src : Source} {now : Timestamp} {s : State}
    (h : accepts s.params (s.slotOf src) now = false) (es : List (Source × Timestamp)) :
    (debounceAll ((src, now) :: es) s).2 = (debounceAll es (s.setAcc false)).2 := by
  simp only [debounceAll, debounce_dropped h]

/-- `ACC` is overwritten by every event and read by none (42_debounce.md R62). -/
theorem debounce_setAcc (src : Source) (now : Timestamp) (s : State) (acc : Bool) :
    debounce src now (s.setAcc acc) = debounce src now s := rfl

theorem debounceAll_setAcc (es : List (Source × Timestamp)) (s : State) (acc : Bool) :
    (debounceAll es (s.setAcc acc)).2 = (debounceAll es s).2 := by
  cases es with
  | nil => rfl
  | cons e es => simp only [debounceAll, debounce_setAcc]

/-- Settles O38: a dropped event leaves only `ACC`, which no later verdict reads. -/
theorem droppedEventExtendsNoWindow : Obligations.DroppedEventExtendsNoWindow := by
  intro src now es s h
  rw [debounce_verdict] at h
  rw [debounceAll_dropped h, debounceAll_setAcc]

/-- Once the slot of `src` holds an event at `last`, the events of that slot accepted later are outside its window: those that
are dropped or are of another slot leave the slot, and an accepted one moves its timestamp forward. -/
theorem debounceAll_after {src : Source} {last : Timestamp} {es : List (Source × Timestamp)} {s : State}
    (hslot : s.slotOf src = ⟨last, true⟩) (htimes : monotoneTimes ((src, last) :: es)) :
    ∀ y ∈ (debounceAll es s).2, slotNumber s.params src = slotNumber s.params y.1 →
      last.toNat + s.params.debounceMs < y.2.toNat := by
  induction es generalizing src last s with
  | nil => intro y hy; cases hy
  | cons e es ih =>
    obtain ⟨other, now⟩ := e
    obtain ⟨hlast, htail⟩ := List.pairwise_cons.mp htimes
    have hskip : monotoneTimes ((src, last) :: es) :=
      List.Pairwise.sublist ((List.sublist_cons_self _ _).cons_cons _) htimes
    intro y hy hsame
    cases ha : accepts s.params (s.slotOf other) now with
    | false =>
      rw [debounceAll_dropped ha] at hy
      exact ih (s := s.setAcc false) hslot hskip y hy hsame
    | true =>
      rw [debounceAll_accepted ha] at hy
      by_cases hown : slotNumber s.params src = slotNumber s.params other
      case pos =>
        have hfirst : last.toNat + s.params.debounceMs < now.toNat := by
          have hread : s.slotOf other = ⟨last, true⟩ := by rw [← hslot, State.slotOf, State.slotOf, hown]
          exact add_debounceMs_lt_of_accepts (hlast _ (List.mem_cons_self ..)) (hread ▸ ha)
        rcases List.mem_cons.mp hy with rfl | hy
        · exact hfirst
        · have hlater : now.toNat + s.params.debounceMs < y.2.toNat :=
            ih (State.slotOf_accepted_same rfl now) htail y hy (hown.symm.trans hsame)
          omega
      case neg =>
        rcases List.mem_cons.mp hy with rfl | hy
        · exact absurd hsame hown
        · exact ih ((State.slotOf_accepted_other (Ne.symm hown) now).trans hslot) hskip y hy hsame

/-- Settles O37, by induction on the events: an accepted event stands in its slot when the later ones are judged. -/
theorem acceptedEventsAreSpaced : Obligations.AcceptedEventsAreSpaced := by
  intro es
  induction es with
  | nil => exact fun _ _ => List.Pairwise.nil
  | cons e es ih =>
    obtain ⟨src, now⟩ := e
    intro s htimes
    have htail : monotoneTimes es := (List.pairwise_cons.mp htimes).2
    cases ha : accepts s.params (s.slotOf src) now with
    | false =>
      rw [debounceAll_dropped ha]
      exact ih (s.setAcc false) htail
    | true =>
      rw [debounceAll_accepted ha]
      exact List.pairwise_cons.mpr
        ⟨debounceAll_after (State.slotOf_accepted_same rfl now) htimes,
          ih ((s.recordAccepted src now).setAcc true) htail⟩

end Sys2Proof.Machine
end

section
/-! PROOFS. Family 43_adjust.md: the next states of `incHour` and `incMinute` on a quiet bus (R70, R72) and with each transaction
failing (R71, R73), the gate of BTNH and BTNM (R74, R75), and what the adjusting commands leave unchanged. -/

namespace Sys2Proof.Machine

/-! ### The state a command ends in -/

/-- `s` at the end of a command: the transactions `txns` were made, and the command left these bits of `status`, these RTC
registers and the rest of the script. -/
def State.endedWith (s : State) (flags : Flags) (rtc : Memory) (txns : List BusTxn) (rest : List EnvEvent) : State :=
  { s with flags := flags, rtc := rtc, env := rest, phase := .idle, busLog := s.busLog ++ txns }

theorem finish_eq_endedWith (s : State) : finish s = .next (s.endedWith s.flags s.rtc [] s.env) := by
  simp [State.endedWith, State.setPhase]

theorem raise_eq_endedWith (e : ErrorKind) (s : State) :
    raise e s = .next (s.endedWith (s.flags.withError e) s.rtc [] s.env) := by
  simp [State.endedWith, State.setPhase, State.setFlags]

/-- A completed transaction stands in the record before those that follow it. -/
@[simp] theorem State.afterTxn_endedWith (s : State) (f : Field) (op : BusOp) (es : List EnvEvent) (flags : Flags)
    (rtc : Memory) (txns : List BusTxn) (rest : List EnvEvent) :
    (s.afterTxn f op es).endedWith flags rtc txns rest =
      s.endedWith flags rtc (⟨busRequest s.params f op, false⟩ :: txns) rest := by
  simp [State.endedWith]

/-! ### A transaction that fails -/

section
variable {n : Nat} {f : Field} {s : State} {cmd : Word} {now : Timestamp} {got : List Byte} {req : Option BusReq} {left : Byte}
  {es : List EnvEvent}

/-- A failed transaction ends the command; only the register of a write is left changed (20_memory.md R22, R23). -/
theorem busAccess_fails {op : BusOp} {k : Byte → State → Result} (h : s.phase = .exec cmd now got req) (hl : got.length = n)
    (he : s.env = .busErr left :: es) :
    busAccess n f op s k = .next (s.endedWith (s.flags.withError .bus) (s.busSpoil f op left).rtc
      [⟨busRequest s.params f op, true⟩] es) := by
  rw [busAccess_failed h (by simp [← hl]) he, raise_eq_endedWith]
  simp [State.endedWith]

theorem memRead_fails {k : Byte → State → Result} (h : s.phase = .exec cmd now got req) (hl : got.length = n)
    (he : s.env = .busErr left :: es) :
    memRead n f s k = .next (s.endedWith (s.flags.withError .bus) s.rtc [⟨.read (s.params.addr f), true⟩] es) :=
  busAccess_fails h hl he

theorem memWrite_fails {v : Byte} {k : State → Result} (h : s.phase = .exec cmd now got req) (hl : got.length = n)
    (he : s.env = .busErr left :: es) :
    memWrite n f v s k = .next (s.endedWith (s.flags.withError .bus) (s.rtc.write (s.params.addr f).toNat left)
      [⟨.write (s.params.addr f) v, true⟩] es) :=
  busAccess_fails h hl he

end

/-! ### `incHour` -/

/-- The byte that `incHour` writes when the RTC holds still (43_adjust.md R70). -/
def State.nextHour (s : State) : Byte := encodeField (hourAfter s.params (decodeField .hour (s.rtcByte .hour)))

section
variable {n : Nat} {s : State} {k : State → Result} {cmd : Word} {now : Timestamp} {got : List Byte} {req : Option BusReq}
  {left : Byte} {es : List EnvEvent}

theorem incHour_quiet_finish (h : s.phase = .exec cmd now [] req)
    (hd : decodeField .hour (s.rtcByte .hour) < s.params.hourWrap.value) (hq : quietFor 2 s.env = true) :
    incHour 0 s finish = .next (s.endedWith s.flags (s.rtc.write s.params.regHour.toNat s.nextHour)
      [⟨.read s.params.regHour, false⟩, ⟨.write s.params.regHour s.nextHour, false⟩] (s.env.drop 2)) := by
  rw [incHour_quiet (n := 0) (m := 0) h rfl hd hq, finish_eq_endedWith]
  simp [busRequest, Params.addr, State.nextHour]

theorem incHour_quiet_domErr (h : s.phase = .exec cmd now [] req)
    (hd : s.params.hourWrap.value ≤ decodeField .hour (s.rtcByte .hour)) (hq : quietFor 1 s.env = true) :
    incHour 0 s k = .next (s.endedWith (s.flags.withError .domain) s.rtc [⟨.read s.params.regHour, false⟩] (s.env.drop 1)) := by
  rw [incHour_outOfDomain (n := 0) (m := 0) h rfl hd hq, raise_eq_endedWith]
  simp [busRequest, Params.addr]

theorem incHour_readFails (h : s.phase = .exec cmd now got req) (hl : got.length = n) (he : s.env = .busErr left :: es) :
    incHour n s k =
      .next (s.endedWith (s.flags.withError .bus) s.rtc [⟨.read s.params.regHour, true⟩] es) :=
  memRead_fails h hl he

/-- `incHour` after its read, on an hour in domain. -/
theorem incHour_eq_write (h : s.phase = .exec cmd now got req) (hl : got.length = n)
    (hd : decodeField .hour (s.rtcByte .hour) < s.params.hourWrap.value) (hq : quietFor 1 s.env = true) :
    incHour n s k = memWrite (n + 1) .hour s.nextHour (s.afterTxn .hour .read (s.env.drop 1)) k := by
  unfold incHour
  rw [memRead_quiet (m := 0) h hl hq]
  simp only [State.afterTxn_params, if_neg (Nat.not_le.mpr hd)]
  rfl

theorem incHour_writeFails (h : s.phase = .exec cmd now got req) (hl : got.length = n)
    (hd : decodeField .hour (s.rtcByte .hour) < s.params.hourWrap.value) (he : s.env = .busDone :: .busErr left :: es) :
    incHour n s k = .next (s.endedWith (s.flags.withError .bus) (s.rtc.write s.params.regHour.toNat left)
      [⟨.read s.params.regHour, false⟩, ⟨.write s.params.regHour s.nextHour, true⟩] es) := by
  rw [incHour_eq_write h hl hd (by rw [he]; rfl),
    memWrite_fails (State.afterTxn_phase h ..) (by simp [hl]) (by rw [State.afterTxn_env, he]; rfl)]
  simp [busRequest, Params.addr]

end

/-! ### `incMinute` -/

/-- The byte that `incMinute` writes without a carry when the RTC holds still (43_adjust.md R72). -/
def State.nextMinute (s : State) : Byte := encodeField (decodeField .min (s.rtcByte .min) + 1)

theorem encodeField_zero : encodeField 0 = 0x00 := rfl

section
variable {s : State} {cmd : Word} {now : Timestamp} {req : Option BusReq} {left : Byte} {es : List EnvEvent}

theorem incMinute_quiet_noCarry (h : s.phase = .exec cmd now [] req) (hm : decodeField .min (s.rtcByte .min) < 59)
    (hq : quietFor 2 s.env = true) :
    incMinute s = .next (s.endedWith s.flags (s.rtc.write s.params.regMin.toNat s.nextMinute)
      [⟨.read s.params.regMin, false⟩, ⟨.write s.params.regMin s.nextMinute, false⟩] (s.env.drop 2)) := by
  rw [incMinute_noCarry (m := 0) h hm hq, finish_eq_endedWith]
  simp [busRequest, Params.addr, State.nextMinute]

theorem incMinute_quiet_domErr (h : s.phase = .exec cmd now [] req) (hm : 59 < decodeField .min (s.rtcByte .min))
    (hq : quietFor 1 s.env = true) :
    incMinute s =
      .next (s.endedWith (s.flags.withError .domain) s.rtc [⟨.read s.params.regMin, false⟩] (s.env.drop 1)) := by
  rw [incMinute_outOfDomain (m := 0) h hm hq, raise_eq_endedWith]
  simp [busRequest, Params.addr]

theorem incMinute_quiet_carry (h : s.phase = .exec cmd now [] req) (hm : decodeField .min (s.rtcByte .min) = 59)
    (hd : decodeField .hour (s.rtcByte .hour) < s.params.hourWrap.value) (hq : quietFor 4 s.env = true) :
    incMinute s = .next (s.endedWith s.flags
      ((s.rtc.write s.params.regHour.toNat s.nextHour).write s.params.regMin.toNat 0x00)
      [⟨.read s.params.regMin, false⟩, ⟨.read s.params.regHour, false⟩, ⟨.write s.params.regHour s.nextHour, false⟩,
        ⟨.write s.params.regMin 0x00, false⟩] (s.env.drop 4)) := by
  rw [incMinute_carry (m := 0) h hm hd hq, finish_eq_endedWith]
  simp [busRequest, Params.addr, State.nextHour, encodeField_zero]

theorem incMinute_quiet_carry_domErr (h : s.phase = .exec cmd now [] req) (hm : decodeField .min (s.rtcByte .min) = 59)
    (hd : s.params.hourWrap.value ≤ decodeField .hour (s.rtcByte .hour)) (hq : quietFor 2 s.env = true) :
    incMinute s = .next (s.endedWith (s.flags.withError .domain) s.rtc
      [⟨.read s.params.regMin, false⟩, ⟨.read s.params.regHour, false⟩] (s.env.drop 2)) := by
  rw [incMinute_carry_outOfDomain (m := 0) h hm hd hq, raise_eq_endedWith]
  simp [busRequest, Params.addr]

theorem incMinute_readFails (h : s.phase = .exec cmd now [] req) (he : s.env = .busErr left :: es) :
    incMinute s = .next (s.endedWith (s.flags.withError .bus) s.rtc [⟨.read s.params.regMin, true⟩] es) :=
  memRead_fails h rfl he

theorem incMinute_writeFails (h : s.phase = .exec cmd now [] req) (hm : decodeField .min (s.rtcByte .min) < 59)
    (he : s.env = .busDone :: .busErr left :: es) :
    incMinute s = .next (s.endedWith (s.flags.withError .bus) (s.rtc.write s.params.regMin.toNat left)
      [⟨.read s.params.regMin, false⟩, ⟨.write s.params.regMin s.nextMinute, true⟩] es) := by
  unfold incMinute
  rw [memRead_quiet (n := 0) (m := 0) h rfl (by rw [he]; rfl)]
  simp only [if_neg (show ¬ 59 < decodeField .min (s.rtcByte .min) by omega),
    if_neg (show ¬ decodeField .min (s.rtcByte .min) + 1 = 60 by omega)]
  rw [memWrite_fails (n := 1) (State.afterTxn_phase h ..) rfl (by rw [State.afterTxn_env, he]; rfl)]
  simp [busRequest, Params.addr, State.nextMinute]

/-- `incMinute` after its read, on minute 59. -/
theorem incMinute_eq_carry (h : s.phase = .exec cmd now [] req) (hm : decodeField .min (s.rtcByte .min) = 59)
    (hq : quietFor 1 s.env = true) :
    incMinute s =
      incHour 1 (s.afterTxn .min .read (s.env.drop 1)) fun s => memWrite 3 .min 0x00 s finish := by
  unfold incMinute
  rw [memRead_quiet (n := 0) (m := 0) h rfl hq]
  simp only [hm, Nat.lt_irrefl, if_false, if_true, encodeField_zero]

theorem incMinute_hourReadFails (h : s.phase = .exec cmd now [] req) (hm : decodeField .min (s.rtcByte .min) = 59)
    (he : s.env = .busDone :: .busErr left :: es) :
    incMinute s = .next (s.endedWith (s.flags.withError .bus) s.rtc
      [⟨.read s.params.regMin, false⟩, ⟨.read s.params.regHour, true⟩] es) := by
  rw [incMinute_eq_carry h hm (by rw [he]; rfl),
    incHour_readFails (n := 1) (State.afterTxn_phase h ..) rfl (by rw [State.afterTxn_env, he]; rfl)]
  simp [busRequest, Params.addr]

theorem incMinute_hourWriteFails (h : s.phase = .exec cmd now [] req) (hm : decodeField .min (s.rtcByte .min) = 59)
    (hd : decodeField .hour (s.rtcByte .hour) < s.params.hourWrap.value)
    (he : s.env = .busDone :: .busDone :: .busErr left :: es) :
    incMinute s = .next (s.endedWith (s.flags.withError .bus) (s.rtc.write s.params.regHour.toNat left)
      [⟨.read s.params.regMin, false⟩, ⟨.read s.params.regHour, false⟩, ⟨.write s.params.regHour s.nextHour, true⟩] es) := by
  rw [incMinute_eq_carry h hm (by rw [he]; rfl),
    incHour_writeFails (n := 1) (State.afterTxn_phase h ..) rfl (by simpa using hd) (by rw [State.afterTxn_env, he]; rfl)]
  simp [busRequest, Params.addr, State.nextHour]

theorem incMinute_lastWriteFails (h : s.phase = .exec cmd now [] req) (hm : decodeField .min (s.rtcByte .min) = 59)
    (hd : decodeField .hour (s.rtcByte .hour) < s.params.hourWrap.value)
    (he : s.env = .busDone :: .busDone :: .busDone :: .busErr left :: es) :
    incMinute s = .next (s.endedWith (s.flags.withError .bus)
      ((s.rtc.write s.params.regHour.toNat s.nextHour).write s.params.regMin.toNat left)
      [⟨.read s.params.regMin, false⟩, ⟨.read s.params.regHour, false⟩, ⟨.write s.params.regHour s.nextHour, false⟩,
        ⟨.write s.params.regMin 0x00, true⟩] es) := by
  have hread := State.afterTxn_phase h .min .read (s.env.drop 1)
  rw [incMinute_eq_carry h hm (by rw [he]; rfl),
    incHour_quiet (n := 1) (m := 0) hread rfl (by simpa using hd) (by rw [State.afterTxn_env, he]; rfl),
    memWrite_fails (n := 3) (State.afterTxn_phase (State.afterTxn_phase hread ..) ..) rfl
      (by simp only [State.afterTxn_env, he]; rfl)]
  simp [busRequest, Params.addr, State.nextHour]

end

/-! ### The gate of BTNH and BTNM -/

/-- `s` behind the gate, with these slots and this `ACC` (43_adjust.md R74, R75). -/
def State.gated (s : State) (slots : Slots) (acc : Bool) : State := (s.setSlots slots).setAcc acc

/-- An accepted event is recorded, and the body runs (42_debounce.md R62). -/
theorem ifAccepted_accepted {src : Source} {s : State} {now : Timestamp} (hj : s.JustTaken now)
    (ha : accepts s.params (s.slotOf src) now = true) (k : State → Result) :
    ifAccepted src s k = k (s.gated (s.slots.put (slotNumber s.params src) ⟨now, true⟩) true) := by
  obtain ⟨cmd, hp⟩ := hj
  rw [ifAccepted_begin (State.pendingReq_exec s _ _ _ _ hp), State.now_exec s _ _ _ _ hp, if_pos ha]
  rfl

/-- A dropped event ends the command with `ACC` <- 0 (42_debounce.md R62). -/
theorem ifAccepted_dropped {src : Source} {s : State} {now : Timestamp} (hj : s.JustTaken now)
    (ha : accepts s.params (s.slotOf src) now = false) (k : State → Result) :
    ifAccepted src s k = .next { s with flags := { s.flags with acc := false }, phase := .idle } := by
  obtain ⟨cmd, hp⟩ := hj
  rw [ifAccepted_begin (State.pendingReq_exec s _ _ _ _ hp), State.now_exec s _ _ _ _ hp, if_neg (by simp [ha])]
  rfl

/-- The command `i` reaches its body with these slots and this `ACC`: `plain` has no gate, and `button` passes it when the event
of its source is accepted. -/
def PassesGate (plain button : Instr) (src : Source) (s : State) (now : Timestamp) (i : Instr) (slots : Slots)
    (acc : Bool) : Prop :=
  (i = plain ∧ slots = s.slots ∧ acc = s.flags.acc) ∨
  (i = button ∧ accepts s.params (s.slotOf src) now = true ∧
    slots = s.slots.put (slotNumber s.params src) ⟨now, true⟩ ∧ acc = true)

theorem PassesGate.exec_eq {plain button : Instr} {src : Source} {s : State} {now : Timestamp} {i : Instr} {slots : Slots}
    {acc : Bool} (hg : PassesGate plain button src s now i slots acc) (hj : s.JustTaken now) {body : State → Result}
    (hplain : exec plain s = body s) (hbutton : exec button s = ifAccepted src s body) :
    exec i s = body (s.gated slots acc) := by
  rcases hg with ⟨rfl, rfl, rfl⟩ | ⟨rfl, ha, rfl, rfl⟩
  · exact hplain
  · exact hbutton.trans (ifAccepted_accepted hj ha body)

/-! ### The next states on a quiet bus -/

/-- Settles O41, by the two quiet outcomes of `incHour`. -/
theorem inchIncrementsTheHour : Obligations.InchIncrementsTheHour := by
  rintro s now ⟨cmd, hp⟩
  exact ⟨incHour_quiet_finish hp, incHour_quiet_domErr hp⟩

/-- Settles O42, by the quiet outcomes of `incMinute` that read no hour. -/
theorem incmWithoutCarry : Obligations.IncmWithoutCarry := by
  rintro s now ⟨cmd, hp⟩
  exact ⟨incMinute_quiet_noCarry hp, incMinute_quiet_domErr hp⟩

/-- Settles O43, by the quiet outcomes of `incMinute` on minute 59. -/
theorem incmCarriesIntoTheHour : Obligations.IncmCarriesIntoTheHour := by
  rintro s now ⟨cmd, hp⟩ hm
  exact ⟨incMinute_quiet_carry hp hm, incMinute_quiet_carry_domErr hp hm⟩

/-- Settles O44: behind the gate BTNH is INCH on the state with the event recorded. -/
theorem btnhIncrementsWhenAccepted : Obligations.BtnhIncrementsWhenAccepted := by
  rintro s now ⟨cmd, hp⟩
  have gate := fun ha => ifAccepted_accepted (src := .hourButton) (s := s) ⟨cmd, hp⟩ ha execInch
  refine ⟨fun ha hd hq => ?_, fun ha hd hq => ?_, fun ha => ifAccepted_dropped ⟨cmd, hp⟩ ha execInch⟩
  · exact (gate ha).trans (incHour_quiet_finish (s := s.gated _ true) hp hd hq)
  · exact (gate ha).trans (incHour_quiet_domErr (s := s.gated _ true) hp hd hq)

/-- Settles O45: behind the gate BTNM is INCM on the state with the event recorded. -/
theorem btnmIncrementsWhenAccepted : Obligations.BtnmIncrementsWhenAccepted := by
  rintro s now ⟨cmd, hp⟩
  have gate := fun ha => ifAccepted_accepted (src := .minuteButton) (s := s) ⟨cmd, hp⟩ ha incMinute
  refine ⟨fun ha hm hq => ?_, fun ha hm hd hq => ?_, fun ha hm hd hq => ?_, fun ha hm hq => ?_,
    fun ha => ifAccepted_dropped ⟨cmd, hp⟩ ha incMinute⟩
  · exact (gate ha).trans (incMinute_quiet_noCarry (s := s.gated _ true) hp hm hq)
  · exact (gate ha).trans (incMinute_quiet_carry (s := s.gated _ true) hp hm hd hq)
  · exact (gate ha).trans (incMinute_quiet_carry_domErr (s := s.gated _ true) hp hm hd hq)
  · exact (gate ha).trans (incMinute_quiet_domErr (s := s.gated _ true) hp hm hq)

/-! ### Every failed transaction -/

/-- Settles O47, by the failure of each transaction of `incHour` and `incMinute`, on the state behind the gate. -/
theorem adjustBusFailure : Obligations.AdjustBusFailure := by
  rintro s now left es slots acc ⟨cmd, hp⟩
  have hp' : (s.gated slots acc).phase = .exec cmd now [] none := hp
  refine ⟨fun i hi => ?_, fun i hi => ?_⟩
  · rw [PassesGate.exec_eq (plain := .inch) (button := .btnh) hi ⟨cmd, hp⟩ rfl rfl]
    exact ⟨incHour_readFails hp' rfl, incHour_writeFails hp' rfl⟩
  · rw [PassesGate.exec_eq (plain := .incm) (button := .btnm) hi ⟨cmd, hp⟩ rfl rfl]
    exact ⟨incMinute_readFails hp', incMinute_writeFails hp', incMinute_hourReadFails hp', incMinute_hourWriteFails hp',
      incMinute_lastWriteFails hp'⟩

/-! ### What the adjusting commands leave unchanged -/

/-- Every update of a bus command but reset keeps a view of the flags that BusError and DomainError do not touch. -/
theorem busRel_keepsFlag {α : Type} (view : Flags → α) (hbus : ∀ f : Flags, view (f.withError .bus) = view f)
    (hdom : ∀ f : Flags, view (f.withError .domain) = view f) :
    BusRel (noReset · = true) (fun _ => True) (fun s t => view t.flags = view s.flags) where
  refl _ := rfl
  trans hst htu := htu.trans hst
  suffix := noReset_append_right
  steps s xs _ _ := congrArg view (s.rtcSteps_flags xs)
  write _ _ _ _ := rfl
  log _ _ _ _ := rfl
  env _ _ := rfl
  phase _ _ := rfl
  bus s := hbus s.flags
  dom s := hdom s.flags
  rst _ _ _ _ h := absurd h not_noReset_of_rst

/-- ILL_ERR belongs to the decoder alone (60_exceptions.md R103). -/
theorem exec_illErr {i : Instr} {s t : State} (hE : noReset s.env = true) (h : exec i s = .next t) :
    t.flags.illErr = s.flags.illErr :=
  (busRel_keepsFlag Flags.illErr (fun _ => rfl) fun _ => rfl).exec trivial trivial (fun _ _ _ _ => trivial)
    (fun _ _ _ _ _ _ _ => rfl) (fun _ _ => rfl) (fun _ _ => rfl) (fun _ _ _ => rfl) hE h

theorem exec_host {i : Instr} {s t : State} (hE : noReset s.env = true) (h : exec i s = .next t) : t.host = s.host :=
  (busRel_keeps State.host (fun _ _ _ => rfl) (fun _ _ => rfl) (fun _ _ => rfl) (fun _ _ => rfl) fun _ _ => rfl).exec
    trivial trivial (fun _ _ _ _ => trivial) (fun _ _ _ _ _ _ _ => rfl) (fun _ _ => rfl) (fun _ _ => rfl)
    (fun _ _ _ => rfl) hE h

/-! ### The slots and `ACC` -/

/-- INCH and INCM debounce nothing (43_adjust.md R71, R73). -/
theorem exec_increment_slots_acc {i : Instr} (hi : i = .inch ∨ i = .incm) {s t : State} (hE : noReset s.env = true)
    (h : exec i s = .next t) : t.slots = s.slots ∧ t.flags.acc = s.flags.acc := by
  have slots := busRel_keeps State.slots (fun _ _ _ => rfl) (fun _ _ => rfl) (fun _ _ => rfl) (fun _ _ => rfl) fun _ _ => rfl
  have acc := busRel_keepsFlag Flags.acc (fun _ => rfl) fun _ => rfl
  rcases hi with rfl | rfl
  · exact ⟨slots.inch trivial hE h, acc.inch trivial hE h⟩
  · exact ⟨slots.incm trivial trivial hE h, acc.incm trivial trivial hE h⟩

/-- The slots with the one of `src` emptied. -/
def State.otherSlots (src : Source) (s : State) : Slots := s.slots.put (slotNumber s.params src) Slot.reset

theorem Slots.put_put (x : Slots) (n : Nat) (v w : Slot) : (x.put n v).put n w = x.put n w := by
  unfold Slots.put
  split
  · rfl
  · split <;> rfl

theorem State.otherSlots_recordAccepted (src : Source) (s : State) (now : Timestamp) :
    (s.recordAccepted src now).otherSlots src = s.otherSlots src :=
  Slots.put_put s.slots _ _ _

theorem State.get_eq_of_otherSlots {src : Source} {s t : State} (hp : t.params = s.params)
    (h : t.otherSlots src = s.otherSlots src) {n : Nat} (hn : n < 3) (hne : n ≠ slotNumber s.params src) :
    t.slots.get n = s.slots.get n := by
  have hget := congrArg (·.get n) h
  simpa [State.otherSlots, hp, Slots.get_put (slotNumber_lt s.params src) _ n _ hn, hne] using hget

theorem busRel_otherSlots (src : Source) :
    BusRel (noReset · = true) (fun _ => True) (fun s t => t.otherSlots src = s.otherSlots src) :=
  busRel_keeps (State.otherSlots src) (fun _ _ _ => rfl) (fun _ _ => rfl) (fun _ _ => rfl) (fun _ _ => rfl) fun _ _ => rfl

theorem exec_btnh_otherSlots {s t : State} (hE : noReset s.env = true) (h : exec .btnh s = .next t) :
    t.otherSlots .hourButton = s.otherSlots .hourButton :=
  (busRel_otherSlots .hourButton).btnh trivial (fun _ _ => rfl) (State.otherSlots_recordAccepted .hourButton) hE h

theorem exec_btnm_otherSlots {s t : State} (hE : noReset s.env = true) (h : exec .btnm s = .next t) :
    t.otherSlots .minuteButton = s.otherSlots .minuteButton :=
  (busRel_otherSlots .minuteButton).btnm trivial trivial (fun _ _ => rfl) (State.otherSlots_recordAccepted .minuteButton)
    hE h

/-! ### The registers -/

theorem noRtcStep_append_right {a b : List EnvEvent} (h : noRtcStep (a ++ b) = true) : noRtcStep b = true := by
  rw [noRtcStep, List.all_append, Bool.and_eq_true] at h
  exact h.2

theorem eq_nil_of_noRtcStep {xs : List (Field × Byte)} {tail : List EnvEvent}
    (h : noRtcStep (stepEvents xs ++ tail) = true) : xs = [] := by
  cases xs with
  | nil => rfl
  | cons x xs => cases h

/-- From `s` to `t` only registers in `W` are stored to. -/
structure StoresOnly (W : Field → Prop) (s t : State) : Prop where
  params : t.params = s.params
  kept : ∀ x, (∀ f, W f → x ≠ (s.params.addr f).toNat) → t.rtc.read x = s.rtc.read x

namespace StoresOnly

variable {W : Field → Prop}

theorem of_same {s t : State} (hp : t.params = s.params) (hr : t.rtc = s.rtc) : StoresOnly W s t :=
  ⟨hp, fun _ _ => by rw [hr]⟩

theorem trans {s t u : State} (hst : StoresOnly W s t) (htu : StoresOnly W t u) : StoresOnly W s u where
  params := htu.params.trans hst.params
  kept x hx := (htu.kept x (hst.params ▸ hx)).trans (hst.kept x hx)

end StoresOnly

/-- With a still RTC a bus command stores only where it writes, a failed or abandoned write included. -/
theorem busRel_storesOnly (W : Field → Prop) : BusRel (noRtcStep · = true) W (StoresOnly W) where
  refl _ := .of_same rfl rfl
  trans := StoresOnly.trans
  suffix := noRtcStep_append_right
  steps s xs tail h := by
    rw [eq_nil_of_noRtcStep h]
    exact .of_same rfl rfl
  write s f v hf := ⟨rfl, fun x hx => Memory.read_write_other (hx f hf) s.rtc v⟩
  log _ _ _ _ := .of_same rfl rfl
  env _ _ := .of_same rfl rfl
  phase _ _ := .of_same rfl rfl
  bus _ := .of_same rfl rfl
  dom _ := .of_same rfl rfl
  rst _ _ _ _ _ := .of_same rfl rfl

/-- A read that completes while the RTC holds still gives the byte its register had (20_memory.md R22, R24). -/
theorem awaitBus_read_still {f : Field} {env : List EnvEvent} (hE : noRtcStep env = true) {s t : State} {b : Byte}
    (h : awaitBus f .read env s = .done b t) : b = s.rtcByte f := by
  cases env with
  | nil => cases h; rfl
  | cons e es =>
    cases e with
    | rtcStep g v => cases hE
    | take => cases h; rfl
    | busDone => cases h; rfl
    | busErr left => cases h
    | wait => cases h
    | rst left => cases h

theorem memRead_still {n : Nat} {f : Field} {s : State} (hn : s.got[n]? = none) (hE : noRtcStep s.env = true)
    (k : Byte → State → Result) : memRead n f s k = memRead n f s fun _ => k (s.rtcByte f) := by
  unfold memRead busAccess
  rw [hn]
  cases ha : awaitBus f .read s.env s with
  | done b t => rw [awaitBus_read_still hE ha]
  | failed t => rfl
  | pending t => rfl
  | aborted t => rfl

/-- INCH and BTNH store at most to HOUR (43_adjust.md R71, R74). -/
theorem exec_hour_storesOnly {i : Instr} (hi : i = .inch ∨ i = .btnh) {s t : State} (hE : noRtcStep s.env = true)
    (h : exec i s = .next t) : StoresOnly (· = .hour) s t := by
  rcases hi with rfl | rfl
  · exact (busRel_storesOnly _).inch rfl hE h
  · exact (busRel_storesOnly _).btnh rfl (fun _ _ => .of_same rfl rfl) (fun _ _ => .of_same rfl rfl) hE h

/-- INCM and BTNM store at most to MIN and HOUR (43_adjust.md R73, R75). -/
theorem exec_minute_storesOnly {i : Instr} (hi : i = .incm ∨ i = .btnm) {s t : State} (hE : noRtcStep s.env = true)
    (h : exec i s = .next t) : StoresOnly (fun f => f = .min ∨ f = .hour) s t := by
  rcases hi with rfl | rfl
  · exact (busRel_storesOnly _).incm (.inr rfl) (.inl rfl) hE h
  · exact (busRel_storesOnly _).btnm (.inr rfl) (.inl rfl) (fun _ _ => .of_same rfl rfl) (fun _ _ => .of_same rfl rfl) hE h

/-- Without a carry `incMinute` goes no further than MIN (43_adjust.md R72). -/
theorem incMinute_noCarry_storesOnly {s t : State} {now : Timestamp} (hj : s.JustTaken now) (hE : noRtcStep s.env = true)
    (hm : decodeField .min (s.rtcByte .min) ≠ 59) (h : incMinute s = .next t) : StoresOnly (· = .min) s t := by
  obtain ⟨cmd, hp⟩ := hj
  have hmin : incMinute s = memRead 0 .min s fun _ u =>
      if 59 < decodeField .min (s.rtcByte .min) then raise .domain u else memWrite 1 .min s.nextMinute u finish := by
    unfold incMinute
    rw [memRead_still (by rw [State.got_exec s _ _ _ _ hp]; rfl) hE]
    simp only [if_neg (show ¬ decodeField .min (s.rtcByte .min) + 1 = 60 by omega), State.nextMinute]
  rw [hmin] at h
  have B := busRel_storesOnly (· = .min)
  refine B.access (.inl rfl) hE h fun _ u hu h => ?_
  split at h
  · exact B.domErr h
  · exact B.access (.inr rfl) hu h fun _ _ _ h => B.fin h

/-- When the minute read is not 59, INCM and BTNM store at most to MIN (43_adjust.md R73, R75). -/
theorem exec_minute_noCarry_storesOnly {i : Instr} (hi : i = .incm ∨ i = .btnm) {s t : State} {now : Timestamp}
    (hj : s.JustTaken now) (hE : noRtcStep s.env = true) (hm : decodeField .min (s.rtcByte .min) ≠ 59)
    (h : exec i s = .next t) : StoresOnly (· = .min) s t := by
  rcases hi with rfl | rfl
  · exact incMinute_noCarry_storesOnly hj hE hm h
  · cases ha : accepts s.params (s.slotOf .minuteButton) now with
    | true =>
      refine .trans (t := s.gated (s.slots.put (slotNumber s.params .minuteButton) ⟨now, true⟩) true) (.of_same rfl rfl) ?_
      exact incMinute_noCarry_storesOnly hj hE hm ((ifAccepted_accepted hj ha incMinute).symm.trans h)
    | false =>
      cases (ifAccepted_dropped hj ha incMinute).symm.trans h
      exact .of_same rfl rfl

/-! ### The frame -/

/-- Settles O46, by the views of the state that these commands keep and the registers they store to. -/
theorem adjustFrame : Obligations.AdjustFrame := by
  intro i hi s t now hj hR hE h
  have hparams := exec_params h
  have houtputs : t.outHour = s.outHour ∧ t.outMin = s.outMin ∧ t.pwm = s.pwm := by
    simpa [State.outputs] using exec_outputs (by rintro rfl; simp at hi) hR h
  obtain ⟨houtHour, houtMin, hpwm⟩ := houtputs
  refine ⟨hparams, houtHour, houtMin, hpwm, exec_bus_result (List.mem_append_left [.refresh] hi) hR h, exec_illErr hR h,
    exec_host hR h, fun hi => exec_increment_slots_acc hi hR h, ?_, ?_, ?_, ?_⟩
  · rintro rfl n hn hne
    exact State.get_eq_of_otherSlots hparams (exec_btnh_otherSlots hR h) hn hne
  · rintro rfl n hn hne
    exact State.get_eq_of_otherSlots hparams (exec_btnm_otherSlots hR h) hn hne
  · intro hi x hx
    exact (exec_hour_storesOnly hi hE h).kept x (by rintro _ rfl; exact hx)
  · rintro hi x hmin (hhour | hm)
    · exact (exec_minute_storesOnly hi hE h).kept x (by rintro _ (rfl | rfl); exacts [hmin, hhour])
    · exact (exec_minute_noCarry_storesOnly hi hj hE hm h).kept x (by rintro _ rfl; exact hmin)

end Sys2Proof.Machine
end

section
/-! PROOFS. Family 44_clockloop.md: the next states of REFRESH on a quiet bus and with each read failing (R80), what its outputs
depend on (R82), and what it leaves unchanged. -/

namespace Sys2Proof.Machine

/-! ### The lines after the three reads -/

theorem showTime_inDomain {ph pm ps : Byte} (hm : decodeField .min pm ≤ 59) (hv : decodeField .sec ps ≤ 59) (s : State) :
    showTime ph pm ps s = finish (s.setOutputs (hourBank (decodeField .hour ph)) (minuteBank (decodeField .min pm))
      (brightness s.params (decodeField .sec ps))) := by
  unfold showTime
  simp only [if_neg (Nat.not_lt.mpr hm), if_neg (Nat.not_lt.mpr hv)]

theorem showTime_outOfDomain {ph pm ps : Byte} (h : 59 < decodeField .min pm ∨ 59 < decodeField .sec ps) (s : State) :
    showTime ph pm ps s = raise .domain s := by
  unfold showTime
  by_cases hm : 59 < decodeField .min pm
  · simp only [if_pos hm]
  · simp only [if_neg hm, if_pos (h.resolve_left hm)]

/-! ### A quiet bus -/

/-- The three reads of REFRESH, completed (44_clockloop.md R80). -/
def refreshReads (p : Params) : List BusTxn := [⟨.read p.regHour, false⟩, ⟨.read p.regMin, false⟩, ⟨.read p.regSec, false⟩]

/-- The output registers show the time that the RTC registers hold (44_clockloop.md R80). -/
def State.showingRtc (s : State) : State :=
  s.setOutputs (hourBank (decodeField .hour (s.rtcByte .hour))) (minuteBank (decodeField .min (s.rtcByte .min)))
    (brightness s.params (decodeField .sec (s.rtcByte .sec)))

/-- The end of a command touches no output (10_state.md R15, R16). -/
theorem State.setOutputs_endedWith (s : State) (h : BitVec 4) (m : BitVec 6) (v : BitVec 16) (flags : Flags) (rtc : Memory)
    (txns : List BusTxn) (rest : List EnvEvent) :
    (s.setOutputs h m v).endedWith flags rtc txns rest = (s.endedWith flags rtc txns rest).setOutputs h m v := rfl

section
variable {s : State} {cmd : Word} {now : Timestamp} {req : Option BusReq}

theorem execRefresh_quiet_finish (h : s.phase = .exec cmd now [] req) (hm : decodeField .min (s.rtcByte .min) ≤ 59)
    (hv : decodeField .sec (s.rtcByte .sec) ≤ 59) (hq : quietFor 3 s.env = true) :
    execRefresh s = .next (s.showingRtc.endedWith s.flags s.rtc (refreshReads s.params) (s.env.drop 3)) := by
  rw [execRefresh_quiet (m := 0) h hq, showTime_inDomain hm hv, finish_eq_endedWith]
  simp [State.setOutputs_endedWith, State.showingRtc, refreshReads, busRequest, Params.addr]

theorem execRefresh_quiet_domErr (h : s.phase = .exec cmd now [] req)
    (hd : 59 < decodeField .min (s.rtcByte .min) ∨ 59 < decodeField .sec (s.rtcByte .sec)) (hq : quietFor 3 s.env = true) :
    execRefresh s =
      .next (s.endedWith (s.flags.withError .domain) s.rtc (refreshReads s.params) (s.env.drop 3)) := by
  rw [execRefresh_quiet (m := 0) h hq, showTime_outOfDomain hd, raise_eq_endedWith]
  simp [refreshReads, busRequest, Params.addr]

end

/-- Settles O50, by the two quiet outcomes of REFRESH. -/
theorem refreshShowsTheTime : Obligations.RefreshShowsTheTime := by
  rintro s now ⟨cmd, hp⟩ hq
  exact ⟨fun ⟨hm, hv⟩ => execRefresh_quiet_finish hp hm hv hq, fun hd => execRefresh_quiet_domErr hp hd hq⟩

/-! ### Every failed read -/

section
variable {s : State} {cmd : Word} {now : Timestamp} {req : Option BusReq} {left : Byte} {es : List EnvEvent}

theorem execRefresh_hourReadFails (h : s.phase = .exec cmd now [] req) (he : s.env = .busErr left :: es) :
    execRefresh s = .next (s.endedWith (s.flags.withError .bus) s.rtc [⟨.read s.params.regHour, true⟩] es) :=
  memRead_fails h rfl he

theorem execRefresh_minReadFails (h : s.phase = .exec cmd now [] req) (he : s.env = .busDone :: .busErr left :: es) :
    execRefresh s = .next (s.endedWith (s.flags.withError .bus) s.rtc
      [⟨.read s.params.regHour, false⟩, ⟨.read s.params.regMin, true⟩] es) := by
  unfold execRefresh
  rw [memRead_quiet (n := 0) (m := 0) h rfl (by rw [he]; rfl),
    memRead_fails (n := 1) (State.afterTxn_phase h ..) rfl (by rw [State.afterTxn_env, he]; rfl)]
  simp [busRequest, Params.addr]

theorem execRefresh_secReadFails (h : s.phase = .exec cmd now [] req)
    (he : s.env = .busDone :: .busDone :: .busErr left :: es) :
    execRefresh s = .next (s.endedWith (s.flags.withError .bus) s.rtc
      [⟨.read s.params.regHour, false⟩, ⟨.read s.params.regMin, false⟩, ⟨.read s.params.regSec, true⟩] es) := by
  have hhour := State.afterTxn_phase h .hour .read (s.env.drop 1)
  unfold execRefresh
  rw [memRead_quiet (n := 0) (m := 1) h rfl (by rw [he]; rfl),
    memRead_quiet (n := 1) (m := 0) hhour rfl (by rw [State.afterTxn_env, he]; rfl),
    memRead_fails (n := 2) (State.afterTxn_phase hhour ..) rfl (by simp only [State.afterTxn_env, he]; rfl)]
  simp [busRequest, Params.addr]

end

/-- Settles O51, read by read. -/
theorem refreshBusFailureKeepsOutputs : Obligations.RefreshBusFailureKeepsOutputs := by
  rintro s now left es k ⟨cmd, hp⟩ hk he
  match k, hk with
  | 0, _ => exact execRefresh_hourReadFails hp he
  | 1, _ => exact execRefresh_minReadFails hp he
  | 2, _ => exact execRefresh_secReadFails hp he

/-! ### What the outputs depend on -/

/-- The outputs are a function of the bytes of the three registers and of `PWM_MAX` (44_clockloop.md R82). -/
theorem State.showingRtc_outputs_congr {s t : State} (hbytes : ∀ f, s.rtcByte f = t.rtcByte f)
    (hpwm : s.params.pwmMax = t.params.pwmMax) : s.showingRtc.outputs = t.showingRtc.outputs := by
  simp [State.outputs, State.showingRtc, brightness, hbytes, hpwm]

/-- A quiet REFRESH that raises no error shows what the registers hold (44_clockloop.md R80). -/
theorem exec_refresh_outputs {s t : State} {now : Timestamp} (hj : s.JustTaken now) (hq : quietFor 3 s.env = true)
    (hm : decodeField .min (s.rtcByte .min) ≤ 59) (hv : decodeField .sec (s.rtcByte .sec) ≤ 59)
    (h : exec .refresh s = .next t) : t.outputs = s.showingRtc.outputs := by
  obtain ⟨cmd, hp⟩ := hj
  cases (execRefresh_quiet_finish hp hm hv hq).symm.trans h
  rfl

/-- Settles O53: both blocks show what their registers hold, and those agree. -/
theorem refreshDependsOnTheBytesRead : Obligations.RefreshDependsOnTheBytesRead := by
  intro s1 s2 t1 t2 n1 n2 hj1 hj2 hq1 hq2 hbytes hpwm h1 h2 hm hv
  have houtputs : t1.outputs = t2.outputs :=
    calc t1.outputs
      _ = s1.showingRtc.outputs := exec_refresh_outputs hj1 hq1 hm hv h1
      _ = s2.showingRtc.outputs := State.showingRtc_outputs_congr hbytes hpwm
      _ = t2.outputs := (exec_refresh_outputs hj2 hq2 (hbytes .min ▸ hm) (hbytes .sec ▸ hv) h2).symm
  simpa [State.outputs] using houtputs

/-! ### What REFRESH leaves unchanged -/

/-- REFRESH debounces nothing (44_clockloop.md R80). -/
theorem exec_refresh_slots_acc {s t : State} (hE : noReset s.env = true) (h : exec .refresh s = .next t) :
    t.slots = s.slots ∧ t.flags.acc = s.flags.acc := by
  have slots := busRel_keeps State.slots (fun _ _ _ => rfl) (fun _ _ => rfl) (fun _ _ => rfl) (fun _ _ => rfl) fun _ _ => rfl
  have acc := busRel_keepsFlag Flags.acc (fun _ => rfl) fun _ => rfl
  exact ⟨slots.refresh (fun _ _ _ _ _ _ => rfl) hE h, acc.refresh (fun _ _ _ _ _ _ => rfl) hE h⟩

/-- REFRESH stores to no register (44_clockloop.md R80). -/
theorem exec_refresh_storesOnly {s t : State} (hE : noRtcStep s.env = true) (h : exec .refresh s = .next t) :
    StoresOnly (fun _ => False) s t :=
  (busRel_storesOnly _).refresh (fun _ _ _ _ _ _ => .of_same rfl rfl) hE h

/-- Settles O54, by the views of the state that REFRESH keeps and the registers it stores to: none. -/
theorem refreshFrame : Obligations.RefreshFrame := by
  intro s t hR hE h
  obtain ⟨hslots, hacc⟩ := exec_refresh_slots_acc hR h
  exact ⟨exec_params h, hslots, exec_bus_result (by simp) hR h, hacc, exec_illErr hR h, exec_host hR h,
    fun x => (exec_refresh_storesOnly hE h).kept x fun _ hf => hf.elim⟩

end Sys2Proof.Machine
end

section
/-! PROOFS. Family 45_sync.md: the next states of SYNC on a quiet bus, with an event dropped or an operand out of range, and with
each write failing (R85), what it leaves unchanged, the display after it (R86), and that it alone writes SEC (R87). -/

namespace Sys2Proof.Machine

/-! ### The bytes SYNC writes -/

/-- The hour SYNC stores, as a number (45_sync.md R85). -/
def syncHour (p : Params) (a : Byte) : Nat := if p.syncHour12h then to12Hour a.toNat else a.toNat

/-- The byte SYNC writes to each register (45_sync.md R85). -/
def syncByte (p : Params) (a b c : Byte) : Field → Byte
  | .hour => encodeField (syncHour p a)
  | .min => encodeField b.toNat
  | .sec => syncSecByte p c.toNat

/-- The write of SYNC to a register. -/
def syncRequest (p : Params) (a b c : Byte) (f : Field) : BusReq := .write (p.addr f) (syncByte p a b c f)

/-- The three writes of SYNC, completed (45_sync.md R85). -/
def syncTxns (p : Params) (a b c : Byte) : List BusTxn :=
  [⟨syncRequest p a b c .hour, false⟩, ⟨syncRequest p a b c .min, false⟩, ⟨syncRequest p a b c .sec, false⟩]

section
variable {p : Params} {a b c : Byte}

theorem not_syncInDomain_iff : ¬ syncInDomain p a b c ↔
    59 < b.toNat ∨ 59 < c.toNat ∨ (p.syncHour12h = false ∧ p.hourWrap.value ≤ a.toNat) := by
  simp only [syncInDomain, not_and_or, not_or, Nat.not_le, Nat.not_lt, Bool.not_eq_true]

theorem syncHour_le (ha : p.syncHour12h = true ∨ a.toNat < p.hourWrap.value) : syncHour p a ≤ 59 := by
  unfold syncHour
  split
  case isTrue => exact (to12Hour_le _).trans (by decide)
  case isFalse h12 => exact ((ha.resolve_left h12).le.trans (HourWrap.value_le _)).trans (by decide)

theorem syncByte_hour (ha : p.syncHour12h = true ∨ a.toNat < p.hourWrap.value) :
    syncByte p a b c .hour = BitVec.ofNat 8 (syncHour p a / 10 * 16 + syncHour p a % 10) :=
  encodeField_eq (syncHour_le ha)

theorem syncByte_min (hb : b.toNat ≤ 59) :
    syncByte p a b c .min = BitVec.ofNat 8 (b.toNat / 10 * 16 + b.toNat % 10) :=
  encodeField_eq hb

theorem syncByte_sec (hc : c.toNat ≤ 59) :
    syncByte p a b c .sec = BitVec.ofNat 8 (p.secHaltWrite.toNat * 128 + c.toNat / 10 * 16 + c.toNat % 10) :=
  syncSecByte_eq p hc

end

/-! ### The range checks -/

/-- An accepted SYNC (45_sync.md R85). -/
def syncBody (a b c : Byte) (s : State) : Result :=
  if s.params.syncHour12h then syncWrites (to12Hour a.toNat) b.toNat c.toNat s
  else if s.params.hourWrap.value ≤ a.toNat then raise .domain s
  else syncWrites a.toNat b.toNat c.toNat s

theorem exec_sync (a b c : Byte) (s : State) : exec (.sync a b c) s = ifAccepted .sync s (syncBody a b c) := rfl

theorem syncWrites_outOfDomain {hv m v : Nat} (h : 59 < m ∨ 59 < v) (s : State) : syncWrites hv m v s = raise .domain s := by
  unfold syncWrites
  by_cases hm : 59 < m
  · rw [if_pos hm]
  · rw [if_neg hm, if_pos (h.resolve_left hm)]

section
variable {a b c : Byte} {s : State}

/-- The range of the hour is checked for the 24-hour store only. -/
theorem syncBody_eq_syncWrites (ha : s.params.syncHour12h = true ∨ a.toNat < s.params.hourWrap.value) :
    syncBody a b c s = syncWrites (syncHour s.params a) b.toNat c.toNat s := by
  unfold syncBody syncHour
  by_cases h12 : s.params.syncHour12h = true
  · rw [if_pos h12, if_pos h12]
  · rw [if_neg h12, if_neg h12, if_neg (Nat.not_le.mpr (ha.resolve_left h12))]

/-- In range, SYNC is its three writes. -/
theorem syncBody_inDomain (hd : syncInDomain s.params a b c) :
    syncBody a b c s = memWrite 0 .hour (syncByte s.params a b c .hour) s fun t =>
      memWrite 1 .min (syncByte s.params a b c .min) t fun u =>
        memWrite 2 .sec (syncByte u.params a b c .sec) u finish := by
  obtain ⟨hb, hc, ha⟩ := hd
  rw [syncBody_eq_syncWrites ha, syncWrites, if_neg (Nat.not_lt.mpr hb), if_neg (Nat.not_lt.mpr hc)]
  rfl

theorem syncBody_outOfDomain (hd : ¬ syncInDomain s.params a b c) : syncBody a b c s = raise .domain s := by
  by_cases ha : s.params.syncHour12h = true ∨ a.toNat < s.params.hourWrap.value
  · rw [syncBody_eq_syncWrites ha, syncWrites_outOfDomain]
    by_contra hbc
    exact hd ⟨by omega, by omega, ha⟩
  · obtain ⟨h12, hwrap⟩ := not_or.mp ha
    rw [syncBody, if_neg h12, if_pos (Nat.not_lt.mp hwrap)]

end

/-! ### The writes -/

/-- The RTC registers hold the three bytes of SYNC. -/
def State.storeTime (s : State) (a b c : Byte) : State :=
  ((s.setRtc .hour (syncByte s.params a b c .hour)).setRtc .min (syncByte s.params a b c .min)).setRtc .sec
    (syncByte s.params a b c .sec)

section
variable {a b c : Byte} {s : State} {cmd : Word} {now : Timestamp} {req : Option BusReq} {left : Byte} {es : List EnvEvent}

theorem syncBody_quiet_finish (h : s.phase = .exec cmd now [] req) (hd : syncInDomain s.params a b c)
    (hq : quietFor 3 s.env = true) :
    syncBody a b c s =
      .next (s.endedWith s.flags (s.storeTime a b c).rtc (syncTxns s.params a b c) (s.env.drop 3)) := by
  obtain ⟨hb, hc, ha⟩ := hd
  rw [syncBody_eq_syncWrites ha, syncWrites_quiet (m := 0) h hq hb hc, finish_eq_endedWith]
  simp [State.storeTime, syncTxns, syncRequest, syncByte, busRequest, Params.addr]

theorem syncBody_hourWriteFails (h : s.phase = .exec cmd now [] req) (hd : syncInDomain s.params a b c)
    (he : s.env = .busErr left :: es) :
    syncBody a b c s = .next (s.endedWith (s.flags.withError .bus) (s.setRtc .hour left).rtc
      [⟨syncRequest s.params a b c .hour, true⟩] es) := by
  rw [syncBody_inDomain hd, memWrite_fails (n := 0) h rfl he]
  rfl

theorem syncBody_minWriteFails (h : s.phase = .exec cmd now [] req) (hd : syncInDomain s.params a b c)
    (he : s.env = .busDone :: .busErr left :: es) :
    syncBody a b c s = .next (s.endedWith (s.flags.withError .bus)
      ((s.setRtc .hour (syncByte s.params a b c .hour)).setRtc .min left).rtc
      [⟨syncRequest s.params a b c .hour, false⟩, ⟨syncRequest s.params a b c .min, true⟩] es) := by
  rw [syncBody_inDomain hd, memWrite_quiet (n := 0) (m := 0) h rfl (by rw [he]; rfl),
    memWrite_fails (n := 1) (State.afterTxn_phase h ..) rfl (by rw [State.afterTxn_env, he]; rfl)]
  simp [syncRequest, syncByte, busRequest]

theorem syncBody_secWriteFails (h : s.phase = .exec cmd now [] req) (hd : syncInDomain s.params a b c)
    (he : s.env = .busDone :: .busDone :: .busErr left :: es) :
    syncBody a b c s = .next (s.endedWith (s.flags.withError .bus)
      (((s.setRtc .hour (syncByte s.params a b c .hour)).setRtc .min (syncByte s.params a b c .min)).setRtc .sec left).rtc
      [⟨syncRequest s.params a b c .hour, false⟩, ⟨syncRequest s.params a b c .min, false⟩,
        ⟨syncRequest s.params a b c .sec, true⟩] es) := by
  have hhour := State.afterTxn_phase h .hour (.write (syncByte s.params a b c .hour)) (s.env.drop 1)
  rw [syncBody_inDomain hd, memWrite_quiet (n := 0) (m := 1) h rfl (by rw [he]; rfl),
    memWrite_quiet (n := 1) (m := 0) hhour rfl (by rw [State.afterTxn_env, he]; rfl),
    memWrite_fails (n := 2) (State.afterTxn_phase hhour ..) rfl (by simp only [State.afterTxn_env, he]; rfl)]
  simp [syncRequest, syncByte, busRequest]

end

/-! ### The next states of SYNC -/

/-- `s` behind the gate of SYNC, with its event recorded (42_debounce.md R62). -/
def State.syncAccepted (s : State) (now : Timestamp) : State :=
  s.gated (s.slots.put (slotNumber s.params .sync) ⟨now, true⟩) true

theorem exec_sync_accepted {s : State} {now : Timestamp} (hj : s.JustTaken now)
    (ha : accepts s.params (s.slotOf .sync) now = true) (a b c : Byte) :
    exec (.sync a b c) s = syncBody a b c (s.syncAccepted now) :=
  ifAccepted_accepted hj ha (syncBody a b c)

theorem exec_sync_dropped {s : State} {now : Timestamp} (hj : s.JustTaken now)
    (ha : accepts s.params (s.slotOf .sync) now = false) (a b c : Byte) :
    exec (.sync a b c) s = .next { s with flags := { s.flags with acc := false }, phase := .idle } :=
  ifAccepted_dropped hj ha (syncBody a b c)

/-- `s` after an accepted SYNC in range on a quiet bus (45_sync.md R85). -/
def State.synced (s : State) (now : Timestamp) (a b c : Byte) : State :=
  (s.syncAccepted now).endedWith (s.syncAccepted now).flags (s.storeTime a b c).rtc (syncTxns s.params a b c) (s.env.drop 3)

theorem exec_sync_quiet {s : State} {now : Timestamp} {a b c : Byte} (hj : s.JustTaken now) (hq : quietFor 3 s.env = true)
    (ha : accepts s.params (s.slotOf .sync) now = true) (hd : syncInDomain s.params a b c) :
    exec (.sync a b c) s = .next (s.synced now a b c) := by
  have ⟨cmd, hp⟩ := hj
  rw [exec_sync_accepted hj ha]
  exact syncBody_quiet_finish (s := s.syncAccepted now) hp hd hq

/-- Settles O55, by the quiet outcome of the three writes behind the gate and the packed bytes as numbers. -/
theorem syncWritesTheTime : Obligations.SyncWritesTheTime := by
  intro a b c s now hj hq ha hb hc hhour h hv hByte mByte sByte
  have hourByte : hByte = syncByte s.params a b c .hour := (syncByte_hour hhour).symm
  have minByte : mByte = syncByte s.params a b c .min := (syncByte_min hb).symm
  have secByte : sByte = syncByte s.params a b c .sec := (syncByte_sec hc).symm
  rw [hourByte, minByte, secByte]
  exact exec_sync_quiet hj hq ha ⟨hb, hc, hhour⟩

/-- Settles O56, by the other side of the gate and of the range checks. -/
theorem syncDroppedOrOutOfRange : Obligations.SyncDroppedOrOutOfRange := by
  intro a b c s now hj
  refine ⟨fun ha => exec_sync_dropped hj ha a b c, fun ha hrange => ?_⟩
  rw [exec_sync_accepted hj ha]
  exact syncBody_outOfDomain (s := s.syncAccepted now) (not_syncInDomain_iff.mpr hrange)

/-- Settles O57, write by write behind the gate. -/
theorem syncBusFailure : Obligations.SyncBusFailure := by
  intro a b c s now left es hj ha hb hc hhour h hv hByte mByte sByte hour min sec failed
  have hourByte : hByte = syncByte s.params a b c .hour := (syncByte_hour hhour).symm
  have minByte : mByte = syncByte s.params a b c .min := (syncByte_min hb).symm
  have secByte : sByte = syncByte s.params a b c .sec := (syncByte_sec hc).symm
  have hd : syncInDomain s.params a b c := ⟨hb, hc, hhour⟩
  have ⟨cmd, hp⟩ := hj
  rw [hourByte, minByte, secByte, exec_sync_accepted hj ha]
  exact ⟨syncBody_hourWriteFails (s := s.syncAccepted now) hp hd, syncBody_minWriteFails (s := s.syncAccepted now) hp hd,
    syncBody_secWriteFails (s := s.syncAccepted now) hp hd⟩

/-! ### What SYNC leaves unchanged -/

theorem exec_sync_otherSlots {a b c : Byte} {s t : State} (hE : noReset s.env = true) (h : exec (.sync a b c) s = .next t) :
    t.otherSlots .sync = s.otherSlots .sync :=
  (busRel_otherSlots .sync).sync (fun _ => trivial) (fun _ _ => rfl) (State.otherSlots_recordAccepted .sync) hE h

/-- SYNC stores at most to the three registers (45_sync.md R85). -/
theorem exec_sync_storesOnly {a b c : Byte} {s t : State} (hE : noRtcStep s.env = true)
    (h : exec (.sync a b c) s = .next t) : StoresOnly (fun _ => True) s t :=
  (busRel_storesOnly _).sync (fun _ => trivial) (fun _ _ => .of_same rfl rfl) (fun _ _ => .of_same rfl rfl) hE h

/-- Settles O58, by the views of the state that SYNC keeps and the registers it stores to. -/
theorem syncFrame : Obligations.SyncFrame := by
  intro a b c s t hR hE h
  have hparams := exec_params h
  have houtputs : t.outHour = s.outHour ∧ t.outMin = s.outMin ∧ t.pwm = s.pwm := by
    simpa [State.outputs] using exec_outputs (by simp) hR h
  obtain ⟨houtHour, houtMin, hpwm⟩ := houtputs
  refine ⟨hparams, fun n hn hne => State.get_eq_of_otherSlots hparams (exec_sync_otherSlots hR h) hn hne, houtHour, houtMin,
    hpwm, exec_sync_result hR h, exec_illErr hR h, exec_host hR h, fun x hhour hmin hsec => ?_⟩
  refine (exec_sync_storesOnly hE h).kept x fun f _ => ?_
  cases f with
  | hour => exact hhour
  | min => exact hmin
  | sec => exact hsec

/-! ### The display after a SYNC -/

theorem State.setRtc_wf {s : State} (hm : s.rtc.wf = true) (f : Field) (v : Byte) : (s.setRtc f v).rtc.wf = true :=
  Memory.write_wf hm _ v

/-- Each register holds its byte, whatever the order of the writes: the addresses are distinct (00_scope.md R5). -/
theorem State.rtcByte_synced {s : State} (hp : s.params.wellFormed = true) (hm : s.rtc.wf = true) (now : Timestamp)
    (a b c : Byte) (f : Field) : (s.synced now a b c).rtcByte f = syncByte s.params a b c f := by
  have hstored : (s.synced now a b c).rtcByte f = (s.storeTime a b c).rtcByte f := rfl
  rw [hstored, State.storeTime,
    State.rtcByte_setRtc (s := (s.setRtc _ _).setRtc _ _) hp (State.setRtc_wf (State.setRtc_wf hm _ _) _ _),
    State.rtcByte_setRtc (s := s.setRtc _ _) hp (State.setRtc_wf hm _ _), State.rtcByte_setRtc hp hm]
  cases f <;> rfl

/-- The hour bank shows an hour that is 12-hour already as it is (41_display.md R50, R52). -/
theorem hourBank_to12Hour (h : Nat) : hourBank (to12Hour h) = hourBank h := by
  have hle := to12Hour_le h
  rw [hourBank, hourBank, to12Hour, if_neg (by omega), if_neg (by omega)]

/-- The bytes of SYNC decode to the time they were made from (45_sync.md R86). -/
theorem decodeField_syncByte {p : Params} {a b c : Byte} (h12 : p.syncHour12h = true) (hb : b.toNat ≤ 59)
    (hc : c.toNat ≤ 59) :
    decodeField .hour (syncByte p a b c .hour) = to12Hour a.toNat ∧
      decodeField .min (syncByte p a b c .min) = b.toNat ∧ decodeField .sec (syncByte p a b c .sec) = c.toNat := by
  have hle := to12Hour_le a.toNat
  refine ⟨?_, decodeField_min_encodeField hb, decodeField_syncSecByte p hc⟩
  rw [syncByte, syncHour, if_pos h12, decodeField_hour_encodeField (by omega)]

section
variable {s : State} {now : Timestamp} {rest : List HostCmd}

/-- On an empty script an idle block takes the presented command at once, and the script stays empty (log 4). -/
theorem step_takes_quiet {i : Instr} (hidle : s.phase = .idle) (henv : s.env = []) (hhost : s.host = ⟨encode i, now⟩ :: rest) :
    step s = exec i ((s.takeCommand ⟨encode i, now⟩).setHost rest) := by
  have hafter : afterTake s.env = s.env := by rw [henv]; rfl
  rw [step_takes hidle hhost (by rw [henv]; rfl) (decodeCmd_encode i), hafter]
  rfl

theorem step_sync_quiet {a b c : Byte} (hp : s.params.wellFormed = true) (hm : s.rtc.wf = true) (hidle : s.phase = .idle)
    (henv : s.env = []) (hhost : s.host = ⟨encode (.sync a b c), now⟩ :: rest)
    (ha : accepts s.params (s.slotOf .sync) now = true) (hd : syncInDomain s.params a b c) :
    ∃ t, step s = .next t ∧ t.params = s.params ∧ t.phase = .idle ∧ t.env = [] ∧ t.host = rest ∧
      ∀ f, t.rtcByte f = syncByte s.params a b c f := by
  refine ⟨(s.setHost rest).synced now a b c, ?_, rfl, rfl, congrArg (List.drop 3) henv, rfl,
    State.rtcByte_synced hp hm now a b c⟩
  rw [step_takes_quiet hidle henv hhost]
  exact exec_sync_quiet ⟨_, rfl⟩ (congrArg (quietFor 3) henv) ha hd

theorem step_refresh_quiet (hidle : s.phase = .idle) (henv : s.env = []) (hhost : s.host = ⟨encode .refresh, now⟩ :: rest)
    (hm : decodeField .min (s.rtcByte .min) ≤ 59) (hv : decodeField .sec (s.rtcByte .sec) ≤ 59) :
    step s = .next ((s.setHost rest).showingRtc.endedWith s.flags s.rtc (refreshReads s.params) (s.env.drop 3)) := by
  rw [step_takes_quiet hidle henv hhost]
  exact execRefresh_quiet_finish (s := (s.takeCommand ⟨encode .refresh, now⟩).setHost rest) rfl hm hv
    (congrArg (quietFor 3) henv)

end

/-- Settles O59: the quiet SYNC leaves its bytes in the registers, and the quiet REFRESH shows what these decode to. -/
theorem refreshAfterSyncShowsItsTime : Obligations.RefreshAfterSyncShowsItsTime := by
  intro s a b c n1 n2 rest hinv hidle henv hhost h12 ha hb hc
  obtain ⟨hp, hm, _⟩ := (State.dataOk_iff s).mp ((State.inv_iff s).mp hinv).1
  obtain ⟨t, hsync, hparams, hidle', henv', hhost', hbyte⟩ := step_sync_quiet hp hm hidle henv hhost ha ⟨hb, hc, .inl h12⟩
  obtain ⟨hour, min, sec⟩ := decodeField_syncByte (a := a) h12 hb hc
  rw [← hbyte] at hour min sec
  have hrefresh := step_refresh_quiet hidle' henv' hhost' (min ▸ hb) (sec ▸ hc)
  refine ⟨t, _, hsync, hrefresh, ?hour, congrArg minuteBank min, ?duty, rfl, rfl, hbyte .min, ?hourByte, ?haltBit⟩
  case hour =>
    rw [← hourBank_to12Hour, ← hour]
    rfl
  case duty =>
    rw [← hparams, ← sec]
    rfl
  case hourByte => exact (hbyte .hour).trans (congrArg encodeField (if_pos h12))
  case haltBit => exact (congrArg (BitVec.extractLsb' 7 1) (hbyte .sec)).trans (syncSecByte_halt s.params hc)

/-! ### SEC -/

/-- What is stored elsewhere leaves a register as it was: the addresses are distinct (00_scope.md R5). -/
theorem StoresOnly.rtcByte_eq {W : Field → Prop} {s t : State} (h : StoresOnly W s t) (hp : s.params.wellFormed = true)
    {f : Field} (hf : ¬ W f) : t.rtcByte f = s.rtcByte f := by
  rw [State.rtcByte, h.params]
  exact h.kept _ fun g hg => Params.addr_ne hp fun hfg => hf (hfg ▸ hg)

theorem noRtcStepOf_append_right {f : Field} {a b : List EnvEvent} (h : noRtcStepOf f (a ++ b) = true) :
    noRtcStepOf f b = true := by
  rw [noRtcStepOf, List.all_append, Bool.and_eq_true] at h
  exact h.2

/-- RTC steps at other registers store at most there. -/
theorem State.rtcSteps_storesOnly {f : Field} {xs : List (Field × Byte)} {tail : List EnvEvent} (s : State)
    (h : noRtcStepOf f (stepEvents xs ++ tail) = true) : StoresOnly (· ≠ f) s (s.rtcSteps xs) := by
  induction xs generalizing s with
  | nil => exact .of_same rfl rfl
  | cons x xs ih =>
    have hx : x.1 ≠ f := by
      rintro rfl
      simp [noRtcStepOf] at h
    have hstep : StoresOnly (· ≠ f) s (s.setRtc x.1 x.2) :=
      ⟨rfl, fun a ha => Memory.read_write_other (ha x.1 hx) s.rtc x.2⟩
    exact hstep.trans (ih _ (noRtcStepOf_append_right (a := [.rtcStep x.1 x.2]) h))

/-- A bus command that writes other registers than `f`, while the RTC steps at most there, stores at most there; a reset
abandons a write of one of them. -/
theorem busRel_storesElsewhere (f : Field) : BusRel (noRtcStepOf f · = true) (· ≠ f) (StoresOnly (· ≠ f)) :=
  { busRel_storesOnly (· ≠ f) with
    suffix := noRtcStepOf_append_right
    steps := fun s _ _ h => s.rtcSteps_storesOnly h
    rst := fun _ _ _ _ _ => .of_same rfl rfl }

/-- Every command but SYNC keeps SEC (45_sync.md R87). -/
theorem exec_keeps_sec {i : Instr} {s t : State} (hp : s.params.wellFormed = true) (hi : ∀ a b c, i ≠ .sync a b c)
    (hE : noRtcStepOf .sec s.env = true) (h : exec i s = .next t) : t.rtcByte .sec = s.rtcByte .sec := by
  have hstores : StoresOnly (· ≠ .sec) s t :=
    (busRel_storesElsewhere .sec).exec (by decide) (by decide) (fun a b c hsync => absurd hsync (hi a b c))
      (fun _ _ _ _ _ _ _ => .of_same rfl rfl) (fun _ _ => .of_same rfl rfl) (fun _ _ => .of_same rfl rfl)
      (fun _ _ _ => .of_same rfl rfl) hE h
  exact hstores.rtcByte_eq hp (by simp)

/-- A quiet SYNC that completes a transaction is accepted and in range: it makes its three writes. -/
theorem exec_sync_of_txns {a b c : Byte} {s t : State} {now : Timestamp} (hj : s.JustTaken now)
    (hq : quietFor 3 s.env = true) (h : exec (.sync a b c) s = .next t) (hlog : t.busLog ≠ s.busLog) :
    syncInDomain s.params a b c ∧ t = s.synced now a b c := by
  cases ha : accepts s.params (s.slotOf .sync) now with
  | false =>
    cases (exec_sync_dropped hj ha a b c).symm.trans h
    exact absurd rfl hlog
  | true =>
    by_cases hd : syncInDomain s.params a b c
    · cases (exec_sync_quiet hj hq ha hd).symm.trans h
      exact ⟨hd, rfl⟩
    · rw [exec_sync_accepted hj ha, syncBody_outOfDomain (s := s.syncAccepted now) hd, raise_next] at h
      exact absurd (congrArg State.busLog h) hlog

/-- The last write of SYNC is read back from SEC, distinct addresses or not. -/
theorem State.rtcByte_synced_sec {s : State} (hm : s.rtc.wf = true) (now : Timestamp) (a b c : Byte) :
    (s.synced now a b c).rtcByte .sec = syncByte s.params a b c .sec := by
  have hm' := State.setRtc_wf (State.setRtc_wf hm .hour (syncByte s.params a b c .hour)) .min (syncByte s.params a b c .min)
  exact (Memory.read_write hm' _ _ _).trans (if_pos rfl)

/-- Settles O60: the other commands write at most to HOUR and MIN, and the last write of SYNC is the byte with `SEC_HALT_WRITE`
in bit 7. -/
theorem onlySyncWritesSec : Obligations.OnlySyncWritesSec := by
  refine ⟨fun i s t hp hi hE h => exec_keeps_sec hp hi hE h, fun a b c s t now hm hj hq h hlog => ?_⟩
  obtain ⟨⟨_, hc, _⟩, rfl⟩ := exec_sync_of_txns hj hq h fun hsame => by simp [hsame] at hlog
  rw [State.rtcByte_synced_sec hm]
  exact syncSecByte_halt s.params hc

end Sys2Proof.Machine
end

section
/-! PROOFS. Family 60_exceptions.md: every step answers a next state (R100, R106), and all that an illegal word does (R103). -/

namespace Sys2Proof.Machine

/-! ### Every command answers a next state -/

theorem raise_total (e : ErrorKind) (s : State) : ∃ u, raise e s = .next u := ⟨_, rfl⟩

/-- A command that checks its operand ends in either case: in DomainError or with its result. -/
theorem raiseOrFinish_total (outOfDomain : Prop) [Decidable outOfDomain] (e : ErrorKind) (s t : State) :
    ∃ u, (if outOfDomain then raise e s else finish t) = .next u := by
  split
  · exact raise_total e s
  · exact finish_total t

theorem debounceToResult_total (src : Source) (s : State) : ∃ u, debounceToResult src s = .next u :=
  finish_total _

theorem syncBody_total (a b c : Byte) (s : State) : ∃ u, syncBody a b c s = .next u := by
  unfold syncBody
  split
  · exact syncWrites_total _ _ _ s
  · split
    · exact raise_total .domain s
    · exact syncWrites_total _ _ _ s

theorem execRefresh_total (s : State) : ∃ u, execRefresh s = .next u :=
  busAccess_total _ _ _ s _ fun hour s => busAccess_total _ _ _ s _ fun min s => busAccess_total _ _ _ s _ fun sec s =>
    showTime_total hour min sec s

/-- No command's meaning faults or is refused, in any state (60_exceptions.md R100). -/
theorem exec_total (i : Instr) (s : State) : ∃ t, exec i s = .next t := by
  cases i with
  | decHour c | decMin c | decSec c | to12 c | hled c => exact finish_total _
  | enc c | mled c | brt c => exact raiseOrFinish_total _ _ _ _
  | debHour | debMin | debSync => exact debounceToResult_total _ s
  | inch => exact incHour_total 0 s _ finish_total
  | incm => exact incMinute_total s
  | btnh => exact ifAccepted_total _ s _ fun t => incHour_total 0 t _ finish_total
  | btnm => exact ifAccepted_total _ s _ incMinute_total
  | sync a b c => exact ifAccepted_total _ s _ (syncBody_total a b c)
  | refresh => exact execRefresh_total s

/-- Settles O10: a step without a command answers at once, a command's meaning is total, and an illegal word raises. -/
theorem everyStepAnswersANextState : Obligations.EveryStepAnswersANextState := by
  intro s
  unfold step
  split
  · next t _ => exact ⟨t, rfl⟩
  · next w t _ =>
    split
    · next i _ => exact exec_total i t
    · exact raise_total .illegalCommand t

/-! ### An illegal word -/

theorem State.setPhase_eq_self {s : State} {p : Phase} (h : s.phase = p) : s.setPhase p = s := by
  subst h
  rfl

/-- An idle block takes an illegal word as it takes a command, and raises IllegalCommand (30_encoding.md R40). -/
theorem step_takes_illegal {s : State} {c : HostCmd} {rest : List HostCmd} {e : IllegalWord} (hp : s.phase = .idle)
    (hh : s.host = c :: rest) (hk : takesCommand s.env = true) (he : decodeCmd c.cmd = .error e) :
    step s = raise .illegalCommand (((s.setEnv (afterTake s.env)).takeCommand c).setHost rest) := by
  simp only [step, nextAction_takes hp hk, takePresented, State.setEnv_host, hh, he]

/-- Settles O8: the word leaves the port, raising sets `ILL_ERR`, and the block ends `IDLE`, where it began. -/
theorem illegalCommandOnlySetsIllErr : Obligations.IllegalCommandOnlySetsIllErr := by
  intro s c rest e hp hh hk he
  calc step s
    _ = raise .illegalCommand (((s.setEnv (afterTake s.env)).takeCommand c).setHost rest) := step_takes_illegal hp hh hk he
    _ = .next ((((s.setFlags (s.flags.withError .illegalCommand)).setHost rest).setEnv (afterTake s.env)).setPhase .idle) := rfl
    _ = _ := congrArg Host.Outcome.next (State.setPhase_eq_self hp)

end Sys2Proof.Machine
end

section
/-! PROOFS. Family 70_reset_and_hazards.md: the commands with RTC changes before each of their transactions (R124, R126), the
carry of INCM while it waits before its last write (R125), and the commands that wait at the port meanwhile (R123). -/

namespace Sys2Proof.Machine

/-! ### The command port while a command is in progress -/

/-- No update of a bus command, reset included, touches the commands that the host presents (70_reset_and_hazards.md R123). -/
theorem busRel_sameHost : BusRel (fun _ => True) (fun _ => True) (fun s t => t.host = s.host) where
  refl _ := rfl
  trans hst htu := htu.trans hst
  suffix _ := trivial
  steps s xs _ _ := State.rtcSteps_host s xs
  write s f v _ := State.setRtc_host s f v
  log s _ _ _ := State.logTxn_host s _
  env s e := State.setEnv_host s e
  phase s p := State.setPhase_host s p
  bus s := State.setFlags_host s _
  dom s := State.setFlags_host s _
  rst s _ _ _ _ := State.resetBlock_host s

theorem exec_keeps_host {i : Instr} {s t : State} (h : exec i s = .next t) : t.host = s.host :=
  busRel_sameHost.exec trivial trivial (fun _ _ _ _ => trivial) (fun _ s _ _ _ _ _ => State.setOutputs_host s _ _ _)
    State.setResult_host State.setAcc_host State.recordAccepted_host trivial h

/-- The step of a busy block goes on with the command in progress, or ends the illegal word in its place. -/
theorem step_busy_cases {s t : State} (hb : s.busy = true) (h : step s = .next t) :
    (∃ i, exec i s = .next t) ∨ raise .illegalCommand s = .next t := by
  cases hp : s.phase with
  | idle =>
    rw [not_busy_of_idle hp] at hb
    cases hb
  | exec cmd now got req =>
    simp only [step, nextAction, hp] at h
    split at h
    · next i _ => exact .inl ⟨i, h⟩
    · exact .inr h

/-- Settles O11, by the two outcomes of a busy block's step, neither of which touches the port. -/
theorem presentedCommandsWaitWhileBusy : Obligations.PresentedCommandsWaitWhileBusy := by
  intro s t hb h
  rcases step_busy_cases hb h with ⟨i, hexec⟩ | hraise
  · exact exec_keeps_host hexec
  · rw [(raise_next _ _ _).mp hraise]
    rfl

/-! ### RTC steps and the registers -/

/-- What the RTC steps leave in the registers depends on nothing but the registers. -/
theorem State.rtcSteps_rtc_congr {s t : State} (hp : t.params = s.params) (hr : t.rtc = s.rtc) (xs : List (Field × Byte)) :
    (t.rtcSteps xs).rtc = (s.rtcSteps xs).rtc := by
  induction xs generalizing s t with
  | nil => exact hr
  | cons x xs ih => exact ih hp (by simp [hp, hr])

theorem State.rtcSteps_rtcSteps (s : State) (xs ys : List (Field × Byte)) :
    (s.rtcSteps xs).rtcSteps ys = s.rtcSteps (xs ++ ys) := by
  induction xs generalizing s with
  | nil => rfl
  | cons x xs ih => exact ih (s.setRtc x.1 x.2)

theorem State.rtcSteps_wf {s : State} (hm : s.rtc.wf = true) (xs : List (Field × Byte)) : (s.rtcSteps xs).rtc.wf = true := by
  induction xs generalizing s with
  | nil => exact hm
  | cons x xs ih => exact ih (State.setRtc_wf hm x.1 x.2)

/-- A register write is read back, distinct addresses or not. -/
theorem State.rtcByte_setRtc_same {s : State} (hm : s.rtc.wf = true) (f : Field) (v : Byte) : (s.setRtc f v).rtcByte f = v :=
  (Memory.read_write hm _ _ _).trans (if_pos rfl)

theorem State.afterTxn_write_wf {s : State} (hm : s.rtc.wf = true) (f : Field) (v : Byte) (es : List EnvEvent) :
    (s.afterTxn f (.write v) es).rtc.wf = true := by
  rw [State.afterTxn_rtc]
  exact State.setRtc_wf hm f v

theorem State.rtcByte_afterTxn_write {s : State} (hm : s.rtc.wf = true) (f : Field) (v : Byte) (es : List EnvEvent) :
    (s.afterTxn f (.write v) es).rtcByte f = v := by
  have hstored : (s.afterTxn f (.write v) es).rtcByte f = (s.setRtc f v).rtcByte f := by simp [State.rtcByte]
  exact hstored.trans (State.rtcByte_setRtc_same hm f v)

/-- A write leaves the other registers as they were: the addresses are distinct (00_scope.md R5). -/
theorem State.rtcByte_afterTxn_other {s : State} (hp : s.params.wellFormed = true) {f g : Field} (hne : g ≠ f) (op : BusOp)
    (es : List EnvEvent) : (s.afterTxn f op es).rtcByte g = s.rtcByte g :=
  ((busRel_storesOnly (· = f)).after s f op es (.inr rfl)).rtcByte_eq hp hne

theorem noRtcStepOf_stepEvents {xs : List (Field × Byte)} {f : Field} (hxs : ∀ x ∈ xs, x.1 ≠ f) :
    noRtcStepOf f (stepEvents xs ++ []) = true := by
  simpa [noRtcStepOf, stepEvents] using fun g v hx => hxs (g, v) hx

/-- RTC steps at other registers leave a register as it was. -/
theorem State.rtcByte_rtcSteps_other {s : State} (hp : s.params.wellFormed = true) {xs : List (Field × Byte)} {f : Field}
    (hxs : ∀ x ∈ xs, x.1 ≠ f) : (s.rtcSteps xs).rtcByte f = s.rtcByte f :=
  (s.rtcSteps_storesOnly (noRtcStepOf_stepEvents hxs)).rtcByte_eq hp (by simp)

/-! ### A transaction after RTC steps -/

/-- The end of a command whose last transaction writes `v` to `f` after the RTC made the changes `xs`. -/
def State.afterLastWrite (s : State) (xs : List (Field × Byte)) (f : Field) (v : Byte) (rest : List EnvEvent) : State :=
  ((s.rtcSteps xs).afterTxn f (.write v) rest).setPhase .idle

section
variable {n : Nat} {f : Field} {v : Byte} {s : State} {cmd : Word} {now : Timestamp} {got : List Byte} {req : Option BusReq}
  {xs ys : List (Field × Byte)} {rest : List EnvEvent}

theorem memRead_done {k : Byte → State → Result} (h : s.phase = .exec cmd now got req) (hl : got.length = n)
    (he : s.env = stepEvents xs ++ .busDone :: rest) :
    memRead n f s k = k ((s.rtcSteps xs).rtcByte f) ((s.rtcSteps xs).afterTxn f .read rest) :=
  busAccess_done h (by simp [← hl]) he

theorem memWrite_done {k : State → Result} (h : s.phase = .exec cmd now got req) (hl : got.length = n)
    (he : s.env = stepEvents xs ++ .busDone :: rest) :
    memWrite n f v s k = k ((s.rtcSteps xs).afterTxn f (.write v) rest) :=
  busAccess_done h (by simp [← hl]) he

theorem memWrite_done_finish (h : s.phase = .exec cmd now got req) (hl : got.length = n)
    (he : s.env = stepEvents xs ++ .busDone :: rest) :
    memWrite n f v s finish = .next (s.afterLastWrite xs f v rest) :=
  memWrite_done h hl he

theorem State.afterStepsTxn_phase (h : s.phase = .exec cmd now got req) (xs : List (Field × Byte)) (f : Field) (op : BusOp)
    (rest : List EnvEvent) :
    ((s.rtcSteps xs).afterTxn f op rest).phase = .exec cmd now (got ++ [(s.rtcSteps xs).busByte f op]) none :=
  State.afterTxn_phase ((s.rtcSteps_phase xs).trans h) f op rest

/-- RTC steps after a completed read act on the registers as they were at the read (20_memory.md R30). -/
@[simp] theorem State.rtcSteps_afterRead_rtc (s : State) (f : Field) (rest : List EnvEvent) (ys : List (Field × Byte)) :
    ((s.afterTxn f .read rest).rtcSteps ys).rtc = (s.rtcSteps ys).rtc :=
  State.rtcSteps_rtc_congr (by simp) (by simp) ys

@[simp] theorem State.rtcByte_rtcSteps_afterRead (s : State) (f : Field) (rest : List EnvEvent) (ys : List (Field × Byte))
    (g : Field) : ((s.afterTxn f .read rest).rtcSteps ys).rtcByte g = (s.rtcSteps ys).rtcByte g := by
  simp [State.rtcByte]

@[simp] theorem State.afterLastWrite_phase : (s.afterLastWrite xs f v rest).phase = .idle := rfl

@[simp] theorem State.afterLastWrite_env : (s.afterLastWrite xs f v rest).env = rest := by simp [State.afterLastWrite]

@[simp] theorem State.afterLastWrite_flags : (s.afterLastWrite xs f v rest).flags = s.flags := by
  simp [State.afterLastWrite]

/-- The RTC's changes before the write of the same register are overwritten (20_memory.md R24). -/
theorem State.rtcByte_afterLastWrite (hm : s.rtc.wf = true) : (s.afterLastWrite xs f v rest).rtcByte f = v :=
  State.rtcByte_afterTxn_write (State.rtcSteps_wf hm xs) f v rest

theorem State.rtcByte_afterLastWrite_other (hp : s.params.wellFormed = true) {g : Field} (hne : g ≠ f)
    (hxs : ∀ x ∈ xs, x.1 ≠ g) : (s.afterLastWrite xs f v rest).rtcByte g = s.rtcByte g :=
  (State.rtcByte_afterTxn_other (s := s.rtcSteps xs) (by simpa using hp) hne (.write v) rest).trans
    (State.rtcByte_rtcSteps_other hp hxs)

/-! ### `incHour` and `incMinute` with RTC steps before their reads -/

/-- `incHour` writes the hour after the one that its read found. -/
theorem incHour_afterRead {k : State → Result} (h : s.phase = .exec cmd now got req) (hl : got.length = n)
    (hd : decodeField .hour ((s.rtcSteps xs).rtcByte .hour) < s.params.hourWrap.value)
    (he : s.env = stepEvents xs ++ .busDone :: rest) :
    incHour n s k =
      memWrite (n + 1) .hour (s.rtcSteps xs).nextHour ((s.rtcSteps xs).afterTxn .hour .read rest) k := by
  unfold incHour
  rw [memRead_done h hl he]
  simp only [State.afterTxn_params, State.rtcSteps_params, if_neg (Nat.not_le.mpr hd)]
  simp [State.nextHour, hourAfter]

theorem incMinute_afterRead_noCarry (h : s.phase = .exec cmd now [] req)
    (hm : decodeField .min ((s.rtcSteps xs).rtcByte .min) < 59) (he : s.env = stepEvents xs ++ .busDone :: rest) :
    incMinute s = memWrite 1 .min (s.rtcSteps xs).nextMinute ((s.rtcSteps xs).afterTxn .min .read rest) finish := by
  unfold incMinute
  rw [memRead_done (n := 0) h rfl he]
  simp only [if_neg (show ¬ 59 < decodeField .min ((s.rtcSteps xs).rtcByte .min) by omega),
    if_neg (show ¬ decodeField .min ((s.rtcSteps xs).rtcByte .min) + 1 = 60 by omega), State.nextMinute]

theorem incMinute_afterRead_carry (h : s.phase = .exec cmd now [] req)
    (hm : decodeField .min ((s.rtcSteps xs).rtcByte .min) = 59) (he : s.env = stepEvents xs ++ .busDone :: rest) :
    incMinute s =
      incHour 1 ((s.rtcSteps xs).afterTxn .min .read rest) fun s => memWrite 3 .min 0x00 s finish := by
  unfold incMinute
  rw [memRead_done (n := 0) h rfl he]
  simp only [hm, Nat.lt_irrefl, if_false, if_true, encodeField_zero]

@[simp] theorem State.nextHour_rtcSteps_afterRead (s : State) (f : Field) (rest : List EnvEvent) (ys : List (Field × Byte)) :
    ((s.afterTxn f .read rest).rtcSteps ys).nextHour = (s.rtcSteps ys).nextHour := by
  simp [State.nextHour]

/-! ### The increments overwrite what the RTC changes between a read and its write -/

/-- `t` is the end of a command that left these bits of `status` and the rest of the script, with `v` in the register `f`. -/
structure EndsStoring (flags : Flags) (rest : List EnvEvent) (f : Field) (v : Byte) (t : State) : Prop where
  phase : t.phase = .idle
  env : t.env = rest
  flags : t.flags = flags
  stored : t.rtcByte f = v

theorem State.afterLastWrite_endsStoring (hm : s.rtc.wf = true) :
    EndsStoring s.flags rest f v (s.afterLastWrite xs f v rest) :=
  ⟨State.afterLastWrite_phase, State.afterLastWrite_env, State.afterLastWrite_flags, State.rtcByte_afterLastWrite hm⟩

/-- A read leaves the memory canonical, as the RTC steps before it do. -/
theorem State.afterRead_wf (hm : s.rtc.wf = true) : ((s.rtcSteps xs).afterTxn f .read rest).rtc.wf = true := by
  simpa using State.rtcSteps_wf hm xs

theorem incHour_overwrites (h : s.phase = .exec cmd now [] req) (hwf : s.rtc.wf = true)
    (hd : decodeField .hour ((s.rtcSteps xs).rtcByte .hour) < s.params.hourWrap.value)
    (he : s.env = stepEvents xs ++ .busDone :: (stepEvents ys ++ .busDone :: rest)) :
    ∃ t, incHour 0 s finish = .next t ∧ EndsStoring s.flags rest .hour (s.rtcSteps xs).nextHour t := by
  have hread := State.afterStepsTxn_phase h xs .hour .read (stepEvents ys ++ .busDone :: rest)
  rw [incHour_afterRead (n := 0) h rfl hd he, memWrite_done_finish (n := 1) hread rfl (State.afterTxn_env ..)]
  exact ⟨_, rfl, by simpa using State.afterLastWrite_endsStoring (State.afterRead_wf hwf)⟩

theorem incMinute_overwrites (h : s.phase = .exec cmd now [] req) (hwf : s.rtc.wf = true)
    (hm : decodeField .min ((s.rtcSteps xs).rtcByte .min) < 59)
    (he : s.env = stepEvents xs ++ .busDone :: (stepEvents ys ++ .busDone :: rest)) :
    ∃ t, incMinute s = .next t ∧ EndsStoring s.flags rest .min (s.rtcSteps xs).nextMinute t := by
  have hread := State.afterStepsTxn_phase h xs .min .read (stepEvents ys ++ .busDone :: rest)
  rw [incMinute_afterRead_noCarry h hm he, memWrite_done_finish (n := 1) hread rfl (State.afterTxn_env ..)]
  exact ⟨_, rfl, by simpa using State.afterLastWrite_endsStoring (State.afterRead_wf hwf)⟩

/-- The two writes of a carry: the RTC's changes before the write of MIN leave the hour as written, unless they are to HOUR. -/
theorem carryWrites_overwrite (h : s.phase = .exec cmd now got req) (hl : got.length = 2) (hwf : s.rtc.wf = true)
    (he : s.env = stepEvents xs ++ .busDone :: (stepEvents ys ++ .busDone :: rest)) :
    ∃ t, memWrite 2 .hour v s (fun u => memWrite 3 .min 0x00 u finish) = .next t ∧ EndsStoring s.flags rest .min 0x00 t ∧
      (s.params.wellFormed = true → (∀ y ∈ ys, y.1 ≠ .hour) → t.rtcByte .hour = v) := by
  have hwf' := State.rtcSteps_wf hwf xs
  have hwritten := State.afterStepsTxn_phase h xs .hour (.write v) (stepEvents ys ++ .busDone :: rest)
  rw [memWrite_done h hl he, memWrite_done_finish hwritten (by simp [hl]) (State.afterTxn_env ..)]
  refine ⟨_, rfl, ?ends, fun hp hys => ?hour⟩
  case ends => simpa using State.afterLastWrite_endsStoring (State.afterTxn_write_wf hwf' .hour v _)
  case hour =>
    rw [State.rtcByte_afterLastWrite_other (by simpa using hp) (by decide) hys]
    exact State.rtcByte_afterTxn_write hwf' .hour v _

/-- With a carry the hour written is the one after the hour that the second read found. -/
theorem incMinute_carry_overwrites {zs ws : List (Field × Byte)} (h : s.phase = .exec cmd now [] req) (hwf : s.rtc.wf = true)
    (hm : decodeField .min ((s.rtcSteps xs).rtcByte .min) = 59)
    (hd : decodeField .hour (((s.rtcSteps xs).rtcSteps ys).rtcByte .hour) < s.params.hourWrap.value)
    (he : s.env = stepEvents xs ++ .busDone :: (stepEvents ys ++ .busDone ::
      (stepEvents zs ++ .busDone :: (stepEvents ws ++ .busDone :: rest)))) :
    ∃ t, incMinute s = .next t ∧ EndsStoring s.flags rest .min 0x00 t ∧
      (s.params.wellFormed = true → (∀ w ∈ ws, w.1 ≠ .hour) →
        t.rtcByte .hour = ((s.rtcSteps xs).rtcSteps ys).nextHour) := by
  have minRead := State.afterStepsTxn_phase h xs .min .read
    (stepEvents ys ++ .busDone :: (stepEvents zs ++ .busDone :: (stepEvents ws ++ .busDone :: rest)))
  have hourRead := State.afterStepsTxn_phase minRead ys .hour .read
    (stepEvents zs ++ .busDone :: (stepEvents ws ++ .busDone :: rest))
  rw [incMinute_afterRead_carry h hm he, incHour_afterRead (n := 1) minRead rfl (by simpa using hd) (State.afterTxn_env ..),
    State.nextHour_rtcSteps_afterRead]
  simpa using carryWrites_overwrite hourRead rfl (State.afterRead_wf (State.afterRead_wf hwf)) (State.afterTxn_env ..)

end

/-! ### Behind the gate -/

theorem State.nextHour_of_params {s : State} {p : Params} (hp : s.params = p) :
    s.nextHour = encodeField (hourAfter p (decodeField .hour (s.rtcByte .hour))) := by
  rw [State.nextHour, hp]

/-- The gate touches no register. -/
@[simp] theorem State.rtcSteps_gated (s : State) (slots : Slots) (acc : Bool) (xs : List (Field × Byte)) :
    (s.gated slots acc).rtcSteps xs = (s.rtcSteps xs).gated slots acc := by
  induction xs generalizing s with
  | nil => rfl
  | cons x xs ih => exact ih (s.setRtc x.1 x.2)

/-- A command without a gate, or one whose event is accepted, reaches its body; only the second sets `ACC`. -/
theorem PassesGate.of_accepted {plain button : Instr} {src : Source} {s : State} {now : Timestamp} {i : Instr}
    (hne : plain ≠ button) (hi : i = plain ∨ (i = button ∧ accepts s.params (s.slotOf src) now = true)) :
    ∃ slots acc, acc = (if i = button then true else s.flags.acc) ∧ PassesGate plain button src s now i slots acc := by
  rcases hi with rfl | ⟨rfl, ha⟩
  · exact ⟨s.slots, s.flags.acc, (if_neg hne).symm, .inl ⟨rfl, rfl, rfl⟩⟩
  · exact ⟨_, true, (if_pos rfl).symm, .inr ⟨rfl, ha, rfl, rfl⟩⟩

/-- Settles O48, by the outcomes of `incHour` and `incMinute` on the state behind the gate. -/
theorem updateOverwritesRtcChanges : Obligations.UpdateOverwritesRtcChanges := by
  rintro s now xs ys env hwf ⟨cmd, hp⟩ he wrap after h m hc
  refine ⟨fun i hi hd => ?hour, fun i hi => ?minute⟩
  case hour =>
    obtain ⟨slots, acc, hacc, hgate⟩ := PassesGate.of_accepted (plain := .inch) (button := .btnh) (by decide) hi
    obtain ⟨t, hbody, hends⟩ := incHour_overwrites (s := s.gated slots acc) hp hwf (by rwa [State.rtcSteps_gated]) he
    rw [State.rtcSteps_gated] at hends
    exact ⟨t, (hgate.exec_eq ⟨cmd, hp⟩ (body := execInch) rfl rfl).trans hbody, hends.phase, hends.env, hacc ▸ hends.flags,
      hends.stored.trans (State.nextHour_of_params (s.rtcSteps_params xs))⟩
  case minute =>
    obtain ⟨slots, acc, hacc, hgate⟩ := PassesGate.of_accepted (plain := .incm) (button := .btnm) (by decide) hi
    have hexec := hgate.exec_eq ⟨cmd, hp⟩ (body := incMinute) rfl rfl
    refine ⟨fun hm => ?noCarry, fun hm hd zs ws es henv => ?carry⟩
    case noCarry =>
      obtain ⟨t, hbody, hends⟩ := incMinute_overwrites (s := s.gated slots acc) hp hwf (by rwa [State.rtcSteps_gated]) he
      rw [State.rtcSteps_gated] at hends
      exact ⟨t, hexec.trans hbody, hends.phase, hends.env, hacc ▸ hends.flags, hends.stored⟩
    case carry =>
      obtain ⟨t, hbody, hends, hhour⟩ := incMinute_carry_overwrites (s := s.gated slots acc) hp hwf
        (by rwa [State.rtcSteps_gated]) (by rwa [State.rtcSteps_gated, State.rtcSteps_gated]) (henv ▸ he)
      rw [State.rtcSteps_gated, State.rtcSteps_gated] at hhour
      exact ⟨t, hexec.trans hbody, hends.phase, hends.env, hacc ▸ hends.flags, hends.stored, fun hwell hws =>
        (hhour hwell hws).trans (State.nextHour_of_params ((State.rtcSteps_params _ ys).trans (s.rtcSteps_params xs)))⟩

/-! ### The carry of INCM, waiting before its last write -/

/-- `s` after the first three transactions of a carry, with the hour stored (43_adjust.md R72). -/
def State.carryHour (s : State) : State :=
  ((s.afterTxn .min .read (s.env.drop 1)).afterTxn .hour .read (s.env.drop 2)).afterTxn .hour (.write s.nextHour)
    (s.env.drop 3)

/-- `s` when INCM, with the hour stored in a carry, waits at the write of MIN (43_adjust.md R72). -/
def State.carryWaiting (s : State) (es : List EnvEvent) : State :=
  (s.carryHour.setEnv es).holdReq (.write s.params.regMin 0x00)

section
variable {s : State} {cmd : Word} {now : Timestamp} {es : List EnvEvent}

theorem memWrite_waits {n : Nat} {f : Field} {v : Byte} {k : State → Result} {got : List Byte} {req : Option BusReq}
    (h : s.phase = .exec cmd now got req) (hl : got.length = n) (he : s.env = .wait :: es) :
    memWrite n f v s k = .next ((s.setEnv es).holdReq (.write (s.params.addr f) v)) :=
  busAccess_pending h (by simp [← hl]) he

theorem State.carryHour_phase (h : s.phase = .exec cmd now [] none) :
    s.carryHour.phase = .exec cmd now [s.rtcByte .min, s.rtcByte .hour, s.nextHour] none := by
  have minRead := State.afterTxn_phase h .min .read (s.env.drop 1)
  have hourRead := State.afterTxn_phase minRead .hour .read (s.env.drop 2)
  have hourWritten := State.afterTxn_phase hourRead .hour (.write s.nextHour) (s.env.drop 3)
  simpa [State.carryHour, State.busByte] using hourWritten

theorem State.carryWaiting_phase (h : s.phase = .exec cmd now [] none) :
    (s.carryWaiting es).phase = .exec cmd now [s.rtcByte .min, s.rtcByte .hour, s.nextHour]
      (some (.write s.params.regMin 0x00)) := by
  have hphase := State.carryHour_phase h
  simp [State.carryWaiting, State.cmdWord, State.now, State.got, hphase]

theorem execIncm_waits (h : s.phase = .exec cmd now [] none) (hm : decodeField .min (s.rtcByte .min) = 59)
    (hd : decodeField .hour (s.rtcByte .hour) < s.params.hourWrap.value)
    (he : s.env = .busDone :: .busDone :: .busDone :: .wait :: es) : exec .incm s = .next (s.carryWaiting es) := by
  have minRead := State.afterTxn_phase h .min .read (s.env.drop 1)
  have hhour := incHour_quiet (n := 1) (m := 0) (k := fun u => memWrite 3 .min 0x00 u finish) minRead rfl
    (by simpa using hd) (by rw [State.afterTxn_env, he]; rfl)
  calc exec .incm s
    _ = incHour 1 (s.afterTxn .min .read (s.env.drop 1)) fun u => memWrite 3 .min 0x00 u finish :=
      incMinute_eq_carry h hm (by rw [he]; rfl)
    _ = memWrite 3 .min 0x00 s.carryHour finish := by simpa [State.carryHour, State.nextHour] using hhour
    _ = .next ((s.carryHour.setEnv es).holdReq (.write s.carryHour.params.regMin 0x00)) :=
      memWrite_waits (State.carryHour_phase h) rfl (by rw [State.carryHour, State.afterTxn_env, he]; rfl)
    _ = .next (s.carryWaiting es) := by simp [State.carryWaiting, State.carryHour]

/-- `BUSY` is bit 4 of `status` (10_state.md R17). -/
theorem State.status_bit_busy (s : State) : s.status.getLsbD 4 = s.busy := by
  obtain ⟨_, _, _, _, hbit, _⟩ := s.status_bits
  exact hbit

/-- While INCM waits there the RTC holds the new hour and the old minute. -/
theorem State.carryWaiting_rtcByte (f : Field) :
    (s.carryWaiting es).rtcByte f = (s.setRtc .hour s.nextHour).rtcByte f := by
  simp [State.carryWaiting, State.carryHour, State.rtcByte]

end

/-- Settles O49: INCM waits with the hour written, and by `waitingDoesNotChangeTheOutcome` it goes on as on a quiet bus. -/
theorem carryIsVisibleBetweenItsWrites : Obligations.CarryIsVisibleBetweenItsWrites := by
  intro s cmd now es hwell hwf hp hi hm hd he hq h next
  have hwaits := execIncm_waits hp hm hd he
  have hphase := State.carryWaiting_phase (es := es) hp
  have hbusy : (s.carryWaiting es).busy = true := by simp [State.busy, hphase]
  have hgoes := waitingDoesNotChangeTheOutcome s (s.carryWaiting es) .incm cmd now [.busDone, .busDone, .busDone] es hp hi he
    hwaits hbusy rfl
  have hquiet : quietFor 4 (.busDone :: .busDone :: .busDone :: es) = true := hq
  have hends := incMinute_quiet_carry (s := s.setEnv (.busDone :: .busDone :: .busDone :: es)) hp hm hd hquiet
  have hstored := fun f => State.rtcByte_setRtc hwell hwf .hour f s.nextHour
  have hended := fun f => State.rtcByte_setRtc (s := s.setRtc .hour s.nextHour) hwell (State.setRtc_wf hwf _ _) .min f 0x00
  refine ⟨_, _, hwaits, ?hour, ?min, ?busy, ?count, State.pendingReq_exec _ _ _ _ _ hphase, hgoes.trans hends, ?endHour,
    ?endMin, ?endBusy, rfl⟩
  case hour => exact (State.carryWaiting_rtcByte .hour).trans (hstored .hour)
  case min => exact (State.carryWaiting_rtcByte .min).trans (hstored .min)
  case busy => exact (State.status_bit_busy _).trans hbusy
  case count =>
    rw [State.txnCount, State.got_exec _ _ _ _ _ hphase]
    rfl
  case endHour => exact (hended .hour).trans (hstored .hour)
  case endMin => exact hended .min
  case endBusy => exact (State.status_bit_busy _).trans (not_busy_of_idle rfl)

/-! ### REFRESH with RTC steps before its reads -/

section
variable {s : State} {cmd : Word} {now : Timestamp} {req : Option BusReq} {xs ys zs : List (Field × Byte)}
  {es : List EnvEvent}

/-- `s` after the three reads of REFRESH, with RTC steps before each (44_clockloop.md R80, 20_memory.md R24). -/
def State.afterTornReads (s : State) (xs ys zs : List (Field × Byte)) (es : List EnvEvent) : State :=
  (((((s.rtcSteps xs).afterTxn .hour .read (stepEvents ys ++ .busDone :: (stepEvents zs ++ .busDone :: es))).rtcSteps
    ys).afterTxn .min .read (stepEvents zs ++ .busDone :: es)).rtcSteps zs).afterTxn .sec .read es

/-- Each read shows the byte that it found (70_reset_and_hazards.md R126). -/
theorem execRefresh_afterReads (h : s.phase = .exec cmd now [] req)
    (he : s.env = stepEvents xs ++ .busDone :: (stepEvents ys ++ .busDone :: (stepEvents zs ++ .busDone :: es))) :
    execRefresh s = showTime ((s.rtcSteps xs).rtcByte .hour) (((s.rtcSteps xs).rtcSteps ys).rtcByte .min)
      ((((s.rtcSteps xs).rtcSteps ys).rtcSteps zs).rtcByte .sec) (s.afterTornReads xs ys zs es) := by
  have hourRead := State.afterStepsTxn_phase h xs .hour .read (stepEvents ys ++ .busDone :: (stepEvents zs ++ .busDone :: es))
  have minRead := State.afterStepsTxn_phase hourRead ys .min .read (stepEvents zs ++ .busDone :: es)
  unfold execRefresh
  rw [memRead_done (n := 0) h rfl he, memRead_done (n := 1) hourRead rfl (State.afterTxn_env ..),
    memRead_done (n := 2) minRead rfl (State.afterTxn_env ..)]
  simp [State.afterTornReads, State.rtcSteps_rtcSteps]

end

/-- Settles O52, read by read: each shows the byte that it found. -/
theorem refreshMayTear : Obligations.RefreshMayTear := by
  rintro s now xs ys zs es ⟨cmd, hp⟩ he s1 s2 s3 hm hv
  refine ⟨_, (execRefresh_afterReads hp he).trans (showTime_inDomain hm hv _), rfl, rfl, ?duty, ?rtc, ?flags, rfl, ?env⟩
  case duty => simp [State.afterTornReads]
  case rtc => simp [State.afterTornReads, State.rtcSteps_rtcSteps, s3, s2, s1]
  case flags => simp [State.afterTornReads]
  case env => simp [State.afterTornReads]

end Sys2Proof.Machine
end
